-- ==== Sys2Proof/Word.lean ====
section
/-! DEFINITION. The words of the block: bytes, addresses, ring indices, byte strings (R14), and the
word formats in which an instruction is presented (R60, R74, R75, R76, R77). -/

namespace Sys2Proof

/-- R14: an 8-bit unsigned value. -/
abbrev Byte := BitVec 8

/-- R31: a 16-bit device address. -/
abbrev Addr := BitVec 16

/-- R24, R25: a ring index `0..N-1`, 10 bits, so index arithmetic is modulo `N` = 1024. -/
abbrev Index := BitVec 10

/-- R14: a byte string, a finite list of bytes. -/
abbrev Str := List Byte

/-- A request word on one of the block's three ports: FIFO (R74, 11 bits), bus (R75, 26 bits),
descriptor (R76, 2 bits). -/
inductive PortWord where
  | fifo (w : BitVec 11)
  | bus (w : BitVec 26)
  | select (w : BitVec 2)
deriving DecidableEq, Repr

/-- An instruction as it is presented: a wire envelope of two bytes (R60, first byte in bits 15..8), a
port request word, the receive event (R77) or the internal recognizer event (R92). The two events have
no word in the spec. -/
inductive Request where
  | envelope (w : BitVec 16)
  | port (p : PortWord)
  | recv (b : Byte) (ok : Bool)
  | recognize
deriving DecidableEq, Repr

end Sys2Proof
end

