-- ==== Sys2Proof/Config.lean ====
section
/-! DEFINITION. Configuration: the fixed values of R10, the two variants of R11, the OPEN parameters of
R12 and R13 as plain data with their constraints, the fixed response lines of R70, and the free values
of this model (opaque constants, nothing evaluates them). -/

namespace Sys2Proof

/-! ## Fixed values (R10) -/

/-- R10: ring capacity. -/
abbrev Config.N : Nat := 1024
/-- R10: high watermark, `N - 32` = 992. -/
abbrev Config.HWM : Nat := Config.N - 32
/-- R10: low watermark. -/
abbrev Config.LWM : Nat := 32
/-- R10: bytes per read-output row. -/
abbrev Config.ROW : Nat := 16
/-- R10: erased-state value of every device. -/
abbrev Config.ERASED : Byte := 0xFF#8
/-- R10, R59: the command marker `$`. -/
abbrev Config.MARKER : Byte := 0x24#8

/-! ## Variants, lines, phases -/

/-- R11: the closed set of device variants. -/
inductive Variant where
  | A
  | B
deriving DecidableEq, Repr

/-- R120: an electrical level. -/
inductive Volt where
  | low
  | high
deriving DecidableEq, Repr, Inhabited

/-- The other electrical level (R26). -/
def Volt.other : Volt → Volt
  | .low => .high
  | .high => .low

/-- R120: the three control roles. -/
inductive Role where
  | latch
  | enable
  | program
deriving DecidableEq, Repr

/-- R121: the bus phases. -/
inductive Phase where
  | addrSetup
  | latchAssert
  | latchDeassert
  | enAssert
  | enDeassert
  | pgmAssert
  | pgmDeassert
deriving DecidableEq, Repr

/-- R12: the minimum hold time of each phase, in microseconds. -/
structure Holds where
  addrSetup : Nat
  latchAssert : Nat
  latchDeassert : Nat
  enAssert : Nat
  enDeassert : Nat
  pgmAssert : Nat
  pgmDeassert : Nat
deriving DecidableEq, Repr

/-- `hold(v, p)` of one variant (R121). -/
def Holds.of (h : Holds) : Phase → Nat
  | .addrSetup => h.addrSetup
  | .latchAssert => h.latchAssert
  | .latchDeassert => h.latchDeassert
  | .enAssert => h.enAssert
  | .enDeassert => h.enDeassert
  | .pgmAssert => h.pgmAssert
  | .pgmDeassert => h.pgmDeassert

/-- R120: `role(v, r) = (pin, level)`; a pin is a number below `Config.nPins`. -/
structure Drive where
  pin : Nat
  level : Volt
deriving DecidableEq, Repr

/-- R120: the pin and active level of each role. -/
structure Roles where
  latch : Drive
  enable : Drive
  program : Drive
deriving DecidableEq, Repr

/-- `role(v, r)` of one variant. -/
def Roles.of (t : Roles) : Role → Drive
  | .latch => t.latch
  | .enable => t.enable
  | .program => t.program

/-- R107: the descriptor of one variant. `idle` lists `idle(v, p)` for the pins `0..nPins-1` (R120). -/
structure Descriptor where
  size : Nat
  aw : Nat
  hold : Holds
  role : Roles
  idle : List Volt
  devCode : Byte
  identToken : Str
deriving DecidableEq, Repr

/-- The configuration of one run (R12, R13, R21): plain data that no step writes. The OPEN parameters
have no default; `cancelChar` and `boot` have the spec's defaults (D14, D3). -/
structure Config where
  descA : Descriptor
  descB : Descriptor
  nPins : Nat
  noneToken : Str
  fcLevel : Volt
  cancelChar : Byte := 0x03#8
  boot : Option Variant := some .A
deriving DecidableEq, Repr

/-- The per-variant table, looked up by the selected variant (R107). -/
def Config.descriptor (c : Config) : Variant → Descriptor
  | .A => c.descA
  | .B => c.descB

/-- R125: whether address `a` lies in `0..size-1`. Address 0 exists in every device, since
`1 <= size(v)` (R12). -/
def Descriptor.hasAddr (d : Descriptor) (a : Addr) : Bool :=
  a == 0#16 || decide (a.toNat < d.size)

/-! ## The payload's digit order -/

/-- R13, R63: the two orders of a hex pair. -/
inductive NibbleOrder where
  | highFirst
  | lowFirst
deriving DecidableEq, Repr

/-- R63: this spec fixes the order to high nibble first (90_conflicts.md C7). -/
abbrev Config.nibbleOrder : NibbleOrder := .highFirst

/-! ## Response lines (R70) -/

/-- Line feed (R59). -/
abbrev Config.lf : Byte := 0x0A#8
/-- R67: `"OK\n"`. -/
def Config.okLine : Str := [0x4F#8, 0x4B#8, 0x0A#8]
/-- R70: `"aborted\n"`. -/
def Config.abortLine : Str :=
  [0x61#8, 0x62#8, 0x6F#8, 0x72#8, 0x74#8, 0x65#8, 0x64#8, 0x0A#8]
/-- R70: `"unknown command\n"`. -/
def Config.unknownLine : Str :=
  [0x75#8, 0x6E#8, 0x6B#8, 0x6E#8, 0x6F#8, 0x77#8, 0x6E#8, 0x20#8, 0x63#8, 0x6F#8, 0x6D#8, 0x6D#8,
    0x61#8, 0x6E#8, 0x64#8, 0x0A#8]
/-- R70: `"unknown device\n"`. -/
def Config.setDevFailLine : Str :=
  [0x75#8, 0x6E#8, 0x6B#8, 0x6E#8, 0x6F#8, 0x77#8, 0x6E#8, 0x20#8, 0x64#8, 0x65#8, 0x76#8, 0x69#8,
    0x63#8, 0x65#8, 0x0A#8]
/-- R70: `"bad hex\n"`. -/
def Config.badHexLine : Str :=
  [0x62#8, 0x61#8, 0x64#8, 0x20#8, 0x68#8, 0x65#8, 0x78#8, 0x0A#8]
/-- R70: `"no device\n"`. -/
def Config.noDeviceLine : Str :=
  [0x6E#8, 0x6F#8, 0x20#8, 0x64#8, 0x65#8, 0x76#8, 0x69#8, 0x63#8, 0x65#8, 0x0A#8]

/-- R69: the identify line of a descriptor selection. -/
def Config.identLine (c : Config) : Option Variant → Str
  | some .A => c.descA.identToken ++ [Config.lf]
  | some .B => c.descB.identToken ++ [Config.lf]
  | none => c.noneToken ++ [Config.lf]

/-! ## The constraints on the parameters -/

/-- An upper or lower case hexadecimal digit. -/
def Config.isHex (b : Byte) : Bool :=
  (decide (0x30 ≤ b.toNat) && decide (b.toNat ≤ 0x39)) || (decide (0x41 ≤ b.toNat) && decide (b.toNat ≤ 0x46))
    || (decide (0x61 ≤ b.toNat) && decide (b.toNat ≤ 0x66))

/-- A lower case hexadecimal digit, as an address/value line has them (R17). -/
def Config.isHexL (b : Byte) : Bool :=
  (decide (0x30 ≤ b.toNat) && decide (b.toNat ≤ 0x39)) || (decide (0x61 ≤ b.toNat) && decide (b.toNat ≤ 0x66))

/-- A line that begins with four hex digits (R64: of either case) and `:` (R70). -/
def Config.looksLikeRow : Str → Bool
  | a :: b :: c :: d :: e :: _ =>
    Config.isHex a && Config.isHex b && Config.isHex c && Config.isHex d && e == 0x3A#8
  | _ => false

/-- An address/value line `0xhhhh = 0xhh\n`, exactly a value of `fmtAV` (R17, R68): R70 asks that no other line equals
one, so a token with upper case digits is not excluded. -/
def Config.looksLikeFailure : Str → Bool
  | [z, x, a, b, c, d, s, e, t, y, w, g, h, n] =>
    z == 0x30#8 && x == 0x78#8 && Config.isHexL a && Config.isHexL b && Config.isHexL c && Config.isHexL d
      && s == 0x20#8 && e == 0x3D#8 && t == 0x20#8 && y == 0x30#8 && w == 0x78#8 && Config.isHexL g
      && Config.isHexL h && n == 0x0A#8
  | _ => false

/-- R12: the constraints on one variant's descriptor. -/
def Descriptor.wf (d : Descriptor) (nPins : Nat) : Bool :=
  decide (1 ≤ d.size) && decide (d.size ≤ 65536) && decide (1 ≤ d.aw) && decide (d.aw ≤ 16)
    && decide (d.size ≤ 2 ^ d.aw) && decide (d.idle.length = nPins) && decide (d.role.latch.pin < nPins)
    && decide (d.role.enable.pin < nPins) && decide (d.role.program.pin < nPins)
    && !d.identToken.contains Config.lf

/-- R70: every fixed line and identify line of one configuration. -/
def Config.lines (c : Config) : List Str :=
  [Config.okLine, Config.abortLine, Config.unknownLine, Config.setDevFailLine, Config.badHexLine,
    Config.noDeviceLine, c.identLine (some .A), c.identLine (some .B), c.identLine none]

/-- R12, R13, R65, R70: the constraints the parameters keep: sizes and widths (D30), pins of the finite
pin type, device codes distinct and none the cancel character, tokens without line feed, no two response
lines equal, none beginning as a read row does and none equal to an address/value line. -/
def Config.wf (c : Config) : Bool :=
  c.descA.wf c.nPins && c.descB.wf c.nPins && !c.noneToken.contains Config.lf
    && c.descA.devCode != c.descB.devCode && c.descA.devCode != c.cancelChar
    && c.descB.devCode != c.cancelChar && decide c.lines.Nodup
    && c.lines.all (fun l => !Config.looksLikeRow l && !Config.looksLikeFailure l)

/-- The test configuration TC of 95_test_vectors.md section 1, which uses `hold` = 1 for every phase.
Its pins, levels and `fcLevel` are not given there and stand for nothing. Test values, not values of the
hardware. -/
def Config.tc : Config where
  descA :=
    { size := 20, aw := 5, hold := ⟨1, 1, 1, 1, 1, 1, 1⟩
      role := ⟨⟨0, .high⟩, ⟨1, .low⟩, ⟨1, .high⟩⟩, idle := [.low, .high]
      devCode := 0x41#8, identToken := [0x44#8, 0x45#8, 0x56#8, 0x41#8] }
  descB :=
    { size := 4, aw := 2, hold := ⟨1, 1, 1, 1, 1, 1, 1⟩
      role := ⟨⟨0, .high⟩, ⟨1, .high⟩, ⟨1, .low⟩⟩, idle := [.low, .high]
      devCode := 0x42#8, identToken := [0x44#8, 0x45#8, 0x56#8, 0x42#8] }
  nPins := 2
  noneToken := [0x4E#8, 0x4F#8, 0x4E#8, 0x45#8]
  fcLevel := .high

/-- The OPEN parameters of the platform with the constraints of R12: any configuration that is well
formed once `cancelChar` and `boot` take the spec's defaults. The default value only shows that the
constraints can be met. -/
structure Platform where
  cfg : Config := Config.tc
  ok : ({ cfg with cancelChar := 0x03#8, boot := some .A } : Config).wf = true := by decide
deriving Inhabited

/-! ## Free values (assumption log 1 to 4) -/

/-- The OPEN parameters of the hardware (R12, R13, D9, D17, D18, D31, D32): a free value, constrained only
by `Platform.ok`. -/
opaque Config.platform : Platform

/-- R44, D36: the DEVICE oracle: the byte the device drives at the `n`-th bus read of the run, at address
`a`. A free value: nothing constrains it. -/
opaque Config.devRead : Nat → Addr → Byte

/-- R142, D40: the CLOCK's value at reset, any value. -/
opaque Config.nowAtReset : Nat

/-- I-5, R149: the level of control pin `p` while no variant is selected, any value. -/
opaque Config.unselectedPin : Nat → Volt

/-- The configuration of the machine at reset: the platform's OPEN parameters with the spec's defaults for
`cancelChar` (D14) and `bootDescriptor` (D3). -/
def Config.machine : Config :=
  { Config.platform.cfg with cancelChar := 0x03#8, boot := some .A }

end Sys2Proof
end

