-- ==== Sys2Proof/Syntax.lean ====
section
/-! DEFINITION. Syntax: the instructions of the block, one constructor per row of spec/opcode_table.json. -/

namespace Sys2Proof

/-- Every command of the wire protocol (R61, R71), every port operation (R74, R75, R76) and the two events
(R77, R92). Operands are fields of the words, already cut out. -/
inductive Instr where
  /-- `$READ`, envelope 24 31 (R115). -/
  | read
  /-- `$WRITE`, envelope 24 32 (R117); its payload characters are popped from the buffer. -/
  | write
  /-- `$BLANK`, envelope 24 33 (R116). -/
  | blank
  /-- `$IDENT`, envelope 24 34 (R111). -/
  | ident
  /-- `$SETDEV`, envelope 24 35 (R110); its code byte is popped from the buffer. -/
  | setdev
  /-- `$RESET`, envelope 24 39 (R104). -/
  | reset
  /-- `$BAUD`, envelope 24 55 (R105). -/
  | baud
  /-- An envelope 24 op whose opcode byte is none of the seven (R71, R101). -/
  | unknownOpcode (op : Byte)
  /-- `PUSH b` (R84). -/
  | push (b : Byte)
  /-- `POP` (R85). -/
  | pop
  /-- `POPW` (R86). -/
  | popw
  /-- `PEEK` (R87). -/
  | peek
  /-- `SIZE` (R88). -/
  | size
  /-- `CLEAR` (R89). -/
  | clear
  /-- A FIFO port word with a reserved select code (R74). -/
  | reservedFifoPort (sel : BitVec 3) (data : Byte)
  /-- `BUS.LATCH a` (R126). -/
  | busLatch (a : Addr)
  /-- `BUS.READ a` (R127). -/
  | busRead (a : Addr)
  /-- `BUS.PROG a, d` (R128). -/
  | busProg (a : Addr) (d : Byte)
  /-- A bus port word with the reserved select code (R75). -/
  | reservedBusPort (a : Addr) (d : Byte)
  /-- `SELECT A` (R109). -/
  | selectA
  /-- `SELECT B` (R109). -/
  | selectB
  /-- The descriptor port word 0 (R76). -/
  | reservedSelect0
  /-- The descriptor port word 3 (R76). -/
  | reservedSelect3
  /-- `RECV(b, ok)`, the receive event (R83). -/
  | recv (b : Byte) (ok : Bool)
  /-- `RECOGNIZE`, the internal event (R92). -/
  | recognize
deriving DecidableEq, Repr

end Sys2Proof
end

