-- ==== Sys2Proof/WellFormed.lean ====
section
/-! DEFINITION. WellFormed: which terms of `Instr` stand for an encoding of the spec. -/

namespace Sys2Proof

/-- R61: the opcode bytes of the seven commands. -/
def knownOpcodes : List Byte := [0x31#8, 0x32#8, 0x33#8, 0x34#8, 0x35#8, 0x39#8, 0x55#8]

/-- R71, R74: an unknown opcode is none of the seven; a reserved FIFO select code is 110 or 111. Every other
operand field may take every value of its width. -/
def Instr.wf : Instr → Bool
  | .unknownOpcode op => !knownOpcodes.contains op
  | .reservedFifoPort sel _ => decide (6 ≤ sel.toNat)
  | .read => true
  | .write => true
  | .blank => true
  | .ident => true
  | .setdev => true
  | .reset => true
  | .baud => true
  | .push _ => true
  | .pop => true
  | .popw => true
  | .peek => true
  | .size => true
  | .clear => true
  | .busLatch _ => true
  | .busRead _ => true
  | .busProg _ _ => true
  | .reservedBusPort _ _ => true
  | .selectA => true
  | .selectB => true
  | .reservedSelect0 => true
  | .reservedSelect3 => true
  | .recv _ _ => true
  | .recognize => true

end Sys2Proof
end

