-- ==== Sys2Proof/Decode.lean ====
section
/-! DEFINITION. Decode: the decoder, total on every request and rejecting by name, and the encoder written
from the same tables (30_encoding.md). -/

namespace Sys2Proof

/-- Why a request word has no meaning. -/
inductive Reject where
  /-- R60: an envelope whose first byte is not `$`. Raised by `decode`; safe. -/
  | notAMarker
  /-- R74: a nonzero `data` field for a code other than `PUSH`. Raised by `decode`; safe. -/
  | nonzeroData
  /-- R75: a nonzero `d` field for `BUS.LATCH` or `BUS.READ`. Raised by `decode`; safe. -/
  | nonzeroD
deriving DecidableEq, Repr

/-- R101: exact-match decoding of the opcode byte; every other byte is an unknown opcode (R71). -/
def decodeOpcode (op : Byte) : Instr :=
  if op = 0x31#8 then .read
  else if op = 0x32#8 then .write
  else if op = 0x33#8 then .blank
  else if op = 0x34#8 then .ident
  else if op = 0x35#8 then .setdev
  else if op = 0x39#8 then .reset
  else if op = 0x55#8 then .baud
  else .unknownOpcode op

/-- R74: `op = bits[10:8]`, `data = bits[7:0]`. -/
def decodeFifo (w : BitVec 11) : Except Reject Instr :=
  let op : BitVec 3 := w.extractLsb' 8 3
  let data : Byte := w.extractLsb' 0 8
  if op = 0#3 then .ok (.push data)
  else if 6 ≤ op.toNat then .ok (.reservedFifoPort op data)
  else if data ≠ 0#8 then .error .nonzeroData
  else if op = 1#3 then .ok .pop
  else if op = 2#3 then .ok .popw
  else if op = 3#3 then .ok .peek
  else if op = 4#3 then .ok .size
  else .ok .clear

/-- R75: `op = bits[25:24]`, `a = bits[23:8]`, `d = bits[7:0]`. -/
def decodeBus (w : BitVec 26) : Except Reject Instr :=
  let op : BitVec 2 := w.extractLsb' 24 2
  let a : Addr := w.extractLsb' 8 16
  let d : Byte := w.extractLsb' 0 8
  if op = 3#2 then .ok (.reservedBusPort a d)
  else if op = 2#2 then .ok (.busProg a d)
  else if d ≠ 0#8 then .error .nonzeroD
  else if op = 1#2 then .ok (.busRead a)
  else .ok (.busLatch a)

/-- R76: `1` selects A, `2` selects B; `0` and `3` are the reserved rows. -/
def decodeSelect (w : BitVec 2) : Instr :=
  if w = 1#2 then .selectA
  else if w = 2#2 then .selectB
  else if w = 0#2 then .reservedSelect0
  else .reservedSelect3

/-- A port request word (R74, R75, R76). -/
def decodePort : PortWord → Except Reject Instr
  | .fifo w => decodeFifo w
  | .bus w => decodeBus w
  | .select w => .ok (decodeSelect w)

/-- R60: the marker in bits 15..8, the opcode in bits 7..0. -/
def decodeEnvelope (w : BitVec 16) : Except Reject Instr :=
  if w.extractLsb' 8 8 = Config.MARKER then .ok (decodeOpcode (w.extractLsb' 0 8))
  else .error .notAMarker

/-- The instruction a request stands for. -/
def decode : Request → Except Reject Instr
  | .envelope w => decodeEnvelope w
  | .port p => decodePort p
  | .recv b ok => .ok (.recv b ok)
  | .recognize => .ok .recognize

/-- R60: the envelope with opcode byte `op`. -/
def encodeEnvelope (op : Byte) : Request := .envelope (Config.MARKER ++ op)

/-- R74: the FIFO port word with select code `op`. -/
def encodeFifo (op : BitVec 3) (data : Byte) : Request := .port (.fifo (op ++ data))

/-- R75: the bus port word with select code `op`. -/
def encodeBus (op : BitVec 2) (a : Addr) (d : Byte) : Request := .port (.bus (op ++ a ++ d))

/-- The request that stands for a well-formed instruction (R61, R74, R75, R76, R77). -/
def encode : Instr → Request
  | .read => encodeEnvelope 0x31#8
  | .write => encodeEnvelope 0x32#8
  | .blank => encodeEnvelope 0x33#8
  | .ident => encodeEnvelope 0x34#8
  | .setdev => encodeEnvelope 0x35#8
  | .reset => encodeEnvelope 0x39#8
  | .baud => encodeEnvelope 0x55#8
  | .unknownOpcode op => encodeEnvelope op
  | .push b => encodeFifo 0#3 b
  | .pop => encodeFifo 1#3 0#8
  | .popw => encodeFifo 2#3 0#8
  | .peek => encodeFifo 3#3 0#8
  | .size => encodeFifo 4#3 0#8
  | .clear => encodeFifo 5#3 0#8
  | .reservedFifoPort sel data => encodeFifo sel data
  | .busLatch a => encodeBus 0#2 a 0#8
  | .busRead a => encodeBus 1#2 a 0#8
  | .busProg a d => encodeBus 2#2 a d
  | .reservedBusPort a d => encodeBus 3#2 a d
  | .selectA => .port (.select 1#2)
  | .selectB => .port (.select 2#2)
  | .reservedSelect0 => .port (.select 0#2)
  | .reservedSelect3 => .port (.select 3#2)
  | .recv b ok => .recv b ok
  | .recognize => .recognize

/-- The request that a row of the opcode table with `nbits` bits (in whole bytes) and bits `w` stands for: 16
bits hold a FIFO word (11 bits) or an envelope, 32 bits a bus word (26 bits), 8 bits a descriptor word (2
bits). A 16-bit number below 2^11 is a FIFO word: no envelope is, since its marker is 0x24. -/
def tableRequest (nbits w : Nat) : Option Request :=
  if nbits = 16 then
    if w < 2 ^ 11 then some (.port (.fifo (BitVec.ofNat 11 w)))
    else if w < 2 ^ 16 then some (.envelope (BitVec.ofNat 16 w))
    else none
  else if nbits = 32 then
    if w < 2 ^ 26 then some (.port (.bus (BitVec.ofNat 26 w))) else none
  else if nbits = 8 then
    if w < 2 ^ 2 then some (.port (.select (BitVec.ofNat 2 w))) else none
  else none

/-- The instruction the decoder reads from a table word. -/
def decodeTableWord (nbits w : Nat) : Option Instr :=
  match tableRequest nbits w with
  | some r => (decode r).toOption
  | none => none

end Sys2Proof
end

