-- ==== Sys2Proof/Machine/State.lean ====
section
/-! DEFINITION. State: everything the spec gives the block (10_state.md, R149), the model's own fields, the
two reason types of a step, and the state after reset. Plain data throughout. -/

namespace Sys2Proof.Machine

/-! ## Errors, events, results -/

/-- R132: the error codes. -/
inductive ErrorCode where
  | bufferOverflow
  | bufferUnderflow
  | verifyMismatch
  | blankMismatch
  | unknownOpcode
  | unknownDeviceCode
  | aborted
  | badHexDigit
  | noDevice
  | serialRxError
deriving DecidableEq, Repr

/-- R36: the output events. -/
inductive Event where
  | rxOverflow (b : Byte)
  | rxError
  | serialInit (rate : Nat)
deriving DecidableEq, Repr

/-- R74: what a port operation returns to its caller. -/
inductive PortResult where
  | ok
  | byte (v : Byte)
  | count (n : Nat)
  | err (e : ErrorCode)
deriving DecidableEq, Repr

/-- R37, R134: the model-only faults. -/
inductive ModelFault where
  /-- R100, R101: Dispatching popped an empty buffer, or a first byte other than the marker. -/
  | dispatchInvariant
deriving DecidableEq, Repr

/-! ## Bus -/

/-- The three bus transactions (R126, R127, R128). -/
inductive TxnKind where
  | latch
  | read
  | prog
deriving DecidableEq, Repr

/-- One transaction: the variant read once at its start (R125), its kind, address and data byte. -/
structure Txn where
  v : Variant
  kind : TxnKind
  a : Addr
  d : Byte
deriving DecidableEq, Repr

/-- R34, R124: the bus phase: idle, or the transaction, its current phase and that phase's start time. -/
inductive BPhase where
  | idle
  | active (t : Txn) (p : Phase) (t0 : Nat)
deriving DecidableEq, Repr

/-! ## Memory -/

/-- A byte store in canonical form: addresses strictly rising, no entry equal to what an unlisted address
reads as (`Memory.wf` in Machine/Ops.lean). The ring of R23 and the simulated device of R44 are such. -/
abbrev Memory := List Host.Cell

/-- The DEVICE agent (R44): the oracle, or the simulated device a test may put in its place. -/
inductive Device where
  | oracle
  | sim (m : Memory)
deriving DecidableEq, Repr

/-! ## The controller -/

/-- Sub-states of `$READ` and `$BLANK` (R113, R114); `bus` only at the signal level: the transaction of the
body is under way (R124). -/
inductive ScanSub where
  | entry
  | check
  | bus
deriving DecidableEq, Repr

/-- Sub-states of `$WRITE` (R113, R114, R117); `prog` and `verify` only at the signal level. -/
inductive WriteSub where
  | entry
  | check
  | w1
  | w2
  | prog
  | verify
deriving DecidableEq, Repr

/-- `Exec(op, sub)` of R29: the operation and the sub-state of its rule. -/
inductive Exec where
  | read (sub : ScanSub)
  | write (sub : WriteSub)
  | blank (sub : ScanSub)
  | ident
  | setdev
  | reset
  | baud
deriving DecidableEq, Repr

/-- R29: the controller state. -/
inductive DState where
  | idle
  | disp0
  | disp1
  | exec (e : Exec)
  | cleanup
deriving DecidableEq, Repr

/-- R9: the two modelling levels. -/
inductive ModelLevel where
  | transaction
  | signal
deriving DecidableEq, Repr

/-- What comes next, from outside the agents' own steps (R8, R136): a byte delivered to RX, a port request
issued by its caller, MAIN's turn, time passing on CLOCK (R142), or loss of power and power-on (R147). -/
inductive Input where
  | recv (b : Byte) (ok : Bool)
  | port (p : PortWord)
  | main
  | tick (dt : Nat)
  | power
deriving DecidableEq, Repr

/-! ## The state -/

/-- The session aggregate of R22 with the logs, the bus outputs, the agents around the block and the model's
own fields. -/
structure State where
  /-- The configuration of the run (R21); no step writes it. -/
  cfg : Config
  /-- The modelling level of the run (R9); no step writes it (model's own, log 5). -/
  level : ModelLevel
  /-- R23: the ring storage, `N` bytes at indices `0..N-1`; an unlisted index reads 0x00. -/
  ring : Memory
  /-- R24: index of the oldest unread byte. -/
  head : Index
  /-- R25: index of the most recently written byte. -/
  tail : Index
  /-- R26: the Flow-Control Signal; `true` asks the host to stop sending. -/
  stop : Bool
  /-- R27: the bytes-received statistic. -/
  rxCount : BitVec 32
  /-- R28: the Operation-Active Flag. -/
  opActive : Bool
  /-- R29: the controller state. -/
  dstate : DState
  /-- R30: the Device Descriptor register. -/
  desc : Option Variant
  /-- R31: the Address Counter. -/
  addr : Addr
  /-- R32: the first hex character of a pair. -/
  hiCh : Byte
  /-- R32: the decoded data byte. -/
  wdata : Byte
  /-- R34: the address lines. -/
  busA : Addr
  /-- R34: the value driven on the data lines while `busOE`. -/
  busD : Byte
  /-- R34: the block drives the data lines. -/
  busOE : Bool
  /-- R34: role LATCH is asserted. -/
  actLatch : Bool
  /-- R34: role ENABLE is asserted. -/
  actEnable : Bool
  /-- R34: role PROGRAM is asserted. -/
  actProgram : Bool
  /-- R34: the bus phase. -/
  bphase : BPhase
  /-- R35: the bytes sent to the host. -/
  txLog : Str
  /-- R36: the output events. -/
  evLog : List Event
  /-- R37: the model-only fault mark. -/
  mfault : Option ModelFault
  /-- R142: the CLOCK's time in microseconds. -/
  now : Nat
  /-- Who moves next, oldest first; when it is empty MAIN moves (model's own, log 6). -/
  inputs : List Input
  /-- MAIN's outstanding port requests, oldest first (model's own, log 7). -/
  held : List Instr
  /-- The answer to the last port request (R74; model's own, log 8). -/
  result : Option PortResult
  /-- The byte sampled by the last bus read (R121; model's own, log 9). -/
  busQ : Byte
  /-- The DEVICE agent (R44; model's own choice of agent, log 3). -/
  dev : Device
  /-- How many bytes the DEVICE oracle has given: the counter of the free value `Config.devRead` (model's
  own, log 2). -/
  draws : Nat
deriving DecidableEq, Repr

/-! ## Reasons a step ends without a next state -/

/-- The machine stops with a fault. -/
inductive Fault where
  /-- R37, R134: the state carries a model-only fault mark. Raised by `step`; safe (it errs toward unprovable,
  R16), and unreachable from reset by commands on the wire (R95). -/
  | modelFault (f : ModelFault)
deriving DecidableEq, Repr

/-- The request has no meaning. -/
inductive Refusal where
  /-- An instruction that has no meaning in this model yet. Raised by `exec`; safe. -/
  | notModelled (mnemonic : String)
  /-- R74, R75: a request word the decoder rejects. Raised by `step`; safe. -/
  | badRequest (r : Reject)
  /-- R74: a reserved FIFO select code. Raised by `execReservedFifoPort`; safe. -/
  | reservedFifoPort
  /-- R75: the reserved bus select code. Raised by `execReservedBusPort`; safe. -/
  | reservedBusPort
  /-- R76: descriptor code 0 or 3. Raised by `execReservedSelect0` and `execReservedSelect3`; safe. -/
  | reservedSelect
  /-- R125: a bus transaction with no descriptor selected, or at an address outside the device. Raised by the
  bus port operations and by engine steps in states no run reaches; safe. -/
  | busPrecondition
  /-- R98: a command asked to step while the controller is not at its dispatch and not in its `Exec` state, where
  the transition table has no step for it. Raised by the commands' meanings, never through `step`; safe. -/
  | commandNotDispatched
deriving DecidableEq, Repr

/-- The outcome of one step of this machine. -/
abbrev Result := Host.Outcome State Fault Refusal

/-! ## Reset -/

/-- R149: the state at power-on of a block with configuration `c`, at time `t`. -/
def State.powerOn (c : Config) (t : Nat) : State where
  cfg := c
  level := .transaction
  ring := []
  head := 0#10
  tail := 1023#10
  stop := false
  rxCount := 0#32
  opActive := false
  dstate := .idle
  desc := c.boot
  addr := 0#16
  hiCh := 0x00#8
  wdata := 0x00#8
  busA := 0x0000#16
  busD := 0x00#8
  busOE := false
  actLatch := false
  actEnable := false
  actProgram := false
  bphase := .idle
  txLog := []
  evLog := []
  mfault := none
  now := t
  inputs := []
  held := []
  result := none
  busQ := 0x00#8
  dev := .oracle
  draws := 0

/-- R148, R149: the machine right after reset. -/
def State.reset : State := State.powerOn Config.machine Config.nowAtReset

end Sys2Proof.Machine
end

