-- ==== Sys2Proof/Machine/Format.lean ====
section
/-! DEFINITION. Output formatting (R17) and the response lines that carry values (R66, R68). -/

namespace Sys2Proof.Machine

/-- R17: one uppercase hexadecimal digit. -/
def hexDigitU (n : BitVec 4) : Byte :=
  if n.toNat < 10 then BitVec.ofNat 8 (0x30 + n.toNat) else BitVec.ofNat 8 (0x41 + (n.toNat - 10))

/-- R17: one lowercase hexadecimal digit. -/
def hexDigitL (n : BitVec 4) : Byte :=
  if n.toNat < 10 then BitVec.ofNat 8 (0x30 + n.toNat) else BitVec.ofNat 8 (0x61 + (n.toNat - 10))

/-- R17: two uppercase digits, most significant first. -/
def hex2U (b : Byte) : Str := [hexDigitU (b.extractLsb' 4 4), hexDigitU (b.extractLsb' 0 4)]

/-- R17: two lowercase digits, most significant first. -/
def hex2L (b : Byte) : Str := [hexDigitL (b.extractLsb' 4 4), hexDigitL (b.extractLsb' 0 4)]

/-- R17: four uppercase digits, most significant first. -/
def hex4U (a : Addr) : Str := hex2U (a.extractLsb' 8 8) ++ hex2U (a.extractLsb' 0 8)

/-- R17: four lowercase digits, most significant first. -/
def hex4L (a : Addr) : Str := hex2L (a.extractLsb' 8 8) ++ hex2L (a.extractLsb' 0 8)

/-- R17, R68: `"0x" ++ hex4L(a) ++ " = 0x" ++ hex2L(b) ++ "\n"`. -/
def fmtAV (a : Addr) (b : Byte) : Str :=
  [0x30#8, 0x78#8] ++ hex4L a ++ [0x20#8, 0x3D#8, 0x20#8, 0x30#8, 0x78#8] ++ hex2L b ++ [Config.lf]

/-- R115: what the body of `$READ` emits for byte `d` at address `a` of a device of `size` bytes: the row
address at the start of a row, the byte, and the line feed at the end of a row or of the device. -/
def readChunk (size : Nat) (a : Addr) (d : Byte) : Str :=
  (if a.toNat % Config.ROW = 0 then hex4U a ++ [0x3A#8] else []) ++ ([0x20#8] ++ hex2U d)
    ++ (if a.toNat % Config.ROW = 15 ∨ a.toNat + 1 = size then [Config.lf] else [])

end Sys2Proof.Machine
end

