-- ==== Sys2Proof/Machine/Operands.lean ====
section
/-! DEFINITION. Operands: hex digits and payload pairs (R63, R64), the device code (R65), ring occupancy (R79)
and the bits of an address that reach the lines (R119). -/

namespace Sys2Proof.Machine

/-- R64: the value of a hex digit character of either case; every other byte has none. -/
def hexval (c : Byte) : Option Nat :=
  if 0x30 ≤ c.toNat ∧ c.toNat ≤ 0x39 then some (c.toNat - 0x30)
  else if 0x41 ≤ c.toNat ∧ c.toNat ≤ 0x46 then some (c.toNat - 0x41 + 10)
  else if 0x61 ≤ c.toNat ∧ c.toNat ≤ 0x66 then some (c.toNat - 0x61 + 10)
  else none

/-- R63: the data byte of a payload pair, `c0` the first character; none when either is no hex digit. -/
def payloadByte (o : NibbleOrder) (c0 c1 : Byte) : Option Byte :=
  match hexval c0, hexval c1 with
  | some x, some y =>
    match o with
    | .highFirst => some (BitVec.ofNat 8 (x * 16 + y))
    | .lowFirst => some (BitVec.ofNat 8 (y * 16 + x))
  | _, _ => none

/-- R65: the variant whose device code is `c`. -/
def variantOfCode (cfg : Config) (c : Byte) : Option Variant :=
  if c = cfg.descA.devCode then some .A
  else if c = cfg.descB.devCode then some .B
  else none

/-- R62: how many bytes the command with opcode byte `op` has on the wire, envelope included, for a device of `size`
bytes. -/
def commandLength (size : Nat) (op : Byte) : Nat :=
  if op = 0x32#8 then 2 + 2 * size
  else if op = 0x35#8 then 3
  else 2

/-- R30: the 2-bit field of the descriptor register, `none` 0, A 1, B 2 (D2); no rule reads it as a number. -/
def descriptorField : Option Variant → BitVec 2
  | none => 0#2
  | some .A => 1#2
  | some .B => 2#2

/-- R79: `occ = (tail - head + 1) mod N`, in `0..N-1`. -/
def occupancy (head tail : Index) : Nat := (tail - head + 1#10).toNat

/-- R119: the bits `aw-1..0` of an address, the other lines driven 0. -/
def addressLines (aw : Nat) (a : Addr) : Addr := BitVec.ofNat 16 (a.toNat % 2 ^ aw)

/-- R79: the occupancy of the state's ring. -/
def State.occ (s : State) : Nat := occupancy s.head s.tail

/-- R79: the buffer is full when advancing `tail` twice would reach `head`. -/
def State.full (s : State) : Bool := s.tail + 2#10 == s.head

/-- The descriptor of the selected variant, if one is selected (R30, R107). -/
def State.descriptor (s : State) : Option Descriptor := s.desc.map s.cfg.descriptor

end Sys2Proof.Machine
end

