-- ==== Sys2Proof/Machine/Flags.lean ====
section
/-! DEFINITION. The flow-control evaluation (R80) and the outputs that are functions of the state: the
flow-control line (R26), the indicator (R33), the control pins (R120, R129), the serial interrupt (R135). -/

namespace Sys2Proof.Machine

/-- R80: `FCEVAL(o)` on the signal's present value. -/
def fcEval (o : Nat) (stop : Bool) : Bool :=
  if o > Config.HWM then true else if o < Config.LWM then false else stop

/-- R81: evaluate flow control with the state's occupancy. -/
def State.flowControl (s : State) : State := { s with stop := fcEval s.occ s.stop }

/-- R26: the electrical level of the flow-control line. -/
def State.flowLine (s : State) : Volt := if s.stop then s.cfg.fcLevel else s.cfg.fcLevel.other

/-- R33: the status indicator's values. -/
inductive Indicator where
  | idleInd
  | busyInd
  | waitInd
deriving DecidableEq, Repr

/-- Whether MAIN is at a `POPW` (R33): in `$SETDEV`, in step W1 or W2 of `$WRITE`, or with a `POPW` port request the
first of its outstanding ones. DESIGN CHOICE (log 27), unsafe with a port request outstanding, else safe: R33 does
not say when MAIN is at a port request's `POPW`; the model says so whatever `dstate` is, and also while a bus
transaction runs before it. -/
def State.atPopw (s : State) : Bool :=
  match s.held with
  | .popw :: _ => true
  | _ =>
    match s.dstate with
    | .exec .setdev => true
    | .exec (.write .w1) => true
    | .exec (.write .w2) => true
    | _ => false

/-- R86: the enabling condition of `POPW`. -/
def State.popwEnabled (s : State) : Bool := decide (0 < s.occ) || !s.opActive

/-- R33: the indicator, a function of the state. DESIGN CHOICE (log 27), unsafe with a port request outstanding,
else safe: where the clauses of R33 for `WaitInd` and for `IdleInd` both apply, a `POPW` port request that has no
step while `dstate = Idle`, the wait is shown. -/
def State.ind (s : State) : Indicator :=
  if s.atPopw && !s.popwEnabled then .waitInd else if s.dstate = .idle then .idleInd else .busyInd

/-- R34: whether role `r` is asserted. -/
def State.act (s : State) : Role → Bool
  | .latch => s.actLatch
  | .enable => s.actEnable
  | .program => s.actProgram

/-- The role asserted on pin `p` of a variant with roles `t`, if one is (R120). -/
def State.roleOn (s : State) (t : Roles) (p : Nat) : Option Role :=
  [Role.latch, Role.enable, Role.program].find? (fun r => s.act r && decide ((t.of r).pin = p))

/-- R120, R129: the level of control pin `p`: the active level of an asserted role on it, else its idle level;
any value while no variant is selected (I-5); none for a number that is no pin. -/
def State.pinLevel (s : State) (p : Nat) : Option Volt :=
  match s.descriptor with
  | none => if p < s.cfg.nPins then some (Config.unselectedPin p) else none
  | some d =>
    match s.roleOn d.role p with
    | some r => some (d.role.of r).level
    | none => d.idle[p]?

/-- R34: what the block drives on the data lines, nothing while they are released. -/
def State.dataLines (s : State) : Option Byte := if s.busOE then some s.busD else none

/-- R135: the serial interrupt is pending: a byte waits for RX. It is never masked between two steps (R53). -/
def State.serialPending (s : State) : Bool :=
  match s.inputs with
  | .recv _ _ :: _ => true
  | _ => false

/-- R132: the numbers of the error codes. -/
def ErrorCode.number : ErrorCode → Nat
  | .bufferOverflow => 1
  | .bufferUnderflow => 2
  | .verifyMismatch => 3
  | .blankMismatch => 4
  | .unknownOpcode => 5
  | .unknownDeviceCode => 6
  | .aborted => 7
  | .badHexDigit => 8
  | .noDevice => 9
  | .serialRxError => 10

/-- R132, R131: how an error reaches the host: the response line of a command's error, with the address and
byte it records; a port or receive error has none. -/
def ErrorCode.line (a : Addr) (b : Byte) : ErrorCode → Option Str
  | .bufferOverflow => none
  | .bufferUnderflow => none
  | .verifyMismatch => some (fmtAV a b)
  | .blankMismatch => some (fmtAV a b)
  | .unknownOpcode => some Config.unknownLine
  | .unknownDeviceCode => some Config.setDevFailLine
  | .aborted => some Config.abortLine
  | .badHexDigit => some Config.badHexLine
  | .noDevice => some Config.noDeviceLine
  | .serialRxError => none

end Sys2Proof.Machine
end

