-- ==== Sys2Proof/Machine/Ops.lean ====
section
/-! DEFINITION. The shared operations: byte stores in canonical form, the output primitives of R16, the FIFO
port operations and the recognizer as operations on the state (R84 to R92), the report of an error and the
return from it (R131, R103), and the DEVICE agent (R44). -/

namespace Sys2Proof.Machine

/-! ## Byte stores -/

/-- The byte at address `a`; an unlisted address reads as `dflt`. -/
def Memory.read (dflt : Byte) : Memory → Nat → Byte
  | [], _ => dflt
  | (k, b) :: m, a => if k = a then b else Memory.read dflt m a

/-- The store without an entry for `a`. -/
def Memory.erase : Memory → Nat → Memory
  | [], _ => []
  | (k, b) :: m, a => if k = a then m else (k, b) :: Memory.erase m a

/-- The store with the entry `(a, v)`, in address order. -/
def Memory.insert : Memory → Nat → Byte → Memory
  | [], a, v => [(a, v)]
  | (k, b) :: m, a, v =>
    if a < k then (a, v) :: (k, b) :: m
    else if a = k then (a, v) :: m
    else (k, b) :: Memory.insert m a v

/-- Write one byte and keep the canonical form: writing what an unlisted address reads as removes the entry. -/
def Memory.write (dflt : Byte) (m : Memory) (a : Nat) (v : Byte) : Memory :=
  if v = dflt then Memory.erase m a else Memory.insert m a v

/-- Entries strictly rising from `lo` on, none equal to `dflt`. -/
def Memory.wfFrom (dflt : Byte) : Nat → Memory → Bool
  | _, [] => true
  | lo, (k, b) :: m => decide (lo ≤ k) && b != dflt && Memory.wfFrom dflt (k + 1) m

/-- The canonical form. -/
def Memory.wf (dflt : Byte) (m : Memory) : Bool := Memory.wfFrom dflt 0 m

/-- Every listed address lies below `n`. -/
def Memory.below (n : Nat) (m : Memory) : Bool := m.all (fun c => decide (c.1 < n))

/-- R23: an unlisted ring index reads 0x00, the reset and cleared value. -/
def State.ringAt (s : State) (i : Index) : Byte := Memory.read 0x00#8 s.ring i.toNat

/-! ## Output primitives (R16) -/

/-- R16, R35: append to the transmit stream. -/
def State.emit (str : Str) (s : State) : State := { s with txLog := s.txLog ++ str }

/-- R16, R36: record an output event. -/
def State.event (e : Event) (s : State) : State := { s with evLog := s.evLog ++ [e] }

/-- R16: set the controller state. -/
def State.goto (d : DState) (s : State) : State := { s with dstate := d }

/-- R16, R37: set the model-only fault mark; a mark that is set stays. -/
def State.recordFault (f : ModelFault) (s : State) : State :=
  { s with mfault := some (s.mfault.getD f) }

/-- R74: give a port operation's result to its caller. -/
def State.answer (r : PortResult) (s : State) : State := { s with result := some r }

/-- R16 `hold`: MAIN stays at port request `i`, which has no step now. -/
def State.wait (i : Instr) (s : State) : State := { s with held := i :: s.held }

/-! ## Taking an error and returning from it -/

/-- R131, R132: a command's error ends it: its response line, if it has one, goes to the host, with the Address
Counter and the recorded byte `b`, and the controller goes to Cleanup. -/
def State.report (e : ErrorCode) (b : Byte) (s : State) : State :=
  (s.emit ((e.line s.addr b).getD [])).goto .cleanup

/-- A command's normal end: its last output, then Cleanup (R102). -/
def State.finish (str : Str) (s : State) : State := (s.emit str).goto .cleanup

/-! ## FIFO port operations -/

/-- What an operation that may fail returns, with the state after it. -/
abbrev Answer (α : Type) := Except ErrorCode α × State

/-- R84. -/
def State.push (b : Byte) (s : State) : Answer Unit :=
  if s.full then (.error .bufferOverflow, s)
  else
    let t := s.tail + 1#10
    (.ok (), { s with tail := t, ring := Memory.write 0x00#8 s.ring t.toNat b,
                      rxCount := s.rxCount + 1#32 }.flowControl)

/-- The removal of the oldest byte, of a buffer that is not empty (R85, R86). -/
def State.take (s : State) : Answer Byte :=
  (.ok (s.ringAt s.head), { s with head := s.head + 1#10 }.flowControl)

/-- R85. -/
def State.pop (s : State) : Answer Byte :=
  if s.occ = 0 then (.error .bufferUnderflow, s) else s.take

/-- R86: none while the operation holds. -/
def State.popw (s : State) : Option (Answer Byte) :=
  if s.opActive = false then some (.error .aborted, s)
  else if s.occ = 0 then none
  else some s.take

/-- R87: the answer; nothing changes. -/
def State.peek (s : State) : Except ErrorCode Byte :=
  if s.occ = 0 then .error .bufferUnderflow else .ok (s.ringAt s.head)

/-- R89. -/
def State.clear (s : State) : State :=
  { s with head := 0#10, tail := BitVec.ofNat 10 (Config.N - 1), ring := [],
           opActive := false }.flowControl

/-- R92. -/
def State.recognize (s : State) : State :=
  if s.ringAt s.head = Config.MARKER ∧ 1 < s.occ then { s with opActive := true } else s

/-- R83: the receive path. -/
def State.receive (b : Byte) (ok : Bool) (s : State) : State :=
  if ok = false then s.event .rxError
  else if b = s.cfg.cancelChar then { s with opActive := false }
  else
    match s.push b with
    | (.error _, s') => s'.event (.rxOverflow b)
    | (.ok _, s') => s'.recognize

/-- R103: the Cleanup step. -/
def State.cleanup (s : State) : State := s.clear.goto .idle

/-- R109: the descriptor is replaced in one write. -/
def State.select (v : Variant) (s : State) : State := { s with desc := some v }

/-- R74: the result word of an answer with a byte. -/
def PortResult.ofByte : Except ErrorCode Byte → PortResult
  | .ok v => .byte v
  | .error e => .err e

/-- R74: the result word of an answer without a value. -/
def PortResult.ofUnit : Except ErrorCode Unit → PortResult
  | .ok _ => .ok
  | .error e => .err e

/-! ## The DEVICE agent -/

/-- R44: the byte the device drives for a read of `a`: the oracle's next byte, or the simulated device's. -/
def State.deviceByte (a : Addr) (s : State) : Byte :=
  match s.dev with
  | .oracle => Config.devRead s.draws a
  | .sim m => Memory.read Config.ERASED m a.toNat

/-- R44: the sample `d <- DevRead(a)`. -/
def State.sample (a : Addr) (s : State) : State :=
  match s.dev with
  | .oracle => { s with busQ := s.deviceByte a, draws := s.draws + 1 }
  | .sim _ => { s with busQ := s.deviceByte a }

/-- R44: what a program pulse does to the device: nothing the block knows of; the simulated device stores. -/
def Device.pulse (a : Addr) (d : Byte) : Device → Device
  | .oracle => .oracle
  | .sim m => .sim (Memory.write Config.ERASED m a.toNat d)

/-! ## Power -/

/-- R147, R148: power is lost and comes back: every element of the block takes its reset value; the
configuration and level of the run, the CLOCK, the DEVICE and what the outside does next are not the block's. -/
def State.powerCycle (s : State) : State :=
  { State.powerOn s.cfg s.now with
    level := s.level, inputs := s.inputs, dev := s.dev, draws := s.draws }

end Sys2Proof.Machine
end

