-- ==== Sys2Proof/Machine/BusSequencer.lean ====
section
/-! DEFINITION. The Bus Sequencer (45_bus_sequencer.md): its pure sequence function (R121, R123), the
transaction level as the whole sequence in one step (R126 to R128), and the signal level, a phase at a time
with minimum hold times (R122, R124). -/

namespace Sys2Proof.Machine

/-- The actions a phase performs at its start (R121). -/
inductive BusAction where
  /-- Drive the address lines. -/
  | address (lines : Addr)
  /-- Drive a byte on the data lines. -/
  | drive (d : Byte)
  /-- Release the data lines to the device. -/
  | release
  /-- Assert or deassert a control role. -/
  | role (r : Role) (on : Bool)
  /-- Sample the data lines. -/
  | sample
deriving DecidableEq, Repr

/-- One element of `seq(v, txn, a, d)` (R123). -/
structure PhaseStep where
  phase : Phase
  actions : List BusAction
  hold : Nat
deriving DecidableEq, Repr

/-- The part of ADDR_SETUP that concerns the data lines (R121). -/
def Txn.dataSetup (t : Txn) : List BusAction :=
  match t.kind with
  | .latch => [.release]
  | .read => [.release]
  | .prog => [.drive t.d]

/-- The phases of the address latch pulse, common to all transactions (R126). -/
def latchPhases (d : Descriptor) (t : Txn) : List PhaseStep :=
  [⟨.addrSetup, .address (addressLines d.aw t.a) :: t.dataSetup, d.hold.of .addrSetup⟩,
    ⟨.latchAssert, [.role .latch true], d.hold.of .latchAssert⟩,
    ⟨.latchDeassert, [.role .latch false], d.hold.of .latchDeassert⟩]

/-- R123: the sequence of a transaction, a pure function of the variant's descriptor and the transaction (R126,
R127, R128). -/
def seq (d : Descriptor) (t : Txn) : List PhaseStep :=
  match t.kind with
  | .latch => latchPhases d t
  | .read =>
    latchPhases d t ++
      [⟨.enAssert, [.release, .role .enable true], d.hold.of .enAssert⟩,
        ⟨.enDeassert, [.sample, .role .enable false], d.hold.of .enDeassert⟩]
  | .prog =>
    latchPhases d t ++
      [⟨.pgmAssert, [.role .program true], d.hold.of .pgmAssert⟩,
        ⟨.pgmDeassert, [.role .program false], d.hold.of .pgmDeassert⟩]

/-- R121, R128: the action at the end of the last phase's hold. -/
def endActions (t : Txn) : List BusAction :=
  match t.kind with
  | .latch => []
  | .read => []
  | .prog => [.release]

/-- Perform one action of transaction `t` (R121). The end of a program pulse is where the simulated device of
R44 stores the byte. -/
def perform (t : Txn) (s : State) : BusAction → State
  | .address lines => { s with busA := lines }
  | .drive d => { s with busD := d, busOE := true }
  | .release => { s with busOE := false }
  | .role .latch on => { s with actLatch := on }
  | .role .enable on => { s with actEnable := on }
  | .role .program true => { s with actProgram := true }
  | .role .program false => { s with actProgram := false, dev := s.dev.pulse t.a t.d }
  | .sample => s.sample t.a

/-- Perform a list of actions in order. -/
def performAll (t : Txn) (as : List BusAction) (s : State) : State := as.foldl (perform t) s

/-- The descriptor of the variant that the transaction read at its start (R125). -/
def Txn.descriptor (t : Txn) (s : State) : Descriptor := s.cfg.descriptor t.v

/-- R125: the transaction a request starts: some variant is selected and the address is the device's. -/
def State.txn (kind : TxnKind) (a : Addr) (d : Byte) (s : State) : Option Txn :=
  match s.desc with
  | none => none
  | some v => if (s.cfg.descriptor v).hasAddr a then some ⟨v, kind, a, d⟩ else none

/-- The transaction level (R9): every phase and the end action in one step. -/
def runTxn (t : Txn) (s : State) : State :=
  performAll t (endActions t)
    ((seq (t.descriptor s) t).foldl (fun s ph => performAll t ph.actions s) s)

/-- R124: from `BIdle`, the action of the first phase, at the present time. -/
def beginTxn (t : Txn) (s : State) : State :=
  match seq (t.descriptor s) t with
  | [] => s
  | ph :: _ => { performAll t ph.actions s with bphase := .active t ph.phase s.now }

/-- The phases after phase `p` in a sequence. -/
def phasesAfter (p : Phase) : List PhaseStep → List PhaseStep
  | [] => []
  | ph :: rest => if ph.phase = p then rest else phasesAfter p rest

/-- Whether the controller waits for a transaction it issued (signal level, R124). -/
def DState.onBus : DState → Bool
  | .exec (.read .bus) => true
  | .exec (.blank .bus) => true
  | .exec (.write .prog) => true
  | .exec (.write .verify) => true
  | _ => false

/-- What a finished transaction returns (R126, R127, R128). -/
def Txn.answer (t : Txn) (q : Byte) : PortResult :=
  match t.kind with
  | .latch => .ok
  | .read => .byte q
  | .prog => .ok

/-- R124: the transaction is over and returns its value to MAIN: the controller finds it in `busQ`, a port
request's caller in `result`. -/
def endTxn (t : Txn) (s : State) : State :=
  let s' := { performAll t (endActions t) s with bphase := .idle }
  if s'.dstate.onBus then s' else s'.answer (t.answer s'.busQ)

/-- R124: a step of the bus state machine from `(t, p, t0)`: nothing before the hold of phase `p` has elapsed
(R122), then the next phase, or the end after the last. -/
def advanceTxn (t : Txn) (p : Phase) (t0 : Nat) (s : State) : State :=
  if s.now < t0 + (t.descriptor s).hold.of p then s
  else
    match phasesAfter p (seq (t.descriptor s) t) with
    | [] => endTxn t s
    | ph :: _ => { performAll t ph.actions s with bphase := .active t ph.phase s.now }

/-- A bus transaction issued by the engine: refused when its precondition fails (R125); held while the bus is
busy; at the transaction level it runs whole and `k` continues with the sampled byte; at the signal level it
begins, and the controller waits for it in `waiting`. -/
def engineBus (kind : TxnKind) (d : Byte) (waiting : DState) (k : Byte → State → Result) (s : State) : Result :=
  match s.txn kind s.addr d with
  | none => .refused .busPrecondition
  | some t =>
    match s.bphase with
    | .active _ _ _ => .next s
    | .idle =>
      match s.level with
      | .transaction => k (runTxn t s).busQ (runTxn t s)
      | .signal => .next ((beginTxn t s).goto waiting)

/-- The continuation of an engine step whose transaction is over (signal level). -/
def afterBus (k : Byte → State → Result) (s : State) : Result :=
  match s.bphase with
  | .active _ _ _ => .next s
  | .idle => k s.busQ s

/-- A bus transaction issued on the bus port, by request `i`: as for the engine, its answer in `result`. -/
def portBus (i : Instr) (kind : TxnKind) (a : Addr) (d : Byte) (s : State) : Result :=
  match s.txn kind a d with
  | none => .refused .busPrecondition
  | some t =>
    match s.bphase with
    | .active _ _ _ => .next (s.wait i)
    | .idle =>
      match s.level with
      | .transaction => .next ((runTxn t s).answer (t.answer (runTxn t s).busQ))
      | .signal => .next (beginTxn t s)

end Sys2Proof.Machine
end

