-- ==== Sys2Proof/Machine/Fifo.lean ====
section
/-! DEFINITION. The FIFO port (40_receive_fifo.md section 3): the meanings of its six operations and of its
reserved words. The answer goes to `result` (R74). -/

namespace Sys2Proof.Machine

/-- R84 `PUSH b`. -/
def execPush (b : Byte) (s : State) : Result :=
  let (r, s') := s.push b
  .next (s'.answer (PortResult.ofUnit r))

/-- R85 `POP`. -/
def execPop (s : State) : Result :=
  let (r, s') := s.pop
  .next (s'.answer (PortResult.ofByte r))

/-- R86 `POPW`: held, the request stays MAIN's oldest outstanding one. -/
def execPopw (s : State) : Result :=
  match s.popw with
  | none => .next (s.wait .popw)
  | some (r, s') => .next (s'.answer (PortResult.ofByte r))

/-- R87 `PEEK`. -/
def execPeek (s : State) : Result := .next (s.answer (PortResult.ofByte s.peek))

/-- R88 `SIZE`. -/
def execSize (s : State) : Result := .next (s.flowControl.answer (.count s.occ))

/-- R89 `CLEAR`. -/
def execClear (s : State) : Result := .next (s.clear.answer .ok)

/-- R74: select codes 110 and 111 are refused, whatever the word's data field. -/
def execReservedFifoPort (_sel : BitVec 3) (_data : Byte) (_s : State) : Result := .refused .reservedFifoPort

end Sys2Proof.Machine
end

