-- ==== Sys2Proof/Machine/Receive.lean ====
section
/-! DEFINITION. The receive path: the RX agent's step (R83) and the Command Recognizer (R92). -/

namespace Sys2Proof.Machine

/-- R83 `RECV(b, ok)`. -/
def execRecv (b : Byte) (ok : Bool) (s : State) : Result := .next (s.receive b ok)

/-- R92 `RECOGNIZE`. -/
def execRecognize (s : State) : Result := .next s.recognize

end Sys2Proof.Machine
end

