-- ==== Sys2Proof/Machine/BusPort.lean ====
section
/-! DEFINITION. The bus port (R126, R127, R128) and the descriptor port (R109), with their reserved words
(R75, R76). -/

namespace Sys2Proof.Machine

/-- R126 `BUS.LATCH a`. -/
def execBusLatch (a : Addr) (s : State) : Result := portBus (.busLatch a) .latch a 0x00#8 s

/-- R127 `BUS.READ a`. -/
def execBusRead (a : Addr) (s : State) : Result := portBus (.busRead a) .read a 0x00#8 s

/-- R128 `BUS.PROG a, d`. -/
def execBusProg (a : Addr) (d : Byte) (s : State) : Result := portBus (.busProg a d) .prog a d s

/-- R75: select code 11 is refused, whatever the word's other fields. -/
def execReservedBusPort (_a : Addr) (_d : Byte) (_s : State) : Result := .refused .reservedBusPort

/-- R109 `SELECT A`. -/
def execSelectA (s : State) : Result := .next ((s.select .A).answer .ok)

/-- R109 `SELECT B`. -/
def execSelectB (s : State) : Result := .next ((s.select .B).answer .ok)

/-- R76: descriptor code 0 is refused. -/
def execReservedSelect0 (_s : State) : Result := .refused .reservedSelect

/-- R76: descriptor code 3 is refused. -/
def execReservedSelect3 (_s : State) : Result := .refused .reservedSelect

end Sys2Proof.Machine
end

