-- ==== Sys2Proof/Machine/Commands.lean ====
section
/-! DEFINITION. The commands without an iteration: unknown opcodes (R101), `$RESET` (R104), `$BAUD` (R105),
`$SETDEV` (R110), `$IDENT` (R111). At `Disp1`, its opcode popped, a command is dispatched to its entry (R101);
in its `Exec` state it takes the next sub-step of its rule (R102); elsewhere it has no step (R98). -/

namespace Sys2Proof.Machine

/-- R101, other: `emit(unknownLine)` and Cleanup, without executing anything. -/
def execUnknownOpcode (_op : Byte) (s : State) : Result :=
  match s.dstate with
  | .disp1 => .next (s.report .unknownOpcode 0x00#8)
  | _ => .refused .commandNotDispatched

/-- R104 `$RESET`. -/
def execReset (s : State) : Result :=
  match s.dstate with
  | .disp1 => .next (s.goto (.exec .reset))
  | .exec .reset => .next (s.goto .cleanup)
  | _ => .refused .commandNotDispatched

/-- R105 `$BAUD`. -/
def execBaud (s : State) : Result :=
  match s.dstate with
  | .disp1 => .next (s.goto (.exec .baud))
  | .exec .baud => .next ((s.event (.serialInit 0)).goto .cleanup)
  | _ => .refused .commandNotDispatched

/-- R110: what `$SETDEV` does with the popped code byte. -/
def setDevice (c : Byte) (s : State) : State :=
  match variantOfCode s.cfg c with
  | some v => (s.select v).finish Config.okLine
  | none => s.report .unknownDeviceCode c

/-- R110 `$SETDEV`. -/
def execSetdev (s : State) : Result :=
  match s.dstate with
  | .disp1 => .next (s.goto (.exec .setdev))
  | .exec .setdev =>
    match s.popw with
    | none => .next s
    | some (.error e, s') => .next (s'.report e 0x00#8)
    | some (.ok c, s') => .next (setDevice c s')
  | _ => .refused .commandNotDispatched

/-- R111 `$IDENT`. -/
def execIdent (s : State) : Result :=
  match s.dstate with
  | .disp1 => .next (s.goto (.exec .ident))
  | .exec .ident => .next (s.finish (s.cfg.identLine s.desc))
  | _ => .refused .commandNotDispatched

end Sys2Proof.Machine
end

