-- ==== Sys2Proof/Machine/Engine.lean ====
section
/-! DEFINITION. The programming engine (44_programming_engine.md): `$READ`, `$BLANK`, `$WRITE`, each call one
sub-step. -/

namespace Sys2Proof.Machine

/-- R113: the entry of the three commands, going on to `check`. -/
def engineEntry (check : DState) (s : State) : State :=
  match s.desc with
  | none => s.report .noDevice 0x00#8
  | some _ => { s with addr := 0#16 }.goto check

/-- R114 `NEXT(op)`: after the last address the command's last output and Cleanup, else the next address. -/
def engineNext (check : DState) (last : Str) (s : State) : Result :=
  match s.descriptor with
  | none => .refused .busPrecondition
  | some d =>
    if s.addr.toNat + 1 = d.size then .next (s.finish last)
    else .next ({ s with addr := s.addr + 1#16 }.goto check)

/-- R115 `BODY(READ, a)` once the byte is read. -/
def readBody (d : Byte) (s : State) : Result :=
  match s.descriptor with
  | none => .refused .busPrecondition
  | some v => engineNext (.exec (.read .check)) [] (s.emit (readChunk v.size s.addr d))

/-- R115 `ABORT(READ)`: the open row is closed first. -/
def readAbort (s : State) : State :=
  (s.emit (if s.addr.toNat % Config.ROW = 0 then [] else [Config.lf])).report .aborted 0x00#8

/-- R115 `$READ`. -/
def execRead (s : State) : Result :=
  match s.dstate with
  | .disp1 => .next (s.goto (.exec (.read .entry)))
  | .exec (.read .entry) => .next (engineEntry (.exec (.read .check)) s)
  | .exec (.read .check) =>
    if s.opActive = false then .next (readAbort s)
    else engineBus .read 0x00#8 (.exec (.read .bus)) readBody s
  | .exec (.read .bus) => afterBus readBody s
  | _ => .refused .commandNotDispatched

/-- R116 `BODY(BLANK, a)` once the byte is read. -/
def blankBody (d : Byte) (s : State) : Result :=
  if d ≠ Config.ERASED then .next (s.report .blankMismatch d)
  else engineNext (.exec (.blank .check)) Config.okLine s

/-- R116 `$BLANK`. -/
def execBlank (s : State) : Result :=
  match s.dstate with
  | .disp1 => .next (s.goto (.exec (.blank .entry)))
  | .exec (.blank .entry) => .next (engineEntry (.exec (.blank .check)) s)
  | .exec (.blank .check) =>
    if s.opActive = false then .next (s.report .aborted 0x00#8)
    else engineBus .read 0x00#8 (.exec (.blank .bus)) blankBody s
  | .exec (.blank .bus) => afterBus blankBody s
  | _ => .refused .commandNotDispatched

/-- R117, the end of step W2: the read-back byte is compared with the programmed one. -/
def writeCompare (rb : Byte) (s : State) : Result :=
  if rb ≠ s.wdata then .next (s.report .verifyMismatch rb)
  else engineNext (.exec (.write .check)) Config.okLine s

/-- R117, step W2: the verify read. -/
def writeVerify (s : State) : Result := engineBus .read 0x00#8 (.exec (.write .verify)) writeCompare s

/-- R117, step W1. -/
def writeW1 (s : State) : Result :=
  match s.popw with
  | none => .next s
  | some (.error e, s') => .next (s'.report e 0x00#8)
  | some (.ok c, s') => .next ({ s' with hiCh := c }.goto (.exec (.write .w2)))

/-- R117, step W2 from the popped second character on. -/
def writeProgram (c : Byte) (s : State) : Result :=
  match payloadByte Config.nibbleOrder s.hiCh c with
  | none => .next (s.report .badHexDigit c)
  | some d =>
    engineBus .prog d (.exec (.write .prog)) (fun _ => writeVerify) { s with wdata := d }

/-- R117, step W2. -/
def writeW2 (s : State) : Result :=
  match s.popw with
  | none => .next s
  | some (.error e, s') => .next (s'.report e 0x00#8)
  | some (.ok c, s') => writeProgram c s'

/-- R117 `$WRITE`. -/
def execWrite (s : State) : Result :=
  match s.dstate with
  | .disp1 => .next (s.goto (.exec (.write .entry)))
  | .exec (.write .entry) => .next (engineEntry (.exec (.write .check)) s)
  | .exec (.write .check) =>
    if s.opActive = false then .next (s.report .aborted 0x00#8)
    else .next (s.goto (.exec (.write .w1)))
  | .exec (.write .w1) => writeW1 s
  | .exec (.write .w2) =>
    match s.bphase with
    | .active _ _ _ => .next s
    | .idle => writeW2 s
  | .exec (.write .prog) => afterBus (fun _ => writeVerify) s
  | .exec (.write .verify) => afterBus writeCompare s
  | _ => .refused .commandNotDispatched

end Sys2Proof.Machine
end

