-- ==== Sys2Proof/Machine/Dispatch.lean ====
section
/-! DEFINITION. Dispatch: the meaning of every instruction, one arm per constructor. -/

namespace Sys2Proof.Machine

def exec (i : Instr) (s : State) : Host.Outcome State Fault Refusal :=
  match i with
  | .read => Sys2Proof.Machine.execRead s
  | .write => Sys2Proof.Machine.execWrite s
  | .blank => Sys2Proof.Machine.execBlank s
  | .ident => Sys2Proof.Machine.execIdent s
  | .setdev => Sys2Proof.Machine.execSetdev s
  | .reset => Sys2Proof.Machine.execReset s
  | .baud => Sys2Proof.Machine.execBaud s
  | .unknownOpcode op => Sys2Proof.Machine.execUnknownOpcode op s
  | .push b => Sys2Proof.Machine.execPush b s
  | .pop => Sys2Proof.Machine.execPop s
  | .popw => Sys2Proof.Machine.execPopw s
  | .peek => Sys2Proof.Machine.execPeek s
  | .size => Sys2Proof.Machine.execSize s
  | .clear => Sys2Proof.Machine.execClear s
  | .reservedFifoPort sel data => Sys2Proof.Machine.execReservedFifoPort sel data s
  | .busLatch a => Sys2Proof.Machine.execBusLatch a s
  | .busRead a => Sys2Proof.Machine.execBusRead a s
  | .busProg a d => Sys2Proof.Machine.execBusProg a d s
  | .reservedBusPort a d => Sys2Proof.Machine.execReservedBusPort a d s
  | .selectA => Sys2Proof.Machine.execSelectA s
  | .selectB => Sys2Proof.Machine.execSelectB s
  | .reservedSelect0 => Sys2Proof.Machine.execReservedSelect0 s
  | .reservedSelect3 => Sys2Proof.Machine.execReservedSelect3 s
  | .recv b ok => Sys2Proof.Machine.execRecv b ok s
  | .recognize => Sys2Proof.Machine.execRecognize s

end Sys2Proof.Machine
end

