-- ==== Sys2Proof/Machine/Controller.lean ====
section
/-! DEFINITION. The controller: MAIN's steps (R97 to R103), the issue of port requests, and the fetch of what
comes next. -/

namespace Sys2Proof.Machine

/-- The command whose sub-steps an `Exec` state runs (R29). -/
def Exec.instr : Exec → Instr
  | .read _ => .read
  | .write _ => .write
  | .blank _ => .blank
  | .ident => .ident
  | .setdev => .setdev
  | .reset => .reset
  | .baud => .baud

/-- R100: the first pop of Dispatching; anything but the marker is the model-only fault. -/
def dispatchMarker (s : State) : State :=
  match s.pop with
  | (.ok b, s') => if b = Config.MARKER then s'.goto .disp1 else s'.recordFault .dispatchInvariant
  | (.error _, s') => s'.recordFault .dispatchInvariant

/-- R101: the second pop of Dispatching, and the dispatch of the command that the opcode byte decodes to. -/
def dispatchOpcode (s : State) : Result :=
  match s.pop with
  | (.ok op, s') => exec (decodeOpcode op) s'
  | (.error _, s') => .next (s'.recordFault .dispatchInvariant)

/-- R98: one step of the controller. -/
def controllerStep (s : State) : Result :=
  match s.dstate with
  | .idle => if s.opActive then .next (s.goto .disp0) else .next s
  | .disp0 => .next (dispatchMarker s)
  | .disp1 => dispatchOpcode s
  | .exec e => exec e.instr s
  | .cleanup => .next s.cleanup

/-- MAIN's turn: the transaction under way goes on (R124); else the controller's own step that waited for it; else
MAIN's oldest outstanding port request; else the controller. -/
def mainTurn (s : State) : Result :=
  match s.bphase with
  | .active t p t0 => .next (advanceTxn t p t0 s)
  | .idle =>
    if s.dstate.onBus then controllerStep s
    else
      match s.held with
      | i :: rest => exec i { s with held := rest }
      | [] => controllerStep s

/-- Whether MAIN cannot take a new port request now: it is inside a transaction or at an outstanding request. -/
def State.mainBusy (s : State) : Bool :=
  s.bphase != .idle || s.dstate.onBus || s.held != []

/-- R74, R75, R76: the port operations that MAIN issues. -/
def issuedByMain : Instr → Bool
  | .pop => true
  | .popw => true
  | .peek => true
  | .size => true
  | .clear => true
  | .busLatch _ => true
  | .busRead _ => true
  | .busProg _ _ => true
  | .selectA => true
  | .selectB => true
  | .push _ => false
  | .reservedFifoPort _ _ => false
  | .reservedBusPort _ _ => false
  | .reservedSelect0 => false
  | .reservedSelect3 => false
  | .recv _ _ => false
  | .recognize => false
  | .read => false
  | .write => false
  | .blank => false
  | .ident => false
  | .setdev => false
  | .reset => false
  | .baud => false
  | .unknownOpcode _ => false

/-- A request is issued on its port: run at once, or, MAIN's own while MAIN is busy, after its earlier ones. -/
def issue (i : Instr) (s : State) : Result :=
  if issuedByMain i && s.mainBusy then .next { s with held := s.held ++ [i] } else exec i s

/-- A port word: decoded and issued, or rejected by name (R74, R75). -/
def portStep (p : PortWord) (s : State) : Result :=
  match decodePort p with
  | .ok i => issue i s
  | .error r => .refused (.badRequest r)

/-- One input taken: the agent it names makes its step. -/
def inputStep (i : Input) (s : State) : Result :=
  match i with
  | .recv b ok => exec (.recv b ok) s
  | .port p => portStep p s
  | .main => mainTurn s
  | .tick dt => .next { s with now := s.now + dt }
  | .power => .next s.powerCycle

/-- A machine with a model-only fault mark has stopped (R37); else the next input is taken, MAIN's turn when there
is none. -/
def machineStep (s : State) : Result :=
  match s.mfault with
  | some f => .fault (.modelFault f)
  | none =>
    match s.inputs with
    | i :: rest => inputStep i { s with inputs := rest }
    | [] => mainTurn s

/-- MAIN free to take a request: no transaction, no outstanding request, not waiting for the bus. -/
def State.freeMain (s : State) : State :=
  { s with bphase := .idle, held := [], dstate := if s.dstate.onBus then .idle else s.dstate }

/-- The recognized envelope's second byte stands at the buffer head and MAIN is about to pop and dispatch it (R101);
the flag is set, as the recognizer set it (R92). -/
def State.placeOpcode (op : Byte) (s : State) : State :=
  { s with ring := Memory.write 0x00#8 s.ring s.head.toNat op, tail := s.head, dstate := .disp1,
           opActive := true, bphase := .idle, held := [], inputs := .main :: s.inputs }

/-- A request put where the next step takes it from: a port word or a received byte as the next input, an
envelope at the dispatcher. -/
def State.place (r : Request) (s : State) : State :=
  match r with
  | .port p => { s.freeMain with inputs := .port p :: s.inputs }
  | .recv b ok => { s with inputs := .recv b ok :: s.inputs }
  | .envelope w => s.placeOpcode (w.extractLsb' 0 8)
  | .recognize => s

end Sys2Proof.Machine
end

