-- ==== Sys2Proof/Machine/Step.lean ====
section
/-! DEFINITION. Step: one step of the machine, and the placing of a table word where the next step takes it
from. -/

namespace Sys2Proof.Machine

/-- One step: the next agent's, as the inputs say (R136). -/
def step (s : State) : Host.Outcome State Fault Refusal := machineStep s

/-- `s` with the instruction of a table word of `nbits` bits placed where the very next step takes it from. -/
def State.withFetchWord (s : State) (nbits w : Nat) : State :=
  match tableRequest nbits w with
  | some r => s.place r
  | none => s

end Sys2Proof.Machine
end

