-- ==== Sys2Proof/Safety.lean ====
section
/-! DEFINITION. Safety: the properties of a state that the spec's rules promise, in the terms claims use, and
what a safe run is. -/

namespace Sys2Proof.Machine

/-- The byte stores are in canonical form, and the ring lists indices below `N` only (R23). -/
abbrev State.memoryOk (s : State) : Prop :=
  Memory.wf 0x00#8 s.ring = true ∧ Memory.below Config.N s.ring = true ∧
    (match s.dev with
      | .oracle => true
      | .sim m => Memory.wf Config.ERASED m) = true

/-- R82: above the high watermark `stop` is asserted, below the low watermark it is not. -/
abbrev State.flowOk (s : State) : Prop :=
  (Config.HWM < s.occ → s.stop = true) ∧ (s.occ < Config.LWM → s.stop = false)

/-- The lines that phase `p` of transaction `t` leaves (R121): the role it asserts, and whether the block drives the
data lines. -/
abbrev State.linesAre (latch enable program oe : Bool) (s : State) : Prop :=
  s.actLatch = latch ∧ s.actEnable = enable ∧ s.actProgram = program ∧ s.busOE = oe

/-- R121, R129: between transactions every role is deasserted and the data lines are released; during a
transaction the phase is one of its own, its role alone is asserted, and the block drives the data lines exactly
in a program transaction. -/
abbrev State.busOk (s : State) : Prop :=
  (match s.bphase with
    | .idle => decide (s.linesAre false false false false)
    | .active t p _ =>
      decide (s.linesAre (p == .latchAssert) (p == .enAssert) (p == .pgmAssert) (t.kind == .prog) ∧
        p ∈ (seq (t.descriptor s) t).map PhaseStep.phase)) = true

/-- R95: in `Idle` with the flag set, and at `Disp0`, the marker and one more byte stand at the buffer head; at `Disp1`
a byte does. -/
abbrev State.dispatchOk (s : State) : Prop :=
  match s.dstate with
  | .idle => s.opActive = true → 2 ≤ s.occ ∧ s.ringAt s.head = Config.MARKER
  | .disp0 => 2 ≤ s.occ ∧ s.ringAt s.head = Config.MARKER
  | .disp1 => 1 ≤ s.occ
  | .exec _ => True
  | .cleanup => True

/-- Whether the controller is inside the iteration of `$READ`, `$BLANK` or `$WRITE`, past its entry. -/
def DState.iterating : DState → Bool
  | .exec (.read .check) => true
  | .exec (.read .bus) => true
  | .exec (.blank .check) => true
  | .exec (.blank .bus) => true
  | .exec (.write .check) => true
  | .exec (.write .w1) => true
  | .exec (.write .w2) => true
  | .exec (.write .prog) => true
  | .exec (.write .verify) => true
  | _ => false

/-- R50, R113, R114: inside an iteration some variant is selected and the Address Counter lies in the device. -/
abbrev State.engineOk (s : State) : Prop :=
  s.dstate.iterating = true → s.descriptor.any (fun d => decide (s.addr.toNat < d.size)) = true

/-- R34, R124: a transaction is under way only while the controller waits for it. -/
abbrev State.sequencerOk (s : State) : Prop := s.bphase = .idle ∨ s.dstate.onBus = true

/-- Whether an input is a port request. -/
def Input.isPort : Input → Bool
  | .port _ => true
  | _ => false

/-- The block is reached through the wire protocol alone (R141): nobody but the controller issues requests on its
ports. -/
abbrev State.wireOnly (s : State) : Prop :=
  s.held = [] ∧ s.inputs.all (fun i => !Input.isPort i) = true

/-- R74 to R76: what MAIN has outstanding are requests MAIN issues. -/
abbrev State.heldOk (s : State) : Prop := s.held.all issuedByMain = true

/-- What holds throughout a session on the wire: every property above, a well-formed configuration and no
model-only fault. -/
structure Session (s : State) : Prop where
  config : s.cfg.wf = true
  memory : s.memoryOk
  flow : s.flowOk
  bus : s.busOk
  dispatch : s.dispatchOk
  engine : s.engineOk
  sequencer : s.sequencerOk
  wire : s.wireOnly
  noFault : s.mfault = none

/-- R43: the FIFO's contents, oldest first: the bytes at `head, head + 1, ...`, as many as the occupancy. -/
def State.contents (s : State) : Str :=
  (List.range s.occ).map (fun k => s.ringAt (s.head + BitVec.ofNat 10 k))

/-- The state after a bus read of the Address Counter of a device with descriptor `d`, at the transaction level
(R127), from an idle bus: the address lines hold the bits `aw-1..0`, the DEVICE has answered. -/
def State.afterRead (d : Descriptor) (s : State) : State :=
  { s.sample s.addr with busA := BitVec.ofNat 16 (s.addr.toNat % 2 ^ d.aw) }

/-- MAIN moves next, and nothing stands before the controller's own step: no model-only fault, no transaction under
way, no outstanding request. The rest of the inputs is `rest`. -/
abbrev State.mainNext (rest : List Input) (s : State) : Prop :=
  s.mfault = none ∧ s.bphase = .idle ∧ s.held = [] ∧ s.inputs = .main :: rest

/-- The next state of an outcome, if it has one. -/
def nextState : Result → Option State
  | .next t => some t
  | .fault _ => none
  | .refused _ => none

/-- One step with input `i` put before the others. -/
def stepWith (i : Input) (s : State) : Option State := nextState (step { s with inputs := i :: s.inputs })

/-- `n` turns of MAIN with no other agent between them, from `s`; none if one ends in a fault or a refusal. -/
def mainRun : Nat → State → Option State
  | 0, s => some s
  | n + 1, s => (stepWith .main s).bind (mainRun n)

/-- For each duration of the list, that time passes and MAIN has a turn (R124). -/
def timedRun : List Nat → State → Option State
  | [], s => some s
  | dt :: ds, s => ((stepWith (.tick dt) s).bind (stepWith .main)).bind (timedRun ds)

end Sys2Proof.Machine
end

