-- ==== Sys2Proof/Certificates/Slice0/Obligations.lean ====
section
/-! DEFINITION. The statements for the provers. A free value (the DEVICE oracle's bytes, the platform's OPEN
parameters, the CLOCK's start) is never given a number: what holds of it holds for every value. -/

open Sys2Proof Sys2Proof.Machine

/-! ## Encodings -/

/-- Decoding the encoding of a well-formed instruction gives it back, with every operand at every value (R61, R74,
R75, R76, R77). The port words are the spec's decision D45. -/
def Obligations.DecodeInvertsEncode : Prop :=
  ∀ i : Instr, i.wf = true → decode (encode i) = .ok i

/-- Every request that decodes is the encoding of the instruction it decodes to, which is well formed: each word has
one meaning (R71, R74, R75, R76). The port words are the spec's decision D45. -/
def Obligations.EncodeInvertsDecode : Prop :=
  ∀ (r : Request) (i : Instr), decode r = .ok i → i.wf = true ∧ encode i = r

/-- Exactly these request words are rejected: an envelope without the marker, a FIFO word of `POP` to `CLEAR` with a
nonzero data field, a `BUS.LATCH` or `BUS.READ` word with a nonzero `d` field (R60, R74, R75). The port words and what
is reserved in them are the spec's decision D45. -/
def Obligations.DecoderRejectsExactly : Prop :=
  (∀ w : BitVec 16, decode (.envelope w) = .error .notAMarker ↔ w.toNat / 256 ≠ 0x24) ∧
  (∀ w : BitVec 11, decode (.port (.fifo w)) = .error .nonzeroData ↔
    1 ≤ w.toNat / 256 ∧ w.toNat / 256 ≤ 5 ∧ w.toNat % 256 ≠ 0) ∧
  (∀ w : BitVec 26, decode (.port (.bus w)) = .error .nonzeroD ↔
    w.toNat / 2 ^ 24 ≤ 1 ∧ w.toNat % 256 ≠ 0) ∧
  (∀ w : BitVec 2, ∃ i, decode (.port (.select w)) = .ok i)

/-- R61, R71, R74, R75, R76: words of the spec's test vectors (95_test_vectors.md 3.8) and tables, written out, decode as
it says: two envelopes, five FIFO and bus port words, two words with a nonzero unused field, one descriptor word. The
port words are the spec's decision D45. -/
def Obligations.WordsOfTheSpecDecode : Prop :=
  decode (.envelope 0x2431#16) = .ok .read ∧ decode (.envelope 0x2475#16) = .ok (.unknownOpcode 0x75#8) ∧
  decode (.port (.fifo 0x041#11)) = .ok (.push 0x41#8) ∧ decode (.port (.fifo 0x500#11)) = .ok .clear ∧
  decode (.port (.fifo 0x141#11)) = .error .nonzeroData ∧
  decode (.port (.bus 0x0007FF00#26)) = .ok (.busLatch 0x07FF#16) ∧
  decode (.port (.bus 0x01001000#26)) = .ok (.busRead 0x0010#16) ∧
  decode (.port (.bus 0x020003A5#26)) = .ok (.busProg 0x0003#16 0xA5#8) ∧
  decode (.port (.bus 0x010010FF#26)) = .error .nonzeroD ∧
  decode (.port (.select 2#2)) = .ok .selectB

/-! ## A step runs the decoded instruction -/

/-- A byte delivered next: the step is `RECV` of it. A port word next: the step is `exec` of the instruction it
decodes to, unless it is a request of MAIN's while MAIN is inside a transaction, waits for one, or has requests
outstanding: then it joins those. A word the decoder rejects is refused by name (R83, R74, R75, R76). The order of the
inputs and the queue of MAIN's requests are the model's (log 6, log 7). -/
def Obligations.StepRunsTheRequest : Prop :=
  ∀ (s : State) (rest : List Input), s.mfault = none →
    (∀ b ok, s.inputs = .recv b ok :: rest → step s = exec (.recv b ok) { s with inputs := rest }) ∧
    (∀ p i, s.inputs = .port p :: rest → decode (.port p) = .ok i →
      (issuedByMain i = true → s.bphase = .idle ∧ s.dstate.onBus = false ∧ s.held = []) →
        step s = exec i { s with inputs := rest }) ∧
    (∀ p i, s.inputs = .port p :: rest → decode (.port p) = .ok i → issuedByMain i = true →
      (s.bphase ≠ .idle ∨ s.dstate.onBus = true ∨ s.held ≠ []) →
        step s = .next { s with inputs := rest, held := s.held ++ [i] }) ∧
    (∀ p e, s.inputs = .port p :: rest → decode (.port p) = .error e →
      step s = .refused (.badRequest e))

/-- MAIN's turn: at `Disp1` it pops the opcode byte and runs the instruction that the envelope of the marker and that
byte decodes to; in an `Exec` state it runs the command of that state (R101, R102); with a request outstanding and the
controller not waiting for the bus, it runs that request (R86). With no input left MAIN has the turn (R136). Whose
turn it is, and that an outstanding request comes before the controller, are the model's (log 6, log 7). -/
def Obligations.StepRunsTheCommand : Prop :=
  (∀ (s : State) (rest : List Input), s.mainNext rest →
    (∀ i, s.dstate = .disp1 → 0 < s.occ →
      decode (.envelope (0x24#8 ++ s.ringAt s.head)) = .ok i →
        step s = exec i { s with inputs := rest, head := s.head + 1#10,
                                 stop := fcEval (s.occ - 1) s.stop }) ∧
    (∀ e, s.dstate = .exec e → step s = exec e.instr { s with inputs := rest })) ∧
  (∀ (s : State) (rest : List Input) (i : Instr) (others : List Instr),
    s.mfault = none → s.bphase = .idle → s.dstate.onBus = false → s.held = i :: others →
    s.inputs = .main :: rest → step s = exec i { s with inputs := rest, held := others }) ∧
  (∀ s : State, s.inputs = [] → step s = step { s with inputs := [.main] })

/-! ## The controller -/

/-- R99, R103, R152: in `Idle` MAIN holds while the flag is false and goes to `Disp0` when it is true, changing
nothing else; the Cleanup step empties and zeroes the buffer, clears the flag and the signal, returns to `Idle`, and
keeps everything else. The one-step Cleanup is D15 and D16; a hold is a step that changes nothing (log 12). -/
def Obligations.IdleHoldsAndCleanupResets : Prop :=
  ∀ (s : State) (rest : List Input), s.mainNext rest →
    (s.dstate = .idle → step s = .next { s with
      inputs := rest, dstate := if s.opActive then .disp0 else .idle }) ∧
    (s.dstate = .cleanup → step s = .next { s with
      inputs := rest, head := State.reset.head, tail := State.reset.tail, ring := State.reset.ring
      opActive := false, stop := false, dstate := .idle })

/-- R100, R101: `Disp0` pops the marker and goes to `Disp1`; an empty buffer or another byte at `Disp0`, and an empty
buffer at `Disp1`, leave the fault mark, and the model then stops (log 10). The split of Dispatching is D15, the
evaluation at a pop D8. -/
def Obligations.MarkerIsPopped : Prop :=
  ∀ (s : State) (rest : List Input), s.mainNext rest →
    (s.dstate = .disp0 → 0 < s.occ → s.ringAt s.head = 0x24#8 →
      step s = .next { s with inputs := rest, head := s.head + 1#10,
                              stop := fcEval (s.occ - 1) s.stop, dstate := .disp1 }) ∧
    (s.dstate = .disp0 ∧ (s.occ = 0 ∨ s.ringAt s.head ≠ 0x24#8) ∨ s.dstate = .disp1 ∧ s.occ = 0 →
      ∃ t, step s = .next t ∧ t.mfault = some .dispatchInvariant ∧
        step t = .fault (.modelFault .dispatchInvariant))

/-- R98, R104, R105, R110, R111, R113: at `Disp1` each of the seven commands goes to its own entry and changes nothing
else. The split into steps is D15. -/
def Obligations.DispatchGoesToTheEntry : Prop :=
  ∀ s : State, s.dstate = .disp1 →
    exec .read s = .next { s with dstate := .exec (.read .entry) } ∧
    exec .write s = .next { s with dstate := .exec (.write .entry) } ∧
    exec .blank s = .next { s with dstate := .exec (.blank .entry) } ∧
    exec .ident s = .next { s with dstate := .exec .ident } ∧
    exec .setdev s = .next { s with dstate := .exec .setdev } ∧
    exec .reset s = .next { s with dstate := .exec .reset } ∧
    exec .baud s = .next { s with dstate := .exec .baud }

/-- R98 "No other transition exists": a command asked for a step while the controller is neither at `Disp1` nor in a
sub-state of that command is refused by name. The refusal is the model's (log 16). -/
def Obligations.CommandsStepOnlyInTheirStates : Prop :=
  ∀ s : State, s.dstate ≠ .disp1 →
    (∀ c ∈ [Instr.read, .write, .blank, .ident, .setdev, .reset, .baud],
      (∀ e, s.dstate = .exec e → e.instr ≠ c) → exec c s = .refused .commandNotDispatched) ∧
    (∀ op, exec (.unknownOpcode op) s = .refused .commandNotDispatched)

/-! ## FIFO port -/

/-- R79: the occupancy lies in `0..1023`; it is 0 exactly when `(tail + 1) mod N = head`, and 1023 exactly when
`(tail + 2) mod N = head`. -/
def Obligations.OccupancyOfTheIndices : Prop :=
  ∀ s : State,
    s.occ = (s.tail.toNat + 1024 - s.head.toNat + 1) % 1024 ∧ s.occ ≤ 1023 ∧
    (s.occ = 0 ↔ (s.tail.toNat + 1) % 1024 = s.head.toNat) ∧
    (s.occ = 1023 ↔ (s.tail.toNat + 2) % 1024 = s.head.toNat) ∧
    (s.full = true ↔ s.occ = 1023)

/-- R80: `FCEVAL(o)` asserts for `o >= 993`, deasserts for `o <= 31`, keeps the value for `32 <= o <= 992`, and twice is
once. -/
def Obligations.FlowControlEvaluation : Prop :=
  ∀ (o : Nat) (stop : Bool),
    (993 ≤ o → fcEval o stop = true) ∧ (o ≤ 31 → fcEval o stop = false) ∧
    (32 ≤ o → o ≤ 992 → fcEval o stop = stop) ∧ fcEval o (fcEval o stop) = fcEval o stop

/-- R84: on a full buffer `PUSH b` returns `BufferOverflow` and changes nothing; else it appends `b` at the next
index, counts it, evaluates flow control with the new occupancy, and returns `Ok`. The field `result` is the model's
place for the answer (log 8); that the statistic counts modulo 2^32 is D7 (log 19). -/
def Obligations.PushAppendsOrOverflows : Prop :=
  ∀ (b : Byte) (s : State),
    exec (.push b) s = .next
      (if s.occ = 1023 then { s with result := some (.err .bufferOverflow) }
       else { s with tail := s.tail + 1#10
                     ring := Memory.write 0x00#8 s.ring ((s.tail.toNat + 1) % 1024) b
                     rxCount := s.rxCount + 1#32
                     stop := if 992 < s.occ + 1 then true else if s.occ + 1 < 32 then false else s.stop
                     result := some .ok })

/-- R85: on an empty buffer `POP` returns `BufferUnderflow` and changes nothing; else it returns the byte at `head`,
advances `head`, and evaluates flow control with the new occupancy. The erroring form is D11, the evaluation D8;
`result` is the model's (log 8). -/
def Obligations.PopRemovesTheOldest : Prop :=
  ∀ s : State,
    exec .pop s = .next
      (if s.occ = 0 then { s with result := some (.err .bufferUnderflow) }
       else { s with head := s.head + 1#10
                     stop := if 992 < s.occ - 1 then true else if s.occ - 1 < 32 then false else s.stop
                     result := some (.byte (s.ringAt s.head)) })

/-- R86: `POPW` returns `Aborted` when the flag is false, even with a byte available; with the flag true and an empty
buffer it has no step and stays outstanding; else it removes and returns the oldest byte. The blocking form and its
abort are D11, the evaluation D8; that the request stays MAIN's oldest outstanding one is the model's (log 7, log 12). -/
def Obligations.PopwHoldsAbortsOrRemoves : Prop :=
  ∀ s : State,
    (s.opActive = false → exec .popw s = .next { s with result := some (.err .aborted) }) ∧
    (s.opActive = true → s.occ = 0 → exec .popw s = .next { s with held := .popw :: s.held }) ∧
    (s.opActive = true → 0 < s.occ →
      exec .popw s = .next
        { s with head := s.head + 1#10
                 stop := if 992 < s.occ - 1 then true else if s.occ - 1 < 32 then false else s.stop
                 result := some (.byte (s.ringAt s.head)) })

/-- R87, R88, R89: `PEEK` answers the oldest byte or `BufferUnderflow` and changes nothing; `SIZE` answers the
occupancy and evaluates flow control; `CLEAR` empties and zeroes the ring and clears the flag and the signal, keeping
the statistic. The empty `PEEK` is D12, the values after `CLEAR` D4 and D16; `result` is the model's (log 8). -/
def Obligations.PeekSizeClear : Prop :=
  ∀ s : State,
    exec .peek s = .next { s with
      result := some (if s.occ = 0 then .err .bufferUnderflow else .byte (s.ringAt s.head)) } ∧
    exec .size s = .next { s with
      stop := if 992 < s.occ then true else if s.occ < 32 then false else s.stop
      result := some (.count s.occ) } ∧
    exec .clear s = .next { s with
      head := 0#10, tail := 1023#10, ring := [], opActive := false, stop := false, result := some .ok }

/-- R23, R84, R85, R86, R87, R88, R89, as bytes of the ring: `PUSH` writes its byte at the new `tail` and no other
byte; the operations that only remove or look leave every byte; `CLEAR` zeroes every byte. `CLEAR` writing 0x00 is the
document's; the canonical form is the model's (log 21). -/
def Obligations.RingBytesOfTheFifoPort : Prop :=
  ∀ s t : State, s.memoryOk →
    (∀ b, exec (.push b) s = .next t → s.occ ≠ 1023 → ∀ i : Index,
      t.ringAt i = if i = s.tail + 1#10 then b else s.ringAt i) ∧
    (∀ b, exec (.push b) s = .next t → s.occ = 1023 → ∀ i : Index, t.ringAt i = s.ringAt i) ∧
    (∀ o ∈ [Instr.pop, .popw, .peek, .size], exec o s = .next t → ∀ i : Index, t.ringAt i = s.ringAt i) ∧
    (exec .clear s = .next t → ∀ i : Index, t.ringAt i = 0x00#8)

/-- R43, R90: the contents, oldest first: `PUSH` on a buffer with room appends, a `POP` or `POPW` that succeeds
answers the first byte and leaves the others in order, `CLEAR` leaves none; there are as many as the occupancy.
`result` is the model's (log 8). -/
def Obligations.FifoKeepsTheOrder : Prop :=
  ∀ s t : State, s.memoryOk →
    s.contents.length = s.occ ∧
    (∀ b, s.occ ≠ 1023 → exec (.push b) s = .next t → t.contents = s.contents ++ [b]) ∧
    (0 < s.occ → exec .pop s = .next t → ∃ v, t.result = some (.byte v) ∧ s.contents = v :: t.contents) ∧
    (0 < s.occ → s.opActive = true → exec .popw s = .next t →
      ∃ v, t.result = some (.byte v) ∧ s.contents = v :: t.contents) ∧
    (exec .clear s = .next t → t.contents = [])

/-- R74, R75, R76: a FIFO or bus word with a reserved select code, and the descriptor words 0 and 3, are refused,
whatever the state and the other fields. The codes are the spec's decision D45. -/
def Obligations.ReservedPortWordsAreRefused : Prop :=
  ∀ s : State,
    (∀ sel data, exec (.reservedFifoPort sel data) s = .refused .reservedFifoPort) ∧
    (∀ a d, exec (.reservedBusPort a d) s = .refused .reservedBusPort) ∧
    exec .reservedSelect0 s = .refused .reservedSelect ∧
    exec .reservedSelect3 s = .refused .reservedSelect

/-! ## The receive path -/

/-- R83, R84, R92: `RECV(b, ok)`: an error is an event and nothing else; the cancel character clears the flag and
nothing else; a byte for a full buffer is dropped with the event; any other byte is appended, counted, flow control
evaluated, and the flag set when the head byte is the marker and a byte follows it. What happens on an overflow, an
error and the cancel character are D10, D13 and D14, counting modulo 2^32 is D7 (log 19). -/
def Obligations.ReceivePath : Prop :=
  ∀ (b : Byte) (s : State), s.memoryOk →
    exec (.recv b false) s = .next { s with evLog := s.evLog ++ [.rxError] } ∧
    (b = s.cfg.cancelChar → exec (.recv b true) s = .next { s with opActive := false }) ∧
    (b ≠ s.cfg.cancelChar → s.occ = 1023 →
      exec (.recv b true) s = .next { s with evLog := s.evLog ++ [.rxOverflow b] }) ∧
    (b ≠ s.cfg.cancelChar → s.occ ≠ 1023 →
      exec (.recv b true) s = .next
        { s with tail := s.tail + 1#10
                 ring := Memory.write 0x00#8 s.ring ((s.tail.toNat + 1) % 1024) b
                 rxCount := s.rxCount + 1#32
                 stop := if 992 < s.occ + 1 then true else if s.occ + 1 < 32 then false else s.stop
                 opActive := if 0 < s.occ ∧ s.ringAt s.head = 0x24#8 then true else s.opActive })

/-- R92: the recognizer sets the flag when the head byte is the marker and more than one byte is in the buffer; otherwise
nothing changes. -/
def Obligations.RecognizerSetsTheFlag : Prop :=
  ∀ s : State,
    exec .recognize s = .next
      (if s.ringAt s.head = 0x24#8 ∧ 1 < s.occ then { s with opActive := true } else s)

/-! ## Commands without an iteration -/

/-- R101, R104, R105: an unknown opcode emits `"unknown command\n"` and goes to Cleanup; `$RESET` goes to Cleanup;
`$BAUD` records `SerialInit(0)` and goes to Cleanup. Nothing else changes. The text is D19; what `$RESET` and `$BAUD`
do is D27 and D28. -/
def Obligations.CommandsWithoutADevice : Prop :=
  ∀ s : State,
    (∀ op, s.dstate = .disp1 → exec (.unknownOpcode op) s = .next
      { s with txLog := s.txLog ++ [0x75#8, 0x6E#8, 0x6B#8, 0x6E#8, 0x6F#8, 0x77#8, 0x6E#8, 0x20#8, 0x63#8,
                                   0x6F#8, 0x6D#8, 0x6D#8, 0x61#8, 0x6E#8, 0x64#8, 0x0A#8]
               dstate := .cleanup }) ∧
    (s.dstate = .exec .reset → exec .reset s = .next { s with dstate := .cleanup }) ∧
    (s.dstate = .exec .baud →
      exec .baud s = .next { s with evLog := s.evLog ++ [.serialInit 0], dstate := .cleanup })

/-- R111: `$IDENT` emits the token of the selected variant, or the "none" token, with a line feed, and goes to
Cleanup. -/
def Obligations.IdentNamesTheVariant : Prop :=
  ∀ s : State, s.dstate = .exec .ident →
    (s.desc = some .A →
      exec .ident s = .next { s with txLog := s.txLog ++ (s.cfg.descA.identToken ++ [0x0A#8]), dstate := .cleanup }) ∧
    (s.desc = some .B →
      exec .ident s = .next { s with txLog := s.txLog ++ (s.cfg.descB.identToken ++ [0x0A#8]), dstate := .cleanup }) ∧
    (s.desc = none →
      exec .ident s = .next { s with txLog := s.txLog ++ (s.cfg.noneToken ++ [0x0A#8]), dstate := .cleanup })

/-- R110, R112: `$SETDEV` holds for its code byte, aborts when the flag is false, selects the variant whose code the
byte is and answers `"OK\n"`, and for any other byte keeps the descriptor and answers `"unknown device\n"`. The wait
is D29, a hold is a step that changes nothing (log 12), the texts are D19 and D20. -/
def Obligations.SetDeviceSelectsByCode : Prop :=
  ∀ s : State, s.dstate = .exec .setdev → s.cfg.wf = true →
    (s.opActive = false →
      exec .setdev s = .next { s with txLog := s.txLog ++ Config.abortLine, dstate := .cleanup }) ∧
    (s.opActive = true → s.occ = 0 → exec .setdev s = .next s) ∧
    (s.opActive = true → 0 < s.occ →
      (∀ v, (s.cfg.descriptor v).devCode = s.ringAt s.head →
        exec .setdev s = .next
          { s with head := s.head + 1#10, stop := fcEval (s.occ - 1) s.stop, desc := some v
                   txLog := s.txLog ++ [0x4F#8, 0x4B#8, 0x0A#8], dstate := .cleanup }) ∧
      ((∀ v, (s.cfg.descriptor v).devCode ≠ s.ringAt s.head) →
        exec .setdev s = .next
          { s with head := s.head + 1#10, stop := fcEval (s.occ - 1) s.stop
                   txLog := s.txLog ++ Config.setDevFailLine, dstate := .cleanup }))

/-- R109: `SELECT v` writes the descriptor and nothing else of the block (its answer is `Ok`); with no role asserted
the control pins then stand at the new variant's idle levels. `result` is the model's (log 8); idle levels per variant
are D32. -/
def Obligations.SelectReplacesTheDescriptor : Prop :=
  ∀ s : State,
    exec .selectA s = .next { s with desc := some .A, result := some .ok } ∧
    exec .selectB s = .next { s with desc := some .B, result := some .ok } ∧
    (s.busOk → s.bphase = .idle → ∀ p,
      ({ s with desc := some .A, result := some .ok } : State).pinLevel p = s.cfg.descA.idle[p]? ∧
      ({ s with desc := some .B, result := some .ok } : State).pinLevel p = s.cfg.descB.idle[p]?)

/-! ## The programming engine -/

/-- R113: the entry of `$READ`, `$BLANK` and `$WRITE`: `"no device\n"` and Cleanup with no descriptor, else the
Address Counter is 0 and the first check comes next. The case of no descriptor is D26. -/
def Obligations.EngineEntry : Prop :=
  ∀ (s : State) (c : Instr) (check : Exec),
    (c, s.dstate, check) ∈
      [(Instr.read, DState.exec (.read .entry), Exec.read .check),
        (.blank, .exec (.blank .entry), .blank .check), (.write, .exec (.write .entry), .write .check)] →
    (s.desc = none →
      exec c s = .next { s with
        txLog := s.txLog ++ [0x6E#8, 0x6F#8, 0x20#8, 0x64#8, 0x65#8, 0x76#8, 0x69#8, 0x63#8, 0x65#8, 0x0A#8]
        dstate := .cleanup }) ∧
    (∀ v, s.desc = some v → exec c s = .next { s with addr := 0#16, dstate := .exec check })

/-- R114, R115, R116, R117: a check that finds the flag false reports `"aborted\n"` and goes to Cleanup without a bus
transaction or a pop, `$READ` closing an open row first; both waits of `$WRITE` do the same. The text is D19, the
closing line feed D22. -/
def Obligations.CancelledCheckAborts : Prop :=
  ∀ s : State, s.opActive = false →
    (s.dstate = .exec (.read .check) →
      exec .read s = .next { s with
        txLog := s.txLog ++ (if s.addr.toNat % 16 = 0 then [] else [0x0A#8])
          ++ [0x61#8, 0x62#8, 0x6F#8, 0x72#8, 0x74#8, 0x65#8, 0x64#8, 0x0A#8]
        dstate := .cleanup }) ∧
    (s.dstate = .exec (.blank .check) →
      exec .blank s = .next { s with txLog := s.txLog ++ Config.abortLine, dstate := .cleanup }) ∧
    (s.dstate = .exec (.write .check) ∨ s.dstate = .exec (.write .w1) ∨
      (s.dstate = .exec (.write .w2) ∧ s.bphase = .idle) →
        exec .write s = .next { s with txLog := s.txLog ++ Config.abortLine, dstate := .cleanup })

/-- R115, R114: a check of `$READ` that finds the flag true reads the byte at the Address Counter and emits it in the
row format: the row address at a multiple of 16, the byte, the line feed after the 16th byte and after the last; then
the next address, or Cleanup after the last (transaction level). Uppercase digits are D21; the byte comes from the
DEVICE, a free value unless it is simulated (log 2, log 3). -/
def Obligations.ReadIteration : Prop :=
  ∀ (s : State) (v : Variant), s.dstate = .exec (.read .check) → s.opActive = true →
    s.level = .transaction → s.bphase = .idle → s.busOk → s.desc = some v →
    s.addr.toNat < (s.cfg.descriptor v).size →
      exec .read s = .next
        { s.afterRead (s.cfg.descriptor v) with
          txLog := s.txLog
            ++ ((if s.addr.toNat % 16 = 0 then hex4U s.addr ++ [0x3A#8] else [])
              ++ ([0x20#8] ++ hex2U (s.deviceByte s.addr))
              ++ (if s.addr.toNat % 16 = 15 ∨ s.addr.toNat + 1 = (s.cfg.descriptor v).size then [0x0A#8] else []))
          addr := if s.addr.toNat + 1 = (s.cfg.descriptor v).size then s.addr else s.addr + 1#16
          dstate := if s.addr.toNat + 1 = (s.cfg.descriptor v).size then .cleanup else .exec (.read .check) }

/-- R116, R114: a check of `$BLANK` reads the byte at the Address Counter; one that is not 0xFF is reported with its
address and ends the scan; else the next address, or `"OK\n"` and Cleanup after the last (transaction level).
Lowercase digits are general knowledge (log 23), the line feed D20; the byte is the DEVICE's (log 2, log 3). -/
def Obligations.BlankIteration : Prop :=
  ∀ (s : State) (v : Variant), s.dstate = .exec (.blank .check) → s.opActive = true →
    s.level = .transaction → s.bphase = .idle → s.busOk → s.desc = some v →
    s.addr.toNat < (s.cfg.descriptor v).size →
      exec .blank s = .next
        (if s.deviceByte s.addr ≠ 0xFF#8 then
          { s.afterRead (s.cfg.descriptor v) with
            txLog := s.txLog ++ fmtAV s.addr (s.deviceByte s.addr), dstate := .cleanup }
        else if s.addr.toNat + 1 = (s.cfg.descriptor v).size then
          { s.afterRead (s.cfg.descriptor v) with
            txLog := s.txLog ++ [0x4F#8, 0x4B#8, 0x0A#8], dstate := .cleanup }
        else { s.afterRead (s.cfg.descriptor v) with addr := s.addr + 1#16 })

/-- R117: a check of `$WRITE` that finds the flag true goes to W1; W1 holds on an empty buffer, else pops the first
character into `hiCh` and goes to W2; W2 holds on an empty buffer, and a pair with a character that is no hex digit is
reported and ends the command with no bus transaction. The rejection of other characters is D24; a hold is a step that
changes nothing (log 12). -/
def Obligations.WritePopsThePair : Prop :=
  ∀ s : State, s.opActive = true →
    (s.dstate = .exec (.write .check) → exec .write s = .next { s with dstate := .exec (.write .w1) }) ∧
    (s.dstate = .exec (.write .w1) → s.occ = 0 → exec .write s = .next s) ∧
    (s.dstate = .exec (.write .w1) → 0 < s.occ →
      exec .write s = .next
        { s with head := s.head + 1#10, stop := fcEval (s.occ - 1) s.stop, hiCh := s.ringAt s.head
                 dstate := .exec (.write .w2) }) ∧
    (s.dstate = .exec (.write .w2) → s.bphase = .idle → s.occ = 0 → exec .write s = .next s) ∧
    (s.dstate = .exec (.write .w2) → s.bphase = .idle → 0 < s.occ →
      (hexval s.hiCh = none ∨ hexval (s.ringAt s.head) = none) →
        exec .write s = .next
          { s with head := s.head + 1#10, stop := fcEval (s.occ - 1) s.stop
                   txLog := s.txLog ++ [0x62#8, 0x61#8, 0x64#8, 0x20#8, 0x68#8, 0x65#8, 0x78#8, 0x0A#8]
                   dstate := .cleanup })

/-- R117, R114: step W2 with two hex digits of values `x` and `y`: the data byte is `16 x + y`; one program
transaction and one read of the Address Counter follow; a byte read back that differs is reported and ends the
command, else the next address, or `"OK\n"` and Cleanup after the last (transaction level). The DEVICE is asked after
the program pulse. The digit order is D25, the mismatch line D23; the byte is the DEVICE's (log 2, log 3, log 22). -/
def Obligations.WriteProgramsAndVerifies : Prop :=
  ∀ (s : State) (v : Variant) (x y : Nat), s.dstate = .exec (.write .w2) → s.opActive = true → 0 < s.occ →
    s.level = .transaction → s.bphase = .idle → s.busOk → s.desc = some v →
    s.addr.toNat < (s.cfg.descriptor v).size → hexval s.hiCh = some x →
    hexval (s.ringAt s.head) = some y →
      let w : Byte := BitVec.ofNat 8 (x * 16 + y)
      let p : State := { s with head := s.head + 1#10, stop := fcEval (s.occ - 1) s.stop, wdata := w
                                busD := w, dev := s.dev.pulse s.addr w }
      let r : State := p.afterRead (s.cfg.descriptor v)
      exec .write s = .next
        (if p.deviceByte s.addr ≠ w then
          { r with txLog := s.txLog ++ fmtAV s.addr (p.deviceByte s.addr), dstate := .cleanup }
        else if s.addr.toNat + 1 = (s.cfg.descriptor v).size then
          { r with txLog := s.txLog ++ [0x4F#8, 0x4B#8, 0x0A#8], dstate := .cleanup }
        else { r with addr := s.addr + 1#16, dstate := .exec (.write .check) })

/-- R63, R64: the pair of hex characters of a byte, in either letter case and either order, decodes to the byte. Both
letter cases are D24, the two orders D25. -/
def Obligations.HexPairsDecode : Prop :=
  ∀ b : Byte,
    payloadByte .highFirst (hexDigitU (b.extractLsb' 4 4)) (hexDigitU (b.extractLsb' 0 4)) = some b ∧
    payloadByte .highFirst (hexDigitL (b.extractLsb' 4 4)) (hexDigitL (b.extractLsb' 0 4)) = some b ∧
    payloadByte .lowFirst (hexDigitU (b.extractLsb' 0 4)) (hexDigitU (b.extractLsb' 4 4)) = some b ∧
    payloadByte .lowFirst (hexDigitL (b.extractLsb' 0 4)) (hexDigitL (b.extractLsb' 4 4)) = some b

/-- R66: what `$READ` emits for the addresses of one row, starting at a multiple of 16 and holding `k` bytes (16, or
the rest of the device), is the row of R66. Uppercase digits are D21. -/
def Obligations.RowFormat : Prop :=
  ∀ (size a k : Nat) (m : Nat → Byte), a % 16 = 0 → 1 ≤ k → k ≤ 16 → a + k ≤ size → size ≤ 65536 →
    (k = 16 ∨ a + k = size) →
      (List.range k).flatMap (fun j => readChunk size (BitVec.ofNat 16 (a + j)) (m (a + j))) =
        hex4U (BitVec.ofNat 16 a) ++ [0x3A#8]
          ++ (List.range k).flatMap (fun j => [0x20#8] ++ hex2U (m (a + j))) ++ [0x0A#8]

/-! ## The Bus Sequencer -/

/-- R126, R127, R128, at the transaction level: the address lines carry the bits `aw-1..0` of the address, the data
lines are released at the end, no role is asserted; a read answers the DEVICE's byte; a program transaction leaves its
byte in `busD`. The lines are D34 and D35; `result` and the DEVICE's byte are log 8, log 2 and log 3. -/
def Obligations.BusTransactions : Prop :=
  ∀ (s : State) (v : Variant) (a : Addr), s.level = .transaction → s.bphase = .idle → s.busOk →
    s.desc = some v → a.toNat < (s.cfg.descriptor v).size →
      let lines : Addr := BitVec.ofNat 16 (a.toNat % 2 ^ (s.cfg.descriptor v).aw)
      exec (.busLatch a) s = .next { s with busA := lines, result := some .ok } ∧
      exec (.busRead a) s = .next { s.sample a with busA := lines, result := some (.byte (s.deviceByte a)) } ∧
      (∀ d, exec (.busProg a d) s = .next
        { s with busA := lines, busD := d, dev := s.dev.pulse a d, result := some .ok })

/-- R125: a bus request with no descriptor selected, or at an address outside the device, is refused by name. -/
def Obligations.BusPrecondition : Prop :=
  ∀ (s : State) (a : Addr),
    (s.desc = none ∨ ∃ v, s.desc = some v ∧ s.cfg.wf = true ∧ (s.cfg.descriptor v).size ≤ a.toNat) →
      exec (.busLatch a) s = .refused .busPrecondition ∧
      exec (.busRead a) s = .refused .busPrecondition ∧
      (∀ d, exec (.busProg a d) s = .refused .busPrecondition)

/-- R121, R123: the phases of each transaction, in order, with the hold of each. When data is driven and sampled is
D33. -/
def Obligations.PhaseSequences : Prop :=
  ∀ (d : Descriptor) (v : Variant) (a : Addr) (b : Byte),
    (seq d ⟨v, .latch, a, b⟩).map (fun p => (p.phase, p.hold)) =
      [(.addrSetup, d.hold.addrSetup), (.latchAssert, d.hold.latchAssert),
        (.latchDeassert, d.hold.latchDeassert)] ∧
    (seq d ⟨v, .read, a, b⟩).map (fun p => (p.phase, p.hold)) =
      [(.addrSetup, d.hold.addrSetup), (.latchAssert, d.hold.latchAssert),
        (.latchDeassert, d.hold.latchDeassert), (.enAssert, d.hold.enAssert),
        (.enDeassert, d.hold.enDeassert)] ∧
    (seq d ⟨v, .prog, a, b⟩).map (fun p => (p.phase, p.hold)) =
      [(.addrSetup, d.hold.addrSetup), (.latchAssert, d.hold.latchAssert),
        (.latchDeassert, d.hold.latchDeassert), (.pgmAssert, d.hold.pgmAssert),
        (.pgmDeassert, d.hold.pgmDeassert)]

/-- R124, R121: at the signal level a bus request on an idle bus begins its transaction: the action of ADDR_SETUP, at
the present time. The signal level as a field of the run is the model's (log 5), the data drive D33. -/
def Obligations.TransactionBegins : Prop :=
  ∀ (s : State) (v : Variant) (a : Addr), s.level = .signal → s.bphase = .idle → s.busOk →
    s.desc = some v → a.toNat < (s.cfg.descriptor v).size →
      let lines : Addr := BitVec.ofNat 16 (a.toNat % 2 ^ (s.cfg.descriptor v).aw)
      exec (.busLatch a) s = .next
        { s with busA := lines, bphase := .active ⟨v, .latch, a, 0#8⟩ .addrSetup s.now } ∧
      exec (.busRead a) s = .next
        { s with busA := lines, bphase := .active ⟨v, .read, a, 0#8⟩ .addrSetup s.now } ∧
      (∀ d, exec (.busProg a d) s = .next
        { s with busA := lines, busD := d, busOE := true
                 bphase := .active ⟨v, .prog, a, d⟩ .addrSetup s.now })

/-- R122, R165: no phase ends before its minimum hold has elapsed: a step that leaves phase `p` of a transaction,
other than a loss of power, is MAIN's turn and happens at a time not before `t0 + hold(v, p)`; before that MAIN's turn
changes nothing. That phases end at MAIN's turns, and that MAIN has the turn when no input is left, are the model's
(log 6, log 17). -/
def Obligations.HoldsAreMinimums : Prop :=
  ∀ (s u : State) (t : Txn) (p : Phase) (t0 : Nat), s.bphase = .active t p t0 →
    (∀ rest, s.inputs ≠ .power :: rest) → step s = .next u →
      (u.bphase ≠ s.bphase →
        t0 + (s.cfg.descriptor t.v).hold.of p ≤ s.now ∧ (s.inputs = [] ∨ ∃ rest, s.inputs = .main :: rest)) ∧
      (s.now < t0 + (s.cfg.descriptor t.v).hold.of p →
        (s.inputs = [] → u = s) ∧ (∀ rest, s.inputs = .main :: rest → u = { s with inputs := rest }))

/-- R9, R123, R124, R126 to R128: the signal level refines the transaction level. A bus request on an idle bus at the
signal level, with each phase lasting any time not shorter than its hold, ends in the state that the transaction level
reaches in one step, but for the time that has passed. Time passing only by `tick` and the turns are the model's (log
6, log 13, log 17). -/
def Obligations.SignalLevelRefinesTransactions : Prop :=
  ∀ (s u : State) (v : Variant) (i : Instr) (kind : TxnKind) (a : Addr) (d : Byte) (times : List Nat),
    (i, kind) ∈ [(Instr.busLatch a, TxnKind.latch), (.busRead a, .read), (.busProg a d, .prog)] →
    s.level = .signal → s.mfault = none → s.bphase = .idle → s.busOk → s.held = [] → s.dstate.onBus = false →
    s.desc = some v →
    exec i { s with level := .transaction } = .next u →
    List.Forall₂ (fun (ph : PhaseStep) dt => ph.hold ≤ dt) (seq (s.cfg.descriptor v) ⟨v, kind, a, d⟩) times →
      ∃ b, exec i s = .next b ∧
        timedRun times b = some { u with level := .signal, now := s.now + times.sum }

/-- R115, R124: the same for an iteration of `$READ` or `$BLANK`: MAIN begins the read in its check step, waits for
every phase, and then ends the iteration as the transaction level does in one step. The sub-state of the wait is the
model's (log 17). -/
def Obligations.SignalLevelRefinesTheScan : Prop :=
  ∀ (s u : State) (v : Variant) (c : Instr) (times : List Nat),
    (c, s.dstate) ∈ [(Instr.read, DState.exec (.read .check)), (.blank, .exec (.blank .check))] →
    s.level = .signal → s.mfault = none → s.bphase = .idle → s.busOk → s.held = [] → s.opActive = true →
    s.desc = some v →
    exec c { s with level := .transaction } = .next u →
    List.Forall₂ (fun (ph : PhaseStep) dt => ph.hold ≤ dt)
      (seq (s.cfg.descriptor v) ⟨v, .read, s.addr, 0#8⟩) times →
      ∃ b e, exec c s = .next b ∧ timedRun times b = some e ∧
        mainRun 1 e = some { u with level := .signal, now := s.now + times.sum }

/-- R117, R124: the same for step W2 of `$WRITE`, with its program transaction and its verify read, each of which MAIN
begins when the one before is over. The sub-states of the waits are the model's (log 17). -/
def Obligations.SignalLevelRefinesTheWrite : Prop :=
  ∀ (s u : State) (v : Variant) (d : Byte) (progTimes readTimes : List Nat),
    s.dstate = .exec (.write .w2) → s.level = .signal → s.mfault = none → s.bphase = .idle → s.busOk → s.held = [] →
    s.opActive = true → 0 < s.occ → s.desc = some v →
    payloadByte .highFirst s.hiCh (s.ringAt s.head) = some d →
    exec .write { s with level := .transaction } = .next u →
    List.Forall₂ (fun (ph : PhaseStep) dt => ph.hold ≤ dt)
      (seq (s.cfg.descriptor v) ⟨v, .prog, s.addr, d⟩) progTimes →
    List.Forall₂ (fun (ph : PhaseStep) dt => ph.hold ≤ dt)
      (seq (s.cfg.descriptor v) ⟨v, .read, s.addr, 0#8⟩) readTimes →
      ∃ b e f g, exec .write s = .next b ∧ timedRun progTimes b = some e ∧ mainRun 1 e = some f ∧
        timedRun readTimes f = some g ∧
        mainRun 1 g = some { u with level := .signal, now := s.now + progTimes.sum + readTimes.sum }

/-- R44, R128, as bytes of the simulated device: no instruction but `BUS.PROG` and `$WRITE` touches the device;
`BUS.PROG a, d` stores `d` at `a` and leaves every other byte; `$WRITE` leaves every byte but the one at the Address
Counter. The simulated device is R44's test agent (D36, log 3, log 22). -/
def Obligations.BytesOfTheSimulatedDevice : Prop :=
  ∀ (s t : State) (i : Instr), s.memoryOk → exec i s = .next t →
    ((∀ a d, i ≠ .busProg a d) → i ≠ .write → t.dev = s.dev) ∧
    (∀ a d m, i = .busProg a d → s.level = .transaction → s.bphase = .idle → s.dev = .sim m →
      ∃ m', t.dev = .sim m' ∧ ∀ k, Memory.read 0xFF#8 m' k = if k = a.toNat then d else Memory.read 0xFF#8 m k) ∧
    (∀ m, i = .write → s.dev = .sim m →
      ∃ m', t.dev = .sim m' ∧ ∀ k, k ≠ s.addr.toNat → Memory.read 0xFF#8 m' k = Memory.read 0xFF#8 m k)

/-- R120, R129: with the bus lines as the sequencer leaves them, at most one role is asserted; the pin of an asserted
role stands at its active level; every pin that carries no asserted role, and so every pin while none is asserted,
stands at its idle level. Pins, levels and idle levels are OPEN (D32, log 1). -/
def Obligations.ControlPins : Prop :=
  ∀ (s : State) (v : Variant), s.busOk → s.desc = some v →
    (∀ r q : Role, s.act r = true → s.act q = true → r = q) ∧
    (∀ r : Role, s.act r = true →
      s.pinLevel ((s.cfg.descriptor v).role.of r).pin = some ((s.cfg.descriptor v).role.of r).level) ∧
    (∀ p, (∀ r : Role, s.act r = true → ((s.cfg.descriptor v).role.of r).pin ≠ p) →
      s.pinLevel p = (s.cfg.descriptor v).idle[p]?)

/-- R26, R33: the flow-control line stands at `fcLevel` exactly when `stop` is asserted. With no `POPW` request
first among MAIN's outstanding ones, the indicator shows the idle pattern in `Idle`; in `$SETDEV`, W1 and W2 it
shows the wait exactly while the `POPW` there has no step, else the busy pattern; everywhere else the busy pattern.
With a `POPW` request first, it shows the wait while that has no step, else the pattern of the controller state. The
level is OPEN (D9), the three patterns are D41; what is shown with any request outstanding is the model's choice
(log 7, log 27). -/
def Obligations.OutputLines : Prop :=
  ∀ s : State,
    (s.flowLine = s.cfg.fcLevel ↔ s.stop = true) ∧
    ((∀ others, s.held ≠ .popw :: others) →
      (s.dstate = .idle → s.ind = .idleInd) ∧
      (s.dstate ∈ [DState.exec .setdev, .exec (.write .w1), .exec (.write .w2)] →
        s.ind = if s.occ = 0 ∧ s.opActive = true then .waitInd else .busyInd) ∧
      (s.dstate ≠ .idle → s.dstate ∉ [DState.exec .setdev, .exec (.write .w1), .exec (.write .w2)] →
        s.ind = .busyInd)) ∧
    (∀ others, s.held = .popw :: others →
      s.ind = if s.occ = 0 ∧ s.opActive = true then .waitInd
        else if s.dstate = .idle then .idleInd else .busyInd)

/-! ## Rules of the whole machine -/

/-- R82: the flow-control invariants are kept by every step, from every state that has them. The evaluation at pops
and `CLEAR` is D8. -/
def Obligations.FlowControlInvariant : Prop :=
  ∀ s t : State, s.flowOk → step s = .next t → t.flowOk

/-- R82: `stop` rises only when the occupancy goes from 992 to 993, and falls only when it goes from 32 to 31 or the
buffer is emptied. The evaluation at pops and `CLEAR` is D8. -/
def Obligations.StopEdges : Prop :=
  ∀ s t : State, s.flowOk → step s = .next t →
    (s.stop = false → t.stop = true → s.occ = 992 ∧ t.occ = 993) ∧
    (s.stop = true → t.stop = false → (s.occ = 32 ∧ t.occ = 31) ∨ t.occ = 0)

/-- R23, R44: every step keeps the byte stores in canonical form. The canonical form is the model's (log 21). -/
def Obligations.MemoryInvariant : Prop :=
  ∀ s t : State, s.memoryOk → step s = .next t → t.memoryOk

/-- R121, R125, R129: every step keeps the bus lines as the phase says: all roles deasserted and the data lines
released between transactions, one role at most and the data lines driven only for a program transaction inside one.
The idle state is D34. -/
def Obligations.BusLinesInvariant : Prop :=
  ∀ s t : State, s.busOk → step s = .next t → t.busOk

/-- R35, R36, R21, R147: every step but a loss of power only appends to the transmit stream and the event log; no step
changes the configuration or the modelling level; and a step that loses power gives the state at reset of that
configuration, with what is outside the block kept. What a loss of power keeps outside the block is the model's (log
11). -/
def Obligations.LogsOnlyGrow : Prop :=
  ∀ s t : State, step s = .next t →
    t.cfg = s.cfg ∧ t.level = s.level ∧
    ((∀ rest, s.inputs ≠ .power :: rest) →
      (∃ x, t.txLog = s.txLog ++ x) ∧ (∃ y, t.evLog = s.evLog ++ y) ∧ s.now ≤ t.now) ∧
    (∀ rest, s.inputs = .power :: rest →
      t = { State.powerOn s.cfg s.now with
            level := s.level, inputs := rest, dev := s.dev, draws := s.draws })

/-- R28, R92, R94: the Operation-Active Flag rises only in a receive step, which leaves the marker and a following
byte at the buffer head. What MAIN has outstanding stay requests of MAIN's (log 7). -/
def Obligations.FlagRisesOnlyOnAnEnvelope : Prop :=
  ∀ s t : State, s.heldOk → step s = .next t →
    t.heldOk ∧
    (s.opActive = false → t.opActive = true →
      (∃ b rest, s.inputs = .recv b true :: rest) ∧ t.ringAt t.head = 0x24#8 ∧ 1 < t.occ)

/-- R30, R108, R112: on the wire the Device Descriptor changes only when `$SETDEV` takes a code byte that is the
code of the variant selected, or when power comes back. -/
def Obligations.DescriptorChangesOnlyBySetdev : Prop :=
  ∀ s t : State, s.wireOnly → step s = .next t → t.desc ≠ s.desc →
    (∃ rest, s.inputs = .power :: rest ∧ t.desc = s.cfg.boot) ∨
    (s.dstate = .exec .setdev ∧ 0 < s.occ ∧ s.opActive = true ∧
      ∃ v, t.desc = some v ∧ (s.cfg.descriptor v).devCode = s.ringAt s.head)

/-- R54, R27: on the wire, a step that is not a receive step never counts a byte, and it leaves `tail` and every
byte of the ring unless it is the Cleanup step or power is lost. -/
def Obligations.MainLeavesTheWriteSide : Prop :=
  ∀ s t : State, s.wireOnly → step s = .next t → (∀ b ok rest, s.inputs ≠ .recv b ok :: rest) →
    (∀ rest, s.inputs ≠ .power :: rest) →
      t.rxCount = s.rxCount ∧ (s.dstate ≠ .cleanup → t.tail = s.tail ∧ ∀ i, t.ringAt i = s.ringAt i)

/-- R73, R156: in `Idle` with a byte other than the marker at the buffer head, no step but a loss of power changes
that: no command is recognized, the byte stays, and nothing is sent. No resynchronisation is D46. -/
def Obligations.StrayByteBlocks : Prop :=
  ∀ s t : State, s.wireOnly → s.memoryOk → s.bphase = .idle → s.dstate = .idle → s.opActive = false →
    0 < s.occ → s.ringAt s.head ≠ 0x24#8 → (∀ rest, s.inputs ≠ .power :: rest) → step s = .next t →
      t.dstate = .idle ∧ t.opActive = false ∧ 0 < t.occ ∧ t.head = s.head ∧
      t.ringAt t.head = s.ringAt s.head ∧ t.txLog = s.txLog ∧ t.bphase = .idle ∧ t.wireOnly ∧ t.memoryOk

/-- R95, R134, R125, with R82, R121: a session on the wire never stops. From every state in which the session's
properties hold, every step answers a next state (no fault, no refusal: Dispatching never meets an empty buffer, the
engine never issues a transaction its precondition refuses), and they hold again. The turns are the model's (log 6). -/
def Obligations.SessionNeverStops : Prop :=
  ∀ s : State, Session s → ∃ t, step s = .next t ∧ Session t

/-- R149: the values of the spec's elements at reset; `desc` is the boot descriptor, some A by default (D3). The
invariants hold there. The values of R149 are the spec's decisions D3 to D7, D10 and D34 (log 18). -/
def Obligations.ResetState : Prop :=
  Session State.reset ∧ State.reset.heldOk ∧
  (∀ i, State.reset.ringAt i = 0x00#8) ∧ State.reset.head = 0#10 ∧ State.reset.tail = 1023#10 ∧
  State.reset.occ = 0 ∧ State.reset.stop = false ∧ State.reset.rxCount = 0#32 ∧ State.reset.opActive = false ∧
  State.reset.dstate = .idle ∧ State.reset.desc = some .A ∧ State.reset.addr = 0#16 ∧
  State.reset.hiCh = 0#8 ∧ State.reset.wdata = 0#8 ∧ State.reset.ind = .idleInd ∧ State.reset.busA = 0#16 ∧
  State.reset.busD = 0#8 ∧ State.reset.busOE = false ∧ (∀ r, State.reset.act r = false) ∧
  State.reset.bphase = .idle ∧ State.reset.txLog = [] ∧ State.reset.evLog = [] ∧ State.reset.mfault = none

/-! ## Commands from end to end -/

/-- R98, R101, R103, R104, R105, R111, R167: with an envelope recognized in `Idle` and MAIN alone moving, `$IDENT`,
`$RESET` and `$BAUD` are back in `Idle` after 5 steps and an unknown opcode after 4, each with its own output, the
buffer empty and the flag false. The split into steps is D15, the one-step Cleanup D15 and D16, the text D19; what
`$RESET` and `$BAUD` do is D27 and D28; that MAIN's turns are inputs is the model's (log 6). -/
def Obligations.EnvelopeRunsToIdle : Prop :=
  ∀ (s : State) (op : Byte), Session s → s.dstate = .idle → s.opActive = true →
    s.ringAt (s.head + 1#10) = op →
      let done (str : Str) (evs : List Event) : State :=
        { s with head := 0#10, tail := 1023#10, ring := [], opActive := false, stop := false
                 dstate := .idle, txLog := s.txLog ++ str, evLog := s.evLog ++ evs }
      (op = 0x34#8 → mainRun 5 s = some (done (s.cfg.identLine s.desc) [])) ∧
      (op = 0x39#8 → mainRun 5 s = some (done [] [])) ∧
      (op = 0x55#8 → mainRun 5 s = some (done [] [.serialInit 0])) ∧
      (op ∉ knownOpcodes → mainRun 4 s = some (done Config.unknownLine []))

/-- R106, R118 (c), R164: once the flag is false at a check, at W1 or at W2, two steps of MAIN bring the block back to
`Idle`: the report `"aborted\n"` (after the line feed that closes an open row of `$READ`) and the Cleanup. The text is
D19, the closing line feed D22. -/
def Obligations.CancellationReturnsToIdle : Prop :=
  ∀ s : State, Session s → s.opActive = false →
    s.dstate ∈ [DState.exec (.read .check), .exec (.blank .check), .exec (.write .check),
      .exec (.write .w1), .exec (.write .w2)] →
      mainRun 2 s = some
        { s with head := 0#10, tail := 1023#10, ring := [], stop := false, dstate := .idle
                 txLog := s.txLog
                   ++ (if s.dstate = .exec (.read .check) ∧ s.addr.toNat % 16 ≠ 0 then [0x0A#8] else [])
                   ++ Config.abortLine }

/-- R115, R167: on the simulated device `m` of R44, `$READ` runs from its entry to Cleanup in `1 + size` steps of MAIN
and emits, for every address in order, its part of the rows; the device is unchanged and the counter ends at `size -
1`. The simulated device is D36 (log 3). -/
def Obligations.ReadEmitsTheDevice : Prop :=
  ∀ (s : State) (v : Variant) (m : Memory), Session s → s.dstate = .exec (.read .entry) →
    s.opActive = true → s.level = .transaction → s.desc = some v → s.dev = .sim m →
      ∃ t, mainRun (1 + (s.cfg.descriptor v).size) s = some t ∧ t.dstate = .cleanup ∧
        t.addr.toNat + 1 = (s.cfg.descriptor v).size ∧ t.dev = .sim m ∧ t.desc = some v ∧
        t.txLog = s.txLog ++ (List.range (s.cfg.descriptor v).size).flatMap
          (fun k => readChunk (s.cfg.descriptor v).size (BitVec.ofNat 16 k) (Memory.read 0xFF#8 m k))

/-- R116, R118 (b), R167: on the simulated device `m`, `$BLANK` reports `"OK\n"` after `1 + size` steps when every
byte of the device is 0xFF; when `k` is the first address whose byte is not, it reports that address and byte after `2
+ k` steps and reads no further address. The simulated device is D36 (log 3), the line feed D20. -/
def Obligations.BlankCheckVerdict : Prop :=
  ∀ (s : State) (v : Variant) (m : Memory), Session s → s.dstate = .exec (.blank .entry) →
    s.opActive = true → s.level = .transaction → s.desc = some v → s.dev = .sim m →
      ((∀ k < (s.cfg.descriptor v).size, Memory.read 0xFF#8 m k = 0xFF#8) →
        ∃ t, mainRun (1 + (s.cfg.descriptor v).size) s = some t ∧ t.dstate = .cleanup ∧
          t.txLog = s.txLog ++ [0x4F#8, 0x4B#8, 0x0A#8]) ∧
      (∀ k < (s.cfg.descriptor v).size, (∀ j < k, Memory.read 0xFF#8 m j = 0xFF#8) →
        Memory.read 0xFF#8 m k ≠ 0xFF#8 →
          ∃ t, mainRun (2 + k) s = some t ∧ t.dstate = .cleanup ∧ t.addr.toNat = k ∧ t.busQ = Memory.read 0xFF#8 m k ∧
            t.txLog = s.txLog ++ fmtAV (BitVec.ofNat 16 k) (Memory.read 0xFF#8 m k))

/-- R117, R118 (a), R167: write decode round trip. With the simulated device, and the payload of the whole device
waiting in the buffer as pairs of hex characters, `$WRITE` runs from its entry to Cleanup in `1 + 3 size` steps of
MAIN, answers `"OK\n"` and nothing else, and the device then holds the decoded byte of every pair. The simulated
device is D36 (log 3, log 22), the digit order D25. -/
def Obligations.WriteRoundTrip : Prop :=
  ∀ (s : State) (v : Variant) (m : Memory) (pairs : List (Byte × Byte)) (rest : Str),
    Session s → s.dstate = .exec (.write .entry) → s.opActive = true → s.level = .transaction →
    s.desc = some v → s.dev = .sim m → pairs.length = (s.cfg.descriptor v).size →
    (∀ p ∈ pairs, hexval p.1 ≠ none ∧ hexval p.2 ≠ none) →
    s.contents = pairs.flatMap (fun p => [p.1, p.2]) ++ rest →
      ∃ t m', mainRun (1 + 3 * (s.cfg.descriptor v).size) s = some t ∧ t.dstate = .cleanup ∧
        t.txLog = s.txLog ++ [0x4F#8, 0x4B#8, 0x0A#8] ∧ t.contents = rest ∧ t.dev = .sim m' ∧
        ∀ (k : Nat) (h : k < pairs.length),
          payloadByte .highFirst pairs[k].1 pairs[k].2 = some (Memory.read 0xFF#8 m' k)
end

