-- ==== Sys2Proof/Laws/State.lean ====
section
/-! SUPPORT. One lemma per field of the state and per named update: what the update leaves in the field. -/

namespace Sys2Proof.Machine

@[simp] theorem State.emit_cfg (s : State) (str : Str) : (s.emit str).cfg = s.cfg := rfl
@[simp] theorem State.emit_level (s : State) (str : Str) : (s.emit str).level = s.level := rfl
@[simp] theorem State.emit_ring (s : State) (str : Str) : (s.emit str).ring = s.ring := rfl
@[simp] theorem State.emit_head (s : State) (str : Str) : (s.emit str).head = s.head := rfl
@[simp] theorem State.emit_tail (s : State) (str : Str) : (s.emit str).tail = s.tail := rfl
@[simp] theorem State.emit_stop (s : State) (str : Str) : (s.emit str).stop = s.stop := rfl
@[simp] theorem State.emit_rxCount (s : State) (str : Str) : (s.emit str).rxCount = s.rxCount := rfl
@[simp] theorem State.emit_opActive (s : State) (str : Str) : (s.emit str).opActive = s.opActive := rfl
@[simp] theorem State.emit_dstate (s : State) (str : Str) : (s.emit str).dstate = s.dstate := rfl
@[simp] theorem State.emit_desc (s : State) (str : Str) : (s.emit str).desc = s.desc := rfl
@[simp] theorem State.emit_addr (s : State) (str : Str) : (s.emit str).addr = s.addr := rfl
@[simp] theorem State.emit_hiCh (s : State) (str : Str) : (s.emit str).hiCh = s.hiCh := rfl
@[simp] theorem State.emit_wdata (s : State) (str : Str) : (s.emit str).wdata = s.wdata := rfl
@[simp] theorem State.emit_busA (s : State) (str : Str) : (s.emit str).busA = s.busA := rfl
@[simp] theorem State.emit_busD (s : State) (str : Str) : (s.emit str).busD = s.busD := rfl
@[simp] theorem State.emit_busOE (s : State) (str : Str) : (s.emit str).busOE = s.busOE := rfl
@[simp] theorem State.emit_actLatch (s : State) (str : Str) : (s.emit str).actLatch = s.actLatch := rfl
@[simp] theorem State.emit_actEnable (s : State) (str : Str) : (s.emit str).actEnable = s.actEnable := rfl
@[simp] theorem State.emit_actProgram (s : State) (str : Str) : (s.emit str).actProgram = s.actProgram := rfl
@[simp] theorem State.emit_bphase (s : State) (str : Str) : (s.emit str).bphase = s.bphase := rfl
@[simp] theorem State.emit_txLog (s : State) (str : Str) : (s.emit str).txLog = s.txLog ++ str := rfl
@[simp] theorem State.emit_evLog (s : State) (str : Str) : (s.emit str).evLog = s.evLog := rfl
@[simp] theorem State.emit_mfault (s : State) (str : Str) : (s.emit str).mfault = s.mfault := rfl
@[simp] theorem State.emit_now (s : State) (str : Str) : (s.emit str).now = s.now := rfl
@[simp] theorem State.emit_inputs (s : State) (str : Str) : (s.emit str).inputs = s.inputs := rfl
@[simp] theorem State.emit_held (s : State) (str : Str) : (s.emit str).held = s.held := rfl
@[simp] theorem State.emit_result (s : State) (str : Str) : (s.emit str).result = s.result := rfl
@[simp] theorem State.emit_busQ (s : State) (str : Str) : (s.emit str).busQ = s.busQ := rfl
@[simp] theorem State.emit_dev (s : State) (str : Str) : (s.emit str).dev = s.dev := rfl
@[simp] theorem State.emit_draws (s : State) (str : Str) : (s.emit str).draws = s.draws := rfl

@[simp] theorem State.event_cfg (s : State) (e : Event) : (s.event e).cfg = s.cfg := rfl
@[simp] theorem State.event_level (s : State) (e : Event) : (s.event e).level = s.level := rfl
@[simp] theorem State.event_ring (s : State) (e : Event) : (s.event e).ring = s.ring := rfl
@[simp] theorem State.event_head (s : State) (e : Event) : (s.event e).head = s.head := rfl
@[simp] theorem State.event_tail (s : State) (e : Event) : (s.event e).tail = s.tail := rfl
@[simp] theorem State.event_stop (s : State) (e : Event) : (s.event e).stop = s.stop := rfl
@[simp] theorem State.event_rxCount (s : State) (e : Event) : (s.event e).rxCount = s.rxCount := rfl
@[simp] theorem State.event_opActive (s : State) (e : Event) : (s.event e).opActive = s.opActive := rfl
@[simp] theorem State.event_dstate (s : State) (e : Event) : (s.event e).dstate = s.dstate := rfl
@[simp] theorem State.event_desc (s : State) (e : Event) : (s.event e).desc = s.desc := rfl
@[simp] theorem State.event_addr (s : State) (e : Event) : (s.event e).addr = s.addr := rfl
@[simp] theorem State.event_hiCh (s : State) (e : Event) : (s.event e).hiCh = s.hiCh := rfl
@[simp] theorem State.event_wdata (s : State) (e : Event) : (s.event e).wdata = s.wdata := rfl
@[simp] theorem State.event_busA (s : State) (e : Event) : (s.event e).busA = s.busA := rfl
@[simp] theorem State.event_busD (s : State) (e : Event) : (s.event e).busD = s.busD := rfl
@[simp] theorem State.event_busOE (s : State) (e : Event) : (s.event e).busOE = s.busOE := rfl
@[simp] theorem State.event_actLatch (s : State) (e : Event) : (s.event e).actLatch = s.actLatch := rfl
@[simp] theorem State.event_actEnable (s : State) (e : Event) : (s.event e).actEnable = s.actEnable := rfl
@[simp] theorem State.event_actProgram (s : State) (e : Event) : (s.event e).actProgram = s.actProgram := rfl
@[simp] theorem State.event_bphase (s : State) (e : Event) : (s.event e).bphase = s.bphase := rfl
@[simp] theorem State.event_txLog (s : State) (e : Event) : (s.event e).txLog = s.txLog := rfl
@[simp] theorem State.event_evLog (s : State) (e : Event) : (s.event e).evLog = s.evLog ++ [e] := rfl
@[simp] theorem State.event_mfault (s : State) (e : Event) : (s.event e).mfault = s.mfault := rfl
@[simp] theorem State.event_now (s : State) (e : Event) : (s.event e).now = s.now := rfl
@[simp] theorem State.event_inputs (s : State) (e : Event) : (s.event e).inputs = s.inputs := rfl
@[simp] theorem State.event_held (s : State) (e : Event) : (s.event e).held = s.held := rfl
@[simp] theorem State.event_result (s : State) (e : Event) : (s.event e).result = s.result := rfl
@[simp] theorem State.event_busQ (s : State) (e : Event) : (s.event e).busQ = s.busQ := rfl
@[simp] theorem State.event_dev (s : State) (e : Event) : (s.event e).dev = s.dev := rfl
@[simp] theorem State.event_draws (s : State) (e : Event) : (s.event e).draws = s.draws := rfl

@[simp] theorem State.goto_cfg (s : State) (d : DState) : (s.goto d).cfg = s.cfg := rfl
@[simp] theorem State.goto_level (s : State) (d : DState) : (s.goto d).level = s.level := rfl
@[simp] theorem State.goto_ring (s : State) (d : DState) : (s.goto d).ring = s.ring := rfl
@[simp] theorem State.goto_head (s : State) (d : DState) : (s.goto d).head = s.head := rfl
@[simp] theorem State.goto_tail (s : State) (d : DState) : (s.goto d).tail = s.tail := rfl
@[simp] theorem State.goto_stop (s : State) (d : DState) : (s.goto d).stop = s.stop := rfl
@[simp] theorem State.goto_rxCount (s : State) (d : DState) : (s.goto d).rxCount = s.rxCount := rfl
@[simp] theorem State.goto_opActive (s : State) (d : DState) : (s.goto d).opActive = s.opActive := rfl
@[simp] theorem State.goto_dstate (s : State) (d : DState) : (s.goto d).dstate = d := rfl
@[simp] theorem State.goto_desc (s : State) (d : DState) : (s.goto d).desc = s.desc := rfl
@[simp] theorem State.goto_addr (s : State) (d : DState) : (s.goto d).addr = s.addr := rfl
@[simp] theorem State.goto_hiCh (s : State) (d : DState) : (s.goto d).hiCh = s.hiCh := rfl
@[simp] theorem State.goto_wdata (s : State) (d : DState) : (s.goto d).wdata = s.wdata := rfl
@[simp] theorem State.goto_busA (s : State) (d : DState) : (s.goto d).busA = s.busA := rfl
@[simp] theorem State.goto_busD (s : State) (d : DState) : (s.goto d).busD = s.busD := rfl
@[simp] theorem State.goto_busOE (s : State) (d : DState) : (s.goto d).busOE = s.busOE := rfl
@[simp] theorem State.goto_actLatch (s : State) (d : DState) : (s.goto d).actLatch = s.actLatch := rfl
@[simp] theorem State.goto_actEnable (s : State) (d : DState) : (s.goto d).actEnable = s.actEnable := rfl
@[simp] theorem State.goto_actProgram (s : State) (d : DState) : (s.goto d).actProgram = s.actProgram := rfl
@[simp] theorem State.goto_bphase (s : State) (d : DState) : (s.goto d).bphase = s.bphase := rfl
@[simp] theorem State.goto_txLog (s : State) (d : DState) : (s.goto d).txLog = s.txLog := rfl
@[simp] theorem State.goto_evLog (s : State) (d : DState) : (s.goto d).evLog = s.evLog := rfl
@[simp] theorem State.goto_mfault (s : State) (d : DState) : (s.goto d).mfault = s.mfault := rfl
@[simp] theorem State.goto_now (s : State) (d : DState) : (s.goto d).now = s.now := rfl
@[simp] theorem State.goto_inputs (s : State) (d : DState) : (s.goto d).inputs = s.inputs := rfl
@[simp] theorem State.goto_held (s : State) (d : DState) : (s.goto d).held = s.held := rfl
@[simp] theorem State.goto_result (s : State) (d : DState) : (s.goto d).result = s.result := rfl
@[simp] theorem State.goto_busQ (s : State) (d : DState) : (s.goto d).busQ = s.busQ := rfl
@[simp] theorem State.goto_dev (s : State) (d : DState) : (s.goto d).dev = s.dev := rfl
@[simp] theorem State.goto_draws (s : State) (d : DState) : (s.goto d).draws = s.draws := rfl

@[simp] theorem State.recordFault_cfg (s : State) (f : ModelFault) : (s.recordFault f).cfg = s.cfg := rfl
@[simp] theorem State.recordFault_level (s : State) (f : ModelFault) : (s.recordFault f).level = s.level := rfl
@[simp] theorem State.recordFault_ring (s : State) (f : ModelFault) : (s.recordFault f).ring = s.ring := rfl
@[simp] theorem State.recordFault_head (s : State) (f : ModelFault) : (s.recordFault f).head = s.head := rfl
@[simp] theorem State.recordFault_tail (s : State) (f : ModelFault) : (s.recordFault f).tail = s.tail := rfl
@[simp] theorem State.recordFault_stop (s : State) (f : ModelFault) : (s.recordFault f).stop = s.stop := rfl
@[simp] theorem State.recordFault_rxCount (s : State) (f : ModelFault) : (s.recordFault f).rxCount = s.rxCount := rfl
@[simp] theorem State.recordFault_opActive (s : State) (f : ModelFault) : (s.recordFault f).opActive = s.opActive := rfl
@[simp] theorem State.recordFault_dstate (s : State) (f : ModelFault) : (s.recordFault f).dstate = s.dstate := rfl
@[simp] theorem State.recordFault_desc (s : State) (f : ModelFault) : (s.recordFault f).desc = s.desc := rfl
@[simp] theorem State.recordFault_addr (s : State) (f : ModelFault) : (s.recordFault f).addr = s.addr := rfl
@[simp] theorem State.recordFault_hiCh (s : State) (f : ModelFault) : (s.recordFault f).hiCh = s.hiCh := rfl
@[simp] theorem State.recordFault_wdata (s : State) (f : ModelFault) : (s.recordFault f).wdata = s.wdata := rfl
@[simp] theorem State.recordFault_busA (s : State) (f : ModelFault) : (s.recordFault f).busA = s.busA := rfl
@[simp] theorem State.recordFault_busD (s : State) (f : ModelFault) : (s.recordFault f).busD = s.busD := rfl
@[simp] theorem State.recordFault_busOE (s : State) (f : ModelFault) : (s.recordFault f).busOE = s.busOE := rfl
@[simp] theorem State.recordFault_actLatch (s : State) (f : ModelFault) : (s.recordFault f).actLatch = s.actLatch := rfl
@[simp] theorem State.recordFault_actEnable (s : State) (f : ModelFault) : (s.recordFault f).actEnable = s.actEnable := rfl
@[simp] theorem State.recordFault_actProgram (s : State) (f : ModelFault) : (s.recordFault f).actProgram = s.actProgram := rfl
@[simp] theorem State.recordFault_bphase (s : State) (f : ModelFault) : (s.recordFault f).bphase = s.bphase := rfl
@[simp] theorem State.recordFault_txLog (s : State) (f : ModelFault) : (s.recordFault f).txLog = s.txLog := rfl
@[simp] theorem State.recordFault_evLog (s : State) (f : ModelFault) : (s.recordFault f).evLog = s.evLog := rfl
@[simp] theorem State.recordFault_mfault (s : State) (f : ModelFault) : (s.recordFault f).mfault = some (s.mfault.getD f) := rfl
@[simp] theorem State.recordFault_now (s : State) (f : ModelFault) : (s.recordFault f).now = s.now := rfl
@[simp] theorem State.recordFault_inputs (s : State) (f : ModelFault) : (s.recordFault f).inputs = s.inputs := rfl
@[simp] theorem State.recordFault_held (s : State) (f : ModelFault) : (s.recordFault f).held = s.held := rfl
@[simp] theorem State.recordFault_result (s : State) (f : ModelFault) : (s.recordFault f).result = s.result := rfl
@[simp] theorem State.recordFault_busQ (s : State) (f : ModelFault) : (s.recordFault f).busQ = s.busQ := rfl
@[simp] theorem State.recordFault_dev (s : State) (f : ModelFault) : (s.recordFault f).dev = s.dev := rfl
@[simp] theorem State.recordFault_draws (s : State) (f : ModelFault) : (s.recordFault f).draws = s.draws := rfl

@[simp] theorem State.answer_cfg (s : State) (r : PortResult) : (s.answer r).cfg = s.cfg := rfl
@[simp] theorem State.answer_level (s : State) (r : PortResult) : (s.answer r).level = s.level := rfl
@[simp] theorem State.answer_ring (s : State) (r : PortResult) : (s.answer r).ring = s.ring := rfl
@[simp] theorem State.answer_head (s : State) (r : PortResult) : (s.answer r).head = s.head := rfl
@[simp] theorem State.answer_tail (s : State) (r : PortResult) : (s.answer r).tail = s.tail := rfl
@[simp] theorem State.answer_stop (s : State) (r : PortResult) : (s.answer r).stop = s.stop := rfl
@[simp] theorem State.answer_rxCount (s : State) (r : PortResult) : (s.answer r).rxCount = s.rxCount := rfl
@[simp] theorem State.answer_opActive (s : State) (r : PortResult) : (s.answer r).opActive = s.opActive := rfl
@[simp] theorem State.answer_dstate (s : State) (r : PortResult) : (s.answer r).dstate = s.dstate := rfl
@[simp] theorem State.answer_desc (s : State) (r : PortResult) : (s.answer r).desc = s.desc := rfl
@[simp] theorem State.answer_addr (s : State) (r : PortResult) : (s.answer r).addr = s.addr := rfl
@[simp] theorem State.answer_hiCh (s : State) (r : PortResult) : (s.answer r).hiCh = s.hiCh := rfl
@[simp] theorem State.answer_wdata (s : State) (r : PortResult) : (s.answer r).wdata = s.wdata := rfl
@[simp] theorem State.answer_busA (s : State) (r : PortResult) : (s.answer r).busA = s.busA := rfl
@[simp] theorem State.answer_busD (s : State) (r : PortResult) : (s.answer r).busD = s.busD := rfl
@[simp] theorem State.answer_busOE (s : State) (r : PortResult) : (s.answer r).busOE = s.busOE := rfl
@[simp] theorem State.answer_actLatch (s : State) (r : PortResult) : (s.answer r).actLatch = s.actLatch := rfl
@[simp] theorem State.answer_actEnable (s : State) (r : PortResult) : (s.answer r).actEnable = s.actEnable := rfl
@[simp] theorem State.answer_actProgram (s : State) (r : PortResult) : (s.answer r).actProgram = s.actProgram := rfl
@[simp] theorem State.answer_bphase (s : State) (r : PortResult) : (s.answer r).bphase = s.bphase := rfl
@[simp] theorem State.answer_txLog (s : State) (r : PortResult) : (s.answer r).txLog = s.txLog := rfl
@[simp] theorem State.answer_evLog (s : State) (r : PortResult) : (s.answer r).evLog = s.evLog := rfl
@[simp] theorem State.answer_mfault (s : State) (r : PortResult) : (s.answer r).mfault = s.mfault := rfl
@[simp] theorem State.answer_now (s : State) (r : PortResult) : (s.answer r).now = s.now := rfl
@[simp] theorem State.answer_inputs (s : State) (r : PortResult) : (s.answer r).inputs = s.inputs := rfl
@[simp] theorem State.answer_held (s : State) (r : PortResult) : (s.answer r).held = s.held := rfl
@[simp] theorem State.answer_result (s : State) (r : PortResult) : (s.answer r).result = some r := rfl
@[simp] theorem State.answer_busQ (s : State) (r : PortResult) : (s.answer r).busQ = s.busQ := rfl
@[simp] theorem State.answer_dev (s : State) (r : PortResult) : (s.answer r).dev = s.dev := rfl
@[simp] theorem State.answer_draws (s : State) (r : PortResult) : (s.answer r).draws = s.draws := rfl

@[simp] theorem State.wait_cfg (s : State) (i : Instr) : (s.wait i).cfg = s.cfg := rfl
@[simp] theorem State.wait_level (s : State) (i : Instr) : (s.wait i).level = s.level := rfl
@[simp] theorem State.wait_ring (s : State) (i : Instr) : (s.wait i).ring = s.ring := rfl
@[simp] theorem State.wait_head (s : State) (i : Instr) : (s.wait i).head = s.head := rfl
@[simp] theorem State.wait_tail (s : State) (i : Instr) : (s.wait i).tail = s.tail := rfl
@[simp] theorem State.wait_stop (s : State) (i : Instr) : (s.wait i).stop = s.stop := rfl
@[simp] theorem State.wait_rxCount (s : State) (i : Instr) : (s.wait i).rxCount = s.rxCount := rfl
@[simp] theorem State.wait_opActive (s : State) (i : Instr) : (s.wait i).opActive = s.opActive := rfl
@[simp] theorem State.wait_dstate (s : State) (i : Instr) : (s.wait i).dstate = s.dstate := rfl
@[simp] theorem State.wait_desc (s : State) (i : Instr) : (s.wait i).desc = s.desc := rfl
@[simp] theorem State.wait_addr (s : State) (i : Instr) : (s.wait i).addr = s.addr := rfl
@[simp] theorem State.wait_hiCh (s : State) (i : Instr) : (s.wait i).hiCh = s.hiCh := rfl
@[simp] theorem State.wait_wdata (s : State) (i : Instr) : (s.wait i).wdata = s.wdata := rfl
@[simp] theorem State.wait_busA (s : State) (i : Instr) : (s.wait i).busA = s.busA := rfl
@[simp] theorem State.wait_busD (s : State) (i : Instr) : (s.wait i).busD = s.busD := rfl
@[simp] theorem State.wait_busOE (s : State) (i : Instr) : (s.wait i).busOE = s.busOE := rfl
@[simp] theorem State.wait_actLatch (s : State) (i : Instr) : (s.wait i).actLatch = s.actLatch := rfl
@[simp] theorem State.wait_actEnable (s : State) (i : Instr) : (s.wait i).actEnable = s.actEnable := rfl
@[simp] theorem State.wait_actProgram (s : State) (i : Instr) : (s.wait i).actProgram = s.actProgram := rfl
@[simp] theorem State.wait_bphase (s : State) (i : Instr) : (s.wait i).bphase = s.bphase := rfl
@[simp] theorem State.wait_txLog (s : State) (i : Instr) : (s.wait i).txLog = s.txLog := rfl
@[simp] theorem State.wait_evLog (s : State) (i : Instr) : (s.wait i).evLog = s.evLog := rfl
@[simp] theorem State.wait_mfault (s : State) (i : Instr) : (s.wait i).mfault = s.mfault := rfl
@[simp] theorem State.wait_now (s : State) (i : Instr) : (s.wait i).now = s.now := rfl
@[simp] theorem State.wait_inputs (s : State) (i : Instr) : (s.wait i).inputs = s.inputs := rfl
@[simp] theorem State.wait_held (s : State) (i : Instr) : (s.wait i).held = i :: s.held := rfl
@[simp] theorem State.wait_result (s : State) (i : Instr) : (s.wait i).result = s.result := rfl
@[simp] theorem State.wait_busQ (s : State) (i : Instr) : (s.wait i).busQ = s.busQ := rfl
@[simp] theorem State.wait_dev (s : State) (i : Instr) : (s.wait i).dev = s.dev := rfl
@[simp] theorem State.wait_draws (s : State) (i : Instr) : (s.wait i).draws = s.draws := rfl

@[simp] theorem State.select_cfg (s : State) (v : Variant) : (s.select v).cfg = s.cfg := rfl
@[simp] theorem State.select_level (s : State) (v : Variant) : (s.select v).level = s.level := rfl
@[simp] theorem State.select_ring (s : State) (v : Variant) : (s.select v).ring = s.ring := rfl
@[simp] theorem State.select_head (s : State) (v : Variant) : (s.select v).head = s.head := rfl
@[simp] theorem State.select_tail (s : State) (v : Variant) : (s.select v).tail = s.tail := rfl
@[simp] theorem State.select_stop (s : State) (v : Variant) : (s.select v).stop = s.stop := rfl
@[simp] theorem State.select_rxCount (s : State) (v : Variant) : (s.select v).rxCount = s.rxCount := rfl
@[simp] theorem State.select_opActive (s : State) (v : Variant) : (s.select v).opActive = s.opActive := rfl
@[simp] theorem State.select_dstate (s : State) (v : Variant) : (s.select v).dstate = s.dstate := rfl
@[simp] theorem State.select_desc (s : State) (v : Variant) : (s.select v).desc = some v := rfl
@[simp] theorem State.select_addr (s : State) (v : Variant) : (s.select v).addr = s.addr := rfl
@[simp] theorem State.select_hiCh (s : State) (v : Variant) : (s.select v).hiCh = s.hiCh := rfl
@[simp] theorem State.select_wdata (s : State) (v : Variant) : (s.select v).wdata = s.wdata := rfl
@[simp] theorem State.select_busA (s : State) (v : Variant) : (s.select v).busA = s.busA := rfl
@[simp] theorem State.select_busD (s : State) (v : Variant) : (s.select v).busD = s.busD := rfl
@[simp] theorem State.select_busOE (s : State) (v : Variant) : (s.select v).busOE = s.busOE := rfl
@[simp] theorem State.select_actLatch (s : State) (v : Variant) : (s.select v).actLatch = s.actLatch := rfl
@[simp] theorem State.select_actEnable (s : State) (v : Variant) : (s.select v).actEnable = s.actEnable := rfl
@[simp] theorem State.select_actProgram (s : State) (v : Variant) : (s.select v).actProgram = s.actProgram := rfl
@[simp] theorem State.select_bphase (s : State) (v : Variant) : (s.select v).bphase = s.bphase := rfl
@[simp] theorem State.select_txLog (s : State) (v : Variant) : (s.select v).txLog = s.txLog := rfl
@[simp] theorem State.select_evLog (s : State) (v : Variant) : (s.select v).evLog = s.evLog := rfl
@[simp] theorem State.select_mfault (s : State) (v : Variant) : (s.select v).mfault = s.mfault := rfl
@[simp] theorem State.select_now (s : State) (v : Variant) : (s.select v).now = s.now := rfl
@[simp] theorem State.select_inputs (s : State) (v : Variant) : (s.select v).inputs = s.inputs := rfl
@[simp] theorem State.select_held (s : State) (v : Variant) : (s.select v).held = s.held := rfl
@[simp] theorem State.select_result (s : State) (v : Variant) : (s.select v).result = s.result := rfl
@[simp] theorem State.select_busQ (s : State) (v : Variant) : (s.select v).busQ = s.busQ := rfl
@[simp] theorem State.select_dev (s : State) (v : Variant) : (s.select v).dev = s.dev := rfl
@[simp] theorem State.select_draws (s : State) (v : Variant) : (s.select v).draws = s.draws := rfl

@[simp] theorem State.flowControl_cfg (s : State) : (s.flowControl).cfg = s.cfg := rfl
@[simp] theorem State.flowControl_level (s : State) : (s.flowControl).level = s.level := rfl
@[simp] theorem State.flowControl_ring (s : State) : (s.flowControl).ring = s.ring := rfl
@[simp] theorem State.flowControl_head (s : State) : (s.flowControl).head = s.head := rfl
@[simp] theorem State.flowControl_tail (s : State) : (s.flowControl).tail = s.tail := rfl
@[simp] theorem State.flowControl_stop (s : State) : (s.flowControl).stop = fcEval s.occ s.stop := rfl
@[simp] theorem State.flowControl_rxCount (s : State) : (s.flowControl).rxCount = s.rxCount := rfl
@[simp] theorem State.flowControl_opActive (s : State) : (s.flowControl).opActive = s.opActive := rfl
@[simp] theorem State.flowControl_dstate (s : State) : (s.flowControl).dstate = s.dstate := rfl
@[simp] theorem State.flowControl_desc (s : State) : (s.flowControl).desc = s.desc := rfl
@[simp] theorem State.flowControl_addr (s : State) : (s.flowControl).addr = s.addr := rfl
@[simp] theorem State.flowControl_hiCh (s : State) : (s.flowControl).hiCh = s.hiCh := rfl
@[simp] theorem State.flowControl_wdata (s : State) : (s.flowControl).wdata = s.wdata := rfl
@[simp] theorem State.flowControl_busA (s : State) : (s.flowControl).busA = s.busA := rfl
@[simp] theorem State.flowControl_busD (s : State) : (s.flowControl).busD = s.busD := rfl
@[simp] theorem State.flowControl_busOE (s : State) : (s.flowControl).busOE = s.busOE := rfl
@[simp] theorem State.flowControl_actLatch (s : State) : (s.flowControl).actLatch = s.actLatch := rfl
@[simp] theorem State.flowControl_actEnable (s : State) : (s.flowControl).actEnable = s.actEnable := rfl
@[simp] theorem State.flowControl_actProgram (s : State) : (s.flowControl).actProgram = s.actProgram := rfl
@[simp] theorem State.flowControl_bphase (s : State) : (s.flowControl).bphase = s.bphase := rfl
@[simp] theorem State.flowControl_txLog (s : State) : (s.flowControl).txLog = s.txLog := rfl
@[simp] theorem State.flowControl_evLog (s : State) : (s.flowControl).evLog = s.evLog := rfl
@[simp] theorem State.flowControl_mfault (s : State) : (s.flowControl).mfault = s.mfault := rfl
@[simp] theorem State.flowControl_now (s : State) : (s.flowControl).now = s.now := rfl
@[simp] theorem State.flowControl_inputs (s : State) : (s.flowControl).inputs = s.inputs := rfl
@[simp] theorem State.flowControl_held (s : State) : (s.flowControl).held = s.held := rfl
@[simp] theorem State.flowControl_result (s : State) : (s.flowControl).result = s.result := rfl
@[simp] theorem State.flowControl_busQ (s : State) : (s.flowControl).busQ = s.busQ := rfl
@[simp] theorem State.flowControl_dev (s : State) : (s.flowControl).dev = s.dev := rfl
@[simp] theorem State.flowControl_draws (s : State) : (s.flowControl).draws = s.draws := rfl

/-! ## Derived reads -/

@[simp] theorem State.emit_occ (s : State) (str : Str) : (s.emit str).occ = s.occ := rfl
@[simp] theorem State.emit_ringAt (s : State) (str : Str) (j : Index) : (s.emit str).ringAt j = s.ringAt j := rfl
@[simp] theorem State.emit_descriptor (s : State) (str : Str) : (s.emit str).descriptor = s.descriptor := rfl
@[simp] theorem State.emit_deviceByte (s : State) (str : Str) (a : Addr) : (s.emit str).deviceByte a = s.deviceByte a := rfl
@[simp] theorem State.event_occ (s : State) (e : Event) : (s.event e).occ = s.occ := rfl
@[simp] theorem State.event_ringAt (s : State) (e : Event) (j : Index) : (s.event e).ringAt j = s.ringAt j := rfl
@[simp] theorem State.event_descriptor (s : State) (e : Event) : (s.event e).descriptor = s.descriptor := rfl
@[simp] theorem State.event_deviceByte (s : State) (e : Event) (a : Addr) : (s.event e).deviceByte a = s.deviceByte a := rfl
@[simp] theorem State.goto_occ (s : State) (d : DState) : (s.goto d).occ = s.occ := rfl
@[simp] theorem State.goto_ringAt (s : State) (d : DState) (j : Index) : (s.goto d).ringAt j = s.ringAt j := rfl
@[simp] theorem State.goto_descriptor (s : State) (d : DState) : (s.goto d).descriptor = s.descriptor := rfl
@[simp] theorem State.goto_deviceByte (s : State) (d : DState) (a : Addr) : (s.goto d).deviceByte a = s.deviceByte a := rfl
@[simp] theorem State.recordFault_occ (s : State) (f : ModelFault) : (s.recordFault f).occ = s.occ := rfl
@[simp] theorem State.recordFault_ringAt (s : State) (f : ModelFault) (j : Index) : (s.recordFault f).ringAt j = s.ringAt j := rfl
@[simp] theorem State.recordFault_descriptor (s : State) (f : ModelFault) : (s.recordFault f).descriptor = s.descriptor := rfl
@[simp] theorem State.recordFault_deviceByte (s : State) (f : ModelFault) (a : Addr) : (s.recordFault f).deviceByte a = s.deviceByte a := rfl
@[simp] theorem State.answer_occ (s : State) (r : PortResult) : (s.answer r).occ = s.occ := rfl
@[simp] theorem State.answer_ringAt (s : State) (r : PortResult) (j : Index) : (s.answer r).ringAt j = s.ringAt j := rfl
@[simp] theorem State.answer_descriptor (s : State) (r : PortResult) : (s.answer r).descriptor = s.descriptor := rfl
@[simp] theorem State.answer_deviceByte (s : State) (r : PortResult) (a : Addr) : (s.answer r).deviceByte a = s.deviceByte a := rfl
@[simp] theorem State.wait_occ (s : State) (i : Instr) : (s.wait i).occ = s.occ := rfl
@[simp] theorem State.wait_ringAt (s : State) (i : Instr) (j : Index) : (s.wait i).ringAt j = s.ringAt j := rfl
@[simp] theorem State.wait_descriptor (s : State) (i : Instr) : (s.wait i).descriptor = s.descriptor := rfl
@[simp] theorem State.wait_deviceByte (s : State) (i : Instr) (a : Addr) : (s.wait i).deviceByte a = s.deviceByte a := rfl
@[simp] theorem State.select_occ (s : State) (v : Variant) : (s.select v).occ = s.occ := rfl
@[simp] theorem State.select_ringAt (s : State) (v : Variant) (j : Index) : (s.select v).ringAt j = s.ringAt j := rfl
@[simp] theorem State.select_deviceByte (s : State) (v : Variant) (a : Addr) : (s.select v).deviceByte a = s.deviceByte a := rfl
@[simp] theorem State.flowControl_occ (s : State) : (s.flowControl).occ = s.occ := rfl
@[simp] theorem State.flowControl_ringAt (s : State) (j : Index) : (s.flowControl).ringAt j = s.ringAt j := rfl
@[simp] theorem State.flowControl_descriptor (s : State) : (s.flowControl).descriptor = s.descriptor := rfl
@[simp] theorem State.flowControl_deviceByte (s : State) (a : Addr) : (s.flowControl).deviceByte a = s.deviceByte a := rfl

@[simp] theorem State.select_descriptor (s : State) (v : Variant) :
    (s.select v).descriptor = some (s.cfg.descriptor v) := rfl

/-- Ending a command is its output and Cleanup. -/
theorem State.finish_eq (s : State) (str : Str) :
    s.finish str = { s with txLog := s.txLog ++ str, dstate := .cleanup } := rfl

/-- An error with a response line is that line and Cleanup. -/
theorem State.report_of_line (s : State) (e : ErrorCode) (b : Byte) (l : Str) (h : e.line s.addr b = some l) :
    s.report e b = { s with txLog := s.txLog ++ l, dstate := .cleanup } := by
  simp [State.report, h, State.emit, State.goto]

/-- Reporting an error changes the transmit stream and the controller state only. -/
theorem State.report_frame (s : State) (e : ErrorCode) (b : Byte) :
    s.report e b = { s with txLog := (s.report e b).txLog, dstate := .cleanup } := rfl

@[simp] theorem State.emit_nil (s : State) : s.emit [] = s := by simp [State.emit]

end Sys2Proof.Machine
end

