-- ==== Sys2Proof/Laws/Memory.lean ====
section
/-! SUPPORT. The laws of byte stores: a read after a write, and that every operation keeps the canonical form. -/

namespace Sys2Proof.Machine

theorem Memory.wfFrom_mono {dflt : Byte} {m : Memory} {lo lo' : Nat} (h : lo' ≤ lo)
    (hm : Memory.wfFrom dflt lo m = true) : Memory.wfFrom dflt lo' m = true := by
  cases m with
  | nil => rfl
  | cons c m =>
    simp only [Memory.wfFrom, Bool.and_eq_true, decide_eq_true_eq] at hm ⊢
    exact ⟨⟨le_trans h hm.1.1, hm.1.2⟩, hm.2⟩

/-- An address below every listed one is unlisted. -/
theorem Memory.read_below {dflt : Byte} {m : Memory} {lo a : Nat} (hm : Memory.wfFrom dflt lo m = true)
    (h : a < lo) : Memory.read dflt m a = dflt := by
  induction m generalizing lo with
  | nil => rfl
  | cons c m ih =>
    simp only [Memory.wfFrom, Bool.and_eq_true, decide_eq_true_eq] at hm
    rw [Memory.read, if_neg (by omega)]
    exact ih hm.2 (by omega)

theorem Memory.read_insert {dflt : Byte} (m : Memory) (a b : Nat) (v : Byte) :
    Memory.read dflt (Memory.insert m a v) b = if a = b then v else Memory.read dflt m b := by
  induction m with
  | nil => rfl
  | cons c m ih =>
    simp only [Memory.insert]
    split
    · simp only [Memory.read]
    · split
      · rename_i h; subst h; simp only [Memory.read]; split <;> simp_all
      · simp only [Memory.read, ih]
        split
        · split <;> simp_all
        · rfl

theorem Memory.read_erase {dflt : Byte} {m : Memory} {lo : Nat} (hm : Memory.wfFrom dflt lo m = true)
    (a b : Nat) :
    Memory.read dflt (Memory.erase m a) b = if a = b then dflt else Memory.read dflt m b := by
  induction m generalizing lo with
  | nil => simp [Memory.erase, Memory.read]
  | cons c m ih =>
    simp only [Memory.wfFrom, Bool.and_eq_true, decide_eq_true_eq] at hm
    simp only [Memory.erase]
    split
    · rename_i h
      subst h
      by_cases hb : c.1 = b
      · subst hb; rw [if_pos rfl]; exact Memory.read_below hm.2 (by omega)
      · rw [if_neg hb, Memory.read, if_neg hb]
    · simp only [Memory.read, ih hm.2]
      split
      · rw [if_neg (by omega)]
      · rfl

/-- A read after a write gives the byte written at its address and the old byte elsewhere. -/
theorem Memory.read_write {dflt : Byte} {m : Memory} (hm : Memory.wf dflt m = true) (a b : Nat) (v : Byte) :
    Memory.read dflt (Memory.write dflt m a v) b = if a = b then v else Memory.read dflt m b := by
  simp only [Memory.write]
  split
  · rename_i h; rw [Memory.read_erase hm, h]
  · exact Memory.read_insert m a b v

theorem Memory.wfFrom_insert {dflt : Byte} {m : Memory} {lo a : Nat} {v : Byte}
    (hm : Memory.wfFrom dflt lo m = true) (ha : lo ≤ a) (hv : v ≠ dflt) :
    Memory.wfFrom dflt lo (Memory.insert m a v) = true := by
  induction m generalizing lo with
  | nil => simp [Memory.insert, Memory.wfFrom, ha, hv]
  | cons c m ih =>
    simp only [Memory.wfFrom, Bool.and_eq_true, decide_eq_true_eq] at hm
    simp only [Memory.insert]
    split
    · simp [Memory.wfFrom, ha, hv, hm.2, hm.1.2]; omega
    · split
      · rename_i h; subst h; simp [Memory.wfFrom, ha, hv, hm.2]
      · simp [Memory.wfFrom, hm.1.1, hm.1.2]
        exact ih hm.2 (by omega)

theorem Memory.wfFrom_erase {dflt : Byte} {m : Memory} {lo : Nat} (a : Nat)
    (hm : Memory.wfFrom dflt lo m = true) : Memory.wfFrom dflt lo (Memory.erase m a) = true := by
  induction m generalizing lo with
  | nil => rfl
  | cons c m ih =>
    simp only [Memory.wfFrom, Bool.and_eq_true, decide_eq_true_eq] at hm
    simp only [Memory.erase]
    split
    · exact Memory.wfFrom_mono (by omega) hm.2
    · simp [Memory.wfFrom, hm.1.1, hm.1.2, ih hm.2]

/-- A write keeps the canonical form. -/
theorem Memory.wf_write {dflt : Byte} {m : Memory} (hm : Memory.wf dflt m = true) (a : Nat) (v : Byte) :
    Memory.wf dflt (Memory.write dflt m a v) = true := by
  simp only [Memory.write]
  split
  · exact Memory.wfFrom_erase a hm
  · rename_i h; exact Memory.wfFrom_insert hm (Nat.zero_le _) h

theorem Memory.below_insert {n : Nat} {m : Memory} {a : Nat} {v : Byte} (hm : Memory.below n m = true)
    (ha : a < n) : Memory.below n (Memory.insert m a v) = true := by
  induction m with
  | nil => simp [Memory.insert, Memory.below, ha]
  | cons c m ih =>
    simp only [Memory.below, List.all_cons, Bool.and_eq_true] at hm ih ⊢
    simp only [Memory.insert]
    split
    · simp only [List.all_cons, Bool.and_eq_true, decide_eq_true_eq]
      exact ⟨ha, by simpa using hm.1, hm.2⟩
    · split
      · simp only [List.all_cons, Bool.and_eq_true, decide_eq_true_eq]
        exact ⟨ha, hm.2⟩
      · simp only [List.all_cons, Bool.and_eq_true]; exact ⟨hm.1, ih hm.2⟩

theorem Memory.below_erase {n : Nat} {m : Memory} (a : Nat) (hm : Memory.below n m = true) :
    Memory.below n (Memory.erase m a) = true := by
  induction m with
  | nil => rfl
  | cons c m ih =>
    simp only [Memory.below, List.all_cons, Bool.and_eq_true] at hm ih ⊢
    simp only [Memory.erase]
    split
    · exact hm.2
    · simp only [List.all_cons, Bool.and_eq_true]; exact ⟨hm.1, ih hm.2⟩

/-- A write at an address below `n` lists no address from `n` on. -/
theorem Memory.below_write {dflt : Byte} {n : Nat} {m : Memory} {a : Nat} (v : Byte)
    (hm : Memory.below n m = true) (ha : a < n) : Memory.below n (Memory.write dflt m a v) = true := by
  simp only [Memory.write]
  split
  · exact Memory.below_erase a hm
  · exact Memory.below_insert hm ha

/-- Two stores in canonical form that read the same everywhere are the same list. -/
theorem Memory.ext_of_read {dflt : Byte} {m n : Memory} {lo : Nat} (hm : Memory.wfFrom dflt lo m = true)
    (hn : Memory.wfFrom dflt lo n = true) (h : ∀ a, Memory.read dflt m a = Memory.read dflt n a) : m = n := by
  induction m generalizing lo n with
  | nil =>
    cases n with
    | nil => rfl
    | cons c n =>
      simp only [Memory.wfFrom, Bool.and_eq_true, bne_iff_ne, ne_eq] at hn
      have := h c.1
      simp only [Memory.read, if_pos] at this
      exact absurd this.symm hn.1.2
  | cons c m ih =>
    simp only [Memory.wfFrom, Bool.and_eq_true, bne_iff_ne, ne_eq, decide_eq_true_eq] at hm
    cases n with
    | nil =>
      have := h c.1
      simp only [Memory.read, if_pos] at this
      exact absurd this hm.1.2
    | cons e n =>
      simp only [Memory.wfFrom, Bool.and_eq_true, bne_iff_ne, ne_eq, decide_eq_true_eq] at hn
      have hk : c.1 = e.1 := by
        by_contra hne
        rcases Nat.lt_or_gt_of_ne hne with hlt | hlt
        · have := h c.1
          simp only [Memory.read, if_pos, if_neg (show ¬ e.1 = c.1 by omega)] at this
          rw [Memory.read_below hn.2 (by omega)] at this
          exact hm.1.2 this
        · have := h e.1
          simp only [Memory.read, if_pos, if_neg (show ¬ c.1 = e.1 by omega)] at this
          rw [Memory.read_below hm.2 (by omega)] at this
          exact hn.1.2 this.symm
      have hv : c.2 = e.2 := by
        have := h c.1
        simpa only [Memory.read, if_pos, if_pos hk.symm] using this
      have ht : m = n := by
        refine ih (lo := c.1 + 1) hm.2 (hk ▸ hn.2) (fun a => ?_)
        by_cases ha : c.1 = a
        · rw [Memory.read_below hm.2 (by omega), Memory.read_below hn.2 (by omega)]
        · have := h a
          simpa only [Memory.read, if_neg ha, if_neg (hk ▸ ha)] using this
      rw [ht, show c = e from Prod.ext hk hv]

end Sys2Proof.Machine
end

