-- ==== Sys2Proof/Laws/Fifo.lean ====
section
/-! SUPPORT. The laws of the FIFO operations: occupancy arithmetic (R79), and for each operation everything it can do
(R84 to R89, R92, R83, R103). -/

namespace Sys2Proof.Machine

/-! ## Occupancy -/

/-- R79, on numbers. -/
theorem occupancy_eq (h t : Index) : occupancy h t = (t.toNat + 1024 - h.toNat + 1) % 1024 := by
  simp only [occupancy, BitVec.toNat_add, BitVec.toNat_sub]
  have := h.isLt; have := t.isLt
  simp only [BitVec.toNat_ofNat]; omega

theorem occ_le (s : State) : s.occ ≤ 1023 := by
  have := occupancy_eq s.head s.tail
  simp only [State.occ]; omega

/-- R79: the buffer is empty when the next index after `tail` is `head`. -/
theorem occ_eq_zero_iff (s : State) : s.occ = 0 ↔ s.tail + 1#10 = s.head := by
  simp only [State.occ, occupancy]
  constructor <;> intro h <;> bv_omega

/-- R79: the buffer is full when the second index after `tail` is `head`. -/
theorem full_iff (s : State) : s.full = true ↔ s.occ = 1023 := by
  simp only [State.full, State.occ, occupancy, beq_iff_eq]
  constructor <;> intro h <;> bv_omega

theorem full_eq_false_iff (s : State) : s.full = false ↔ s.occ ≠ 1023 := by
  rw [← Bool.not_eq_true, full_iff]

/-- R91: one more byte. -/
theorem occupancy_push {h t : Index} (hf : occupancy h t ≠ 1023) :
    occupancy h (t + 1#10) = occupancy h t + 1 := by
  simp only [occupancy] at *; bv_omega

/-- R91: one byte less. -/
theorem occupancy_take {h t : Index} (hf : occupancy h t ≠ 0) :
    occupancy (h + 1#10) t = occupancy h t - 1 := by
  simp only [occupancy] at *; bv_omega

/-! ## Flow control -/

/-- R80 with the numbers of R10. -/
theorem fcEval_eq (o : Nat) (stop : Bool) :
    fcEval o stop = if 992 < o then true else if o < 32 then false else stop := rfl

/-- R80: idempotent. -/
@[simp] theorem fcEval_idem (o : Nat) (b : Bool) : fcEval o (fcEval o b) = fcEval o b := by
  simp only [fcEval]; split <;> [rfl; (split <;> rfl)]

theorem fcEval_zero (b : Bool) : fcEval 0 b = false := rfl

/-- R80, R82: after an evaluation the signal agrees with the occupancy. -/
theorem flowControl_ok (s : State) : s.flowControl.flowOk := by
  simp only [State.flowOk, State.flowControl_occ, State.flowControl_stop, fcEval_eq]
  constructor <;> intro h
  · exact if_pos h
  · have h : _ < 32 := h
    rw [if_neg (by omega), if_pos h]

/-- R88: where the invariant holds, an evaluation changes nothing. -/
theorem flowControl_of_ok {s : State} (h : s.flowOk) : s.flowControl = s := by
  have : fcEval s.occ s.stop = s.stop := by
    simp only [fcEval]
    split
    · exact (h.1 ‹_›).symm
    · split
      · exact (h.2 ‹_›).symm
      · rfl
  simp [State.flowControl, this]

/-! ## The operations -/

/-- The state after a successful append (R84). -/
def State.appended (b : Byte) (s : State) : State :=
  { s with tail := s.tail + 1#10
           ring := Memory.write 0x00#8 s.ring (s.tail + 1#10).toNat b
           rxCount := s.rxCount + 1#32
           stop := fcEval (s.occ + 1) s.stop }

/-- The state after a removal (R85). -/
def State.removed (s : State) : State :=
  { s with head := s.head + 1#10, stop := fcEval (s.occ - 1) s.stop }

/-- The state after `CLEAR` (R89). -/
def State.cleared (s : State) : State :=
  { s with head := 0#10, tail := 1023#10, ring := [], opActive := false, stop := false }

theorem push_full {s : State} (b : Byte) (h : s.occ = 1023) : s.push b = (.error .bufferOverflow, s) := by
  simp [State.push, (full_iff s).2 h]

theorem push_room {s : State} (b : Byte) (h : s.occ ≠ 1023) : s.push b = (.ok (), s.appended b) := by
  simp only [State.push, (full_eq_false_iff s).2 h, State.appended, State.flowControl, State.occ]
  rw [occupancy_push h]; rfl

theorem take_eq {s : State} (h : s.occ ≠ 0) : s.take = (.ok (s.ringAt s.head), s.removed) := by
  simp only [State.take, State.removed, State.flowControl, State.occ]
  rw [occupancy_take h]

theorem pop_empty {s : State} (h : s.occ = 0) : s.pop = (.error .bufferUnderflow, s) := by simp [State.pop, h]

theorem pop_some {s : State} (h : s.occ ≠ 0) : s.pop = (.ok (s.ringAt s.head), s.removed) := by
  simp [State.pop, h, take_eq h]

theorem popw_aborted {s : State} (h : s.opActive = false) : s.popw = some (.error .aborted, s) := by
  simp [State.popw, h]

theorem popw_hold {s : State} (h : s.opActive = true) (ho : s.occ = 0) : s.popw = none := by
  simp [State.popw, h, ho]

theorem popw_some {s : State} (h : s.opActive = true) (ho : s.occ ≠ 0) :
    s.popw = some (.ok (s.ringAt s.head), s.removed) := by
  simp [State.popw, h, ho, take_eq ho]

/-- R85: everything `POP` can do. -/
theorem pop_cases (s : State) :
    (s.occ = 0 ∧ s.pop = (.error .bufferUnderflow, s)) ∨
    (s.occ ≠ 0 ∧ s.pop = (.ok (s.ringAt s.head), s.removed)) := by
  by_cases h : s.occ = 0
  · exact .inl ⟨h, pop_empty h⟩
  · exact .inr ⟨h, pop_some h⟩

/-- R86: everything `POPW` can do. -/
theorem popw_cases (s : State) :
    (s.opActive = false ∧ s.popw = some (.error .aborted, s)) ∨
    (s.opActive = true ∧ s.occ = 0 ∧ s.popw = none) ∨
    (s.opActive = true ∧ s.occ ≠ 0 ∧ s.popw = some (.ok (s.ringAt s.head), s.removed)) := by
  cases ha : s.opActive with
  | false => exact .inl ⟨rfl, popw_aborted ha⟩
  | true =>
    by_cases h : s.occ = 0
    · exact .inr (.inl ⟨rfl, h, popw_hold ha h⟩)
    · exact .inr (.inr ⟨rfl, h, popw_some ha h⟩)

/-- R84: everything `PUSH` can do. -/
theorem push_cases (s : State) (b : Byte) :
    (s.occ = 1023 ∧ s.push b = (.error .bufferOverflow, s)) ∨
    (s.occ ≠ 1023 ∧ s.push b = (.ok (), s.appended b)) := by
  by_cases h : s.occ = 1023
  · exact .inl ⟨h, push_full b h⟩
  · exact .inr ⟨h, push_room b h⟩

theorem clear_eq (s : State) : s.clear = s.cleared := by
  have h0 : occupancy 0#10 (BitVec.ofNat 10 (Config.N - 1)) = 0 := by decide
  simp only [State.clear, State.flowControl, State.occ, h0, fcEval_zero, State.cleared]
  rfl

theorem cleanup_eq (s : State) : s.cleanup = { s.cleared with dstate := .idle } := by
  rw [State.cleanup, clear_eq]; rfl

theorem recognize_cases (s : State) :
    (s.ringAt s.head = Config.MARKER ∧ 1 < s.occ ∧ s.recognize = { s with opActive := true }) ∨
    (¬ (s.ringAt s.head = Config.MARKER ∧ 1 < s.occ) ∧ s.recognize = s) := by
  by_cases h : s.ringAt s.head = Config.MARKER ∧ 1 < s.occ
  · exact .inl ⟨h.1, h.2, if_pos h⟩
  · exact .inr ⟨h, if_neg h⟩

/-- R83: everything a receive step can do. -/
theorem receive_cases (s : State) (b : Byte) (ok : Bool) :
    (ok = false ∧ s.receive b ok = s.event .rxError) ∨
    (ok = true ∧ b = s.cfg.cancelChar ∧ s.receive b ok = { s with opActive := false }) ∨
    (ok = true ∧ b ≠ s.cfg.cancelChar ∧ s.occ = 1023 ∧ s.receive b ok = s.event (.rxOverflow b)) ∨
    (ok = true ∧ b ≠ s.cfg.cancelChar ∧ s.occ ≠ 1023 ∧ s.receive b ok = (s.appended b).recognize) := by
  cases ok with
  | false => exact .inl ⟨rfl, rfl⟩
  | true =>
    by_cases hb : b = s.cfg.cancelChar
    · exact .inr (.inl ⟨rfl, hb, by simp [State.receive, hb]⟩)
    · rcases push_cases s b with ⟨h, hp⟩ | ⟨h, hp⟩
      · exact .inr (.inr (.inl ⟨rfl, hb, h, by simp [State.receive, hb, hp]⟩))
      · exact .inr (.inr (.inr ⟨rfl, hb, h, by simp [State.receive, hb, hp]⟩))

/-! ## What the operations leave in the ring -/

theorem appended_occ {s : State} (b : Byte) (h : s.occ ≠ 1023) : (s.appended b).occ = s.occ + 1 := occupancy_push h

theorem removed_occ {s : State} (h : s.occ ≠ 0) : s.removed.occ = s.occ - 1 := occupancy_take h

theorem cleared_occ (s : State) : s.cleared.occ = 0 := by
  show occupancy 0#10 1023#10 = 0
  decide

/-- R84: the byte at the new `tail`, and no other byte, is written. -/
theorem appended_ringAt {s : State} (hm : Memory.wf 0x00#8 s.ring = true) (b : Byte) (i : Index) :
    (s.appended b).ringAt i = if i = s.tail + 1#10 then b else s.ringAt i := by
  simp only [State.ringAt, State.appended]
  rw [Memory.read_write hm]
  by_cases h : i = s.tail + 1#10
  · subst h; simp
  · rw [if_neg (fun e => h (BitVec.eq_of_toNat_eq e.symm)), if_neg h]

/-- R84: with room and a byte in the buffer the head byte stays. -/
theorem appended_head {s : State} (hm : Memory.wf 0x00#8 s.ring = true) (b : Byte) (h0 : s.occ ≠ 0) :
    (s.appended b).ringAt s.head = s.ringAt s.head := by
  rw [appended_ringAt hm, if_neg (fun e => h0 ((occ_eq_zero_iff s).2 e.symm))]

@[simp] theorem removed_ringAt (s : State) (i : Index) : s.removed.ringAt i = s.ringAt i := rfl

@[simp] theorem cleared_ringAt (s : State) (i : Index) : s.cleared.ringAt i = 0x00#8 := rfl

/-- R23: an append keeps the ring's canonical form and its bound. -/
theorem appended_memoryOk {s : State} (b : Byte) (h : s.memoryOk) : (s.appended b).memoryOk :=
  ⟨Memory.wf_write h.1 _ _, Memory.below_write _ h.2.1 (by have := (s.tail + 1#10).isLt; simpa [Config.N] using this),
    h.2.2⟩

theorem cleared_memoryOk {s : State} (h : s.memoryOk) : s.cleared.memoryOk := ⟨rfl, rfl, h.2.2⟩

/-! ## Flow control after the operations (R81, R82) -/

theorem flowOk_of_fcEval {s : State} {o : Nat} {b : Bool} (hs : s.stop = fcEval o b) (ho : s.occ = o) : s.flowOk := by
  simp only [State.flowOk, hs, ho, fcEval_eq]
  constructor <;> intro h
  · exact if_pos h
  · have h : _ < 32 := h
    rw [if_neg (by omega), if_pos h]

theorem appended_flowOk {s : State} (b : Byte) (h : s.occ ≠ 1023) : (s.appended b).flowOk :=
  flowOk_of_fcEval rfl (appended_occ b h)

theorem removed_flowOk {s : State} (h : s.occ ≠ 0) : s.removed.flowOk := flowOk_of_fcEval rfl (removed_occ h)

theorem cleared_flowOk (s : State) : s.cleared.flowOk :=
  flowOk_of_fcEval (o := 0) (b := false) rfl (cleared_occ s)

end Sys2Proof.Machine
end

