-- ==== Sys2Proof/Laws/Bus.lean ====
section
/-! SUPPORT. The laws of the Bus Sequencer: the closed form of each transaction at the transaction level (R126 to R128),
its steps at the signal level (R124), and what a transaction never touches (R125). -/

namespace Sys2Proof.Machine

/-! ## The device -/

@[simp] theorem sample_busQ (s : State) (a : Addr) : (s.sample a).busQ = s.deviceByte a := by
  unfold State.sample; split <;> rfl

/-- The sample changes only the sampled byte and the oracle's counter. -/
theorem sample_frame (s : State) (a : Addr) :
    s.sample a = { s with busQ := s.deviceByte a, draws := (s.sample a).draws } := by
  unfold State.sample; split <;> rfl

/-- The simulated device gives its own byte (R44). -/
theorem deviceByte_sim {s : State} {m : Memory} (h : s.dev = .sim m) (a : Addr) :
    s.deviceByte a = Memory.read Config.ERASED m a.toNat := by simp [State.deviceByte, h]

theorem sample_sim {s : State} {m : Memory} (h : s.dev = .sim m) (a : Addr) :
    s.sample a = { s with busQ := Memory.read Config.ERASED m a.toNat } := by
  simp [State.sample, h, deviceByte_sim h]

/-! ## The transaction level -/

/-- R126. -/
theorem runTxn_latch (s : State) (v : Variant) (a : Addr) (d : Byte) :
    runTxn ⟨v, .latch, a, d⟩ s =
      { s with busA := addressLines (s.cfg.descriptor v).aw a, busOE := false, actLatch := false } := rfl

/-- R127. -/
theorem runTxn_read (s : State) (v : Variant) (a : Addr) (d : Byte) :
    runTxn ⟨v, .read, a, d⟩ s =
      { s.sample a with busA := addressLines (s.cfg.descriptor v).aw a, busOE := false, actLatch := false,
                        actEnable := false } := by
  simp only [runTxn, seq, latchPhases, Txn.dataSetup, Txn.descriptor, endActions, performAll, perform, List.foldl,
    List.cons_append, List.nil_append, State.sample, State.deviceByte]
  split <;> rfl

/-- R128. -/
theorem runTxn_prog (s : State) (v : Variant) (a : Addr) (d : Byte) :
    runTxn ⟨v, .prog, a, d⟩ s =
      { s with busA := addressLines (s.cfg.descriptor v).aw a, busD := d, busOE := false, actLatch := false,
               actProgram := false, dev := s.dev.pulse a d } := by
  simp only [runTxn, seq, latchPhases, Txn.dataSetup, Txn.descriptor, endActions, performAll, perform, List.foldl,
    List.cons_append, List.nil_append]

/-! ## What the actions leave alone (R125) -/

/-- The state with the bus outputs, the sampled byte and the DEVICE of another. -/
def State.withBusOf (u s : State) : State :=
  { s with busA := u.busA, busD := u.busD, busOE := u.busOE, actLatch := u.actLatch, actEnable := u.actEnable,
           actProgram := u.actProgram, busQ := u.busQ, dev := u.dev, draws := u.draws }

theorem perform_frame (t : Txn) (s : State) (a : BusAction) : perform t s a = (perform t s a).withBusOf s := by
  cases a with
  | role r on => cases r <;> cases on <;> rfl
  | sample => simp only [perform, State.sample]; split <;> rfl
  | _ => rfl

theorem performAll_frame (t : Txn) (as : List BusAction) (s : State) :
    performAll t as s = (performAll t as s).withBusOf s := by
  induction as generalizing s with
  | nil => rfl
  | cons a as ih =>
    have h := ih (perform t s a)
    rw [perform_frame t s a] at h
    show performAll t as (perform t s a) = (performAll t as (perform t s a)).withBusOf s
    rw [perform_frame t s a]
    exact h

theorem foldPhases_frame (t : Txn) (ps : List PhaseStep) (s : State) :
    ps.foldl (fun s ph => performAll t ph.actions s) s =
      (ps.foldl (fun s ph => performAll t ph.actions s) s).withBusOf s := by
  induction ps generalizing s with
  | nil => rfl
  | cons p ps ih =>
    have h := ih (performAll t p.actions s)
    simp only [List.foldl_cons]
    rw [performAll_frame t p.actions s] at h ⊢
    exact h

/-- A whole transaction touches the bus outputs, the sampled byte and the DEVICE only. -/
theorem runTxn_frame (t : Txn) (s : State) : runTxn t s = (runTxn t s).withBusOf s := by
  have h1 := foldPhases_frame t (seq (t.descriptor s) t) s
  have h2 := performAll_frame t (endActions t)
    ((seq (t.descriptor s) t).foldl (fun s ph => performAll t ph.actions s) s)
  simp only [runTxn]
  rw [h1] at h2 ⊢
  exact h2

/-! ## Preconditions -/

theorem hasAddr_of_lt {d : Descriptor} {a : Addr} (h : a.toNat < d.size) : d.hasAddr a = true := by
  simp [Descriptor.hasAddr, h]

/-- With `1 <= size` an address of the device is one below its size. -/
theorem hasAddr_iff {d : Descriptor} {a : Addr} (hd : 1 ≤ d.size) : d.hasAddr a = true ↔ a.toNat < d.size := by
  simp only [Descriptor.hasAddr, Bool.or_eq_true, beq_iff_eq, decide_eq_true_eq]
  refine ⟨fun h => ?_, .inr⟩
  rcases h with rfl | h
  · exact hd
  · exact h

/-- R125: which transaction a request starts. -/
theorem txn_eq_some_iff (s : State) (k : TxnKind) (a : Addr) (d : Byte) (t : Txn) :
    s.txn k a d = some t ↔
      ∃ v, s.desc = some v ∧ (s.cfg.descriptor v).hasAddr a = true ∧ t = ⟨v, k, a, d⟩ := by
  unfold State.txn
  cases h : s.desc with
  | none => simp
  | some v =>
    by_cases h2 : (s.cfg.descriptor v).hasAddr a = true
    · simp only [h2, if_true, Option.some.injEq]
      exact ⟨fun e => ⟨v, rfl, h2, e.symm⟩, fun ⟨_, e, _, e2⟩ => by rw [e2, e]⟩
    · simp only [h2, Option.some.injEq]
      exact ⟨fun e => absurd e (by simp), fun ⟨_, e, e2, _⟩ => absurd (e ▸ e2) h2⟩

theorem txn_of_lt {s : State} {v : Variant} {a : Addr} (k : TxnKind) (d : Byte) (hv : s.desc = some v)
    (ha : a.toNat < (s.cfg.descriptor v).size) : s.txn k a d = some ⟨v, k, a, d⟩ :=
  (txn_eq_some_iff ..).2 ⟨v, hv, hasAddr_of_lt ha, rfl⟩

/-! ## Everything the shared bus operations can do -/

/-- A port request's transaction: refused, waiting, run whole, or begun. -/
theorem portBus_cases (i : Instr) (k : TxnKind) (a : Addr) (d : Byte) (s : State) :
    (s.txn k a d = none ∧ portBus i k a d s = .refused .busPrecondition) ∨
    (∃ t, s.txn k a d = some t ∧ s.bphase ≠ .idle ∧ portBus i k a d s = .next (s.wait i)) ∨
    (∃ t, s.txn k a d = some t ∧ s.bphase = .idle ∧ s.level = .transaction ∧
      portBus i k a d s = .next ((runTxn t s).answer (t.answer (runTxn t s).busQ))) ∨
    (∃ t, s.txn k a d = some t ∧ s.bphase = .idle ∧ s.level = .signal ∧
      portBus i k a d s = .next (beginTxn t s)) := by
  unfold portBus
  cases ht : s.txn k a d with
  | none => exact .inl ⟨rfl, rfl⟩
  | some t =>
    cases hb : s.bphase with
    | active x p t0 => exact .inr (.inl ⟨t, rfl, by simp, rfl⟩)
    | idle =>
      cases hl : s.level with
      | transaction => exact .inr (.inr (.inl ⟨t, rfl, rfl, rfl, rfl⟩))
      | signal => exact .inr (.inr (.inr ⟨t, rfl, rfl, rfl, rfl⟩))

/-- An engine's transaction: refused, held, run whole and continued, or begun. -/
theorem engineBus_cases (k : TxnKind) (d : Byte) (w : DState) (c : Byte → State → Result) (s : State) :
    (s.txn k s.addr d = none ∧ engineBus k d w c s = .refused .busPrecondition) ∨
    (∃ t, s.txn k s.addr d = some t ∧ s.bphase ≠ .idle ∧ engineBus k d w c s = .next s) ∨
    (∃ t, s.txn k s.addr d = some t ∧ s.bphase = .idle ∧ s.level = .transaction ∧
      engineBus k d w c s = c (runTxn t s).busQ (runTxn t s)) ∨
    (∃ t, s.txn k s.addr d = some t ∧ s.bphase = .idle ∧ s.level = .signal ∧
      engineBus k d w c s = .next ((beginTxn t s).goto w)) := by
  unfold engineBus
  cases ht : s.txn k s.addr d with
  | none => exact .inl ⟨rfl, rfl⟩
  | some t =>
    cases hb : s.bphase with
    | active x p t0 => exact .inr (.inl ⟨t, rfl, by simp, rfl⟩)
    | idle =>
      cases hl : s.level with
      | transaction => exact .inr (.inr (.inl ⟨t, rfl, rfl, rfl, rfl⟩))
      | signal => exact .inr (.inr (.inr ⟨t, rfl, rfl, rfl, rfl⟩))

theorem portBus_run {s : State} {t : Txn} (i : Instr) {k : TxnKind} {a : Addr} {d : Byte}
    (ht : s.txn k a d = some t) (hb : s.bphase = .idle) (hl : s.level = .transaction) :
    portBus i k a d s = .next ((runTxn t s).answer (t.answer (runTxn t s).busQ)) := by simp [portBus, ht, hb, hl]

theorem portBus_begin {s : State} {t : Txn} (i : Instr) {k : TxnKind} {a : Addr} {d : Byte}
    (ht : s.txn k a d = some t) (hb : s.bphase = .idle) (hl : s.level = .signal) :
    portBus i k a d s = .next (beginTxn t s) := by simp [portBus, ht, hb, hl]

theorem engineBus_run {s : State} {t : Txn} {k : TxnKind} {d : Byte} (w : DState) (c : Byte → State → Result)
    (ht : s.txn k s.addr d = some t) (hb : s.bphase = .idle) (hl : s.level = .transaction) :
    engineBus k d w c s = c (runTxn t s).busQ (runTxn t s) := by simp [engineBus, ht, hb, hl]

theorem engineBus_begin {s : State} {t : Txn} {k : TxnKind} {d : Byte} (w : DState) (c : Byte → State → Result)
    (ht : s.txn k s.addr d = some t) (hb : s.bphase = .idle) (hl : s.level = .signal) :
    engineBus k d w c s = .next ((beginTxn t s).goto w) := by simp [engineBus, ht, hb, hl]

theorem afterBus_idle {s : State} (k : Byte → State → Result) (hb : s.bphase = .idle) :
    afterBus k s = k s.busQ s := by simp [afterBus, hb]

/-- A step of the bus state machine: nothing before the hold has elapsed, else the next phase, else the end. -/
theorem advanceTxn_cases (t : Txn) (p : Phase) (t0 : Nat) (s : State) :
    (s.now < t0 + (t.descriptor s).hold.of p ∧ advanceTxn t p t0 s = s) ∨
    (t0 + (t.descriptor s).hold.of p ≤ s.now ∧ phasesAfter p (seq (t.descriptor s) t) = [] ∧
      advanceTxn t p t0 s = endTxn t s) ∨
    (∃ ph rest, t0 + (t.descriptor s).hold.of p ≤ s.now ∧
      phasesAfter p (seq (t.descriptor s) t) = ph :: rest ∧
      advanceTxn t p t0 s = { performAll t ph.actions s with bphase := .active t ph.phase s.now }) := by
  unfold advanceTxn
  by_cases h : s.now < t0 + (t.descriptor s).hold.of p
  · exact .inl ⟨h, if_pos h⟩
  · rw [if_neg h]
    cases hp : phasesAfter p (seq (t.descriptor s) t) with
    | nil => exact .inr (.inl ⟨by omega, rfl, rfl⟩)
    | cons ph rest => exact .inr (.inr ⟨ph, rest, by omega, rfl, rfl⟩)

/-- The phases after a phase of a sequence are phases of it. -/
theorem phasesAfter_subset (p : Phase) (ps : List PhaseStep) : ∀ x ∈ phasesAfter p ps, x ∈ ps := by
  induction ps with
  | nil => simp [phasesAfter]
  | cons q ps ih =>
    intro x hx
    simp only [phasesAfter] at hx
    split at hx
    · exact .tail _ hx
    · exact .tail _ (ih x hx)

/-- R124: the begin of a transaction is the setup of the address and data lines, at the present time. -/
theorem beginTxn_eq (t : Txn) (s : State) :
    beginTxn t s =
      { s with busA := addressLines (t.descriptor s).aw t.a
               busD := if t.kind = .prog then t.d else s.busD
               busOE := t.kind == .prog
               bphase := .active t .addrSetup s.now } := by
  rcases t with ⟨v, k, a, d⟩
  cases k <;> rfl

end Sys2Proof.Machine
end

