-- ==== Sys2Proof/Laws/Engine.lean ====
section
/-! SUPPORT. The laws of the engine's shared steps (R113, R114) and of what each can answer. -/

namespace Sys2Proof.Machine

/-- The command's end with its line (R102). -/
def State.ended (str : Str) (s : State) : State := { s with txLog := s.txLog ++ str, dstate := .cleanup }

theorem finish_ended (s : State) (str : Str) : s.finish str = s.ended str := rfl

@[simp] theorem report_aborted (s : State) (b : Byte) : s.report .aborted b = s.ended Config.abortLine := rfl

@[simp] theorem report_noDevice (s : State) (b : Byte) : s.report .noDevice b = s.ended Config.noDeviceLine := rfl

@[simp] theorem report_badHex (s : State) (b : Byte) : s.report .badHexDigit b = s.ended Config.badHexLine := rfl

@[simp] theorem report_unknownOpcode (s : State) (b : Byte) :
    s.report .unknownOpcode b = s.ended Config.unknownLine := rfl

@[simp] theorem report_unknownDevice (s : State) (b : Byte) :
    s.report .unknownDeviceCode b = s.ended Config.setDevFailLine := rfl

@[simp] theorem report_blankMismatch (s : State) (b : Byte) : s.report .blankMismatch b = s.ended (fmtAV s.addr b) := rfl

@[simp] theorem report_verifyMismatch (s : State) (b : Byte) :
    s.report .verifyMismatch b = s.ended (fmtAV s.addr b) := rfl

/-- R113: everything the entry can do. -/
theorem engineEntry_cases (c : DState) (s : State) :
    (s.desc = none ∧ engineEntry c s = s.ended Config.noDeviceLine) ∨
    (∃ v, s.desc = some v ∧ engineEntry c s = { s with addr := 0#16, dstate := c }) := by
  unfold engineEntry
  cases h : s.desc with
  | none => exact .inl ⟨rfl, rfl⟩
  | some v => exact .inr ⟨v, rfl, rfl⟩

theorem descriptor_of_desc {s : State} {v : Variant} (h : s.desc = some v) :
    s.descriptor = some (s.cfg.descriptor v) := by simp [State.descriptor, h]

/-- R114: everything `NEXT` can do. -/
theorem engineNext_cases (c : DState) (l : Str) (s : State) :
    (s.desc = none ∧ engineNext c l s = .refused .busPrecondition) ∨
    (∃ v, s.desc = some v ∧ s.addr.toNat + 1 = (s.cfg.descriptor v).size ∧
      engineNext c l s = .next (s.ended l)) ∨
    (∃ v, s.desc = some v ∧ s.addr.toNat + 1 ≠ (s.cfg.descriptor v).size ∧
      engineNext c l s = .next { s with addr := s.addr + 1#16, dstate := c }) := by
  unfold engineNext
  cases h : s.desc with
  | none => exact .inl ⟨rfl, by simp [State.descriptor, h]⟩
  | some v =>
    rw [descriptor_of_desc h]
    by_cases h2 : s.addr.toNat + 1 = (s.cfg.descriptor v).size
    · exact .inr (.inl ⟨v, rfl, h2, by simp [h2, finish_ended]⟩)
    · exact .inr (.inr ⟨v, rfl, h2, by simp [h2, State.goto]⟩)

theorem engineNext_last {s : State} {v : Variant} (c : DState) (l : Str) (hv : s.desc = some v)
    (h : s.addr.toNat + 1 = (s.cfg.descriptor v).size) : engineNext c l s = .next (s.ended l) := by
  simp [engineNext, descriptor_of_desc hv, h, finish_ended]

theorem engineNext_more {s : State} {v : Variant} (c : DState) (l : Str) (hv : s.desc = some v)
    (h : s.addr.toNat + 1 ≠ (s.cfg.descriptor v).size) :
    engineNext c l s = .next { s with addr := s.addr + 1#16, dstate := c } := by
  simp [engineNext, descriptor_of_desc hv, h, State.goto]

/-- R115: the body of `$READ` on a byte. -/
theorem readBody_eq {s : State} {v : Variant} (d : Byte) (hv : s.desc = some v) :
    readBody d s =
      engineNext (.exec (.read .check)) [] (s.emit (readChunk (s.cfg.descriptor v).size s.addr d)) := by
  simp [readBody, descriptor_of_desc hv]

/-- R110: everything `$SETDEV` does with a code byte. -/
theorem setDevice_cases (c : Byte) (s : State) :
    (∃ v, variantOfCode s.cfg c = some v ∧ (s.cfg.descriptor v).devCode = c ∧
      setDevice c s = (s.select v).ended Config.okLine) ∨
    (variantOfCode s.cfg c = none ∧ (∀ v, (s.cfg.descriptor v).devCode ≠ c) ∧
      setDevice c s = s.ended Config.setDevFailLine) := by
  unfold setDevice variantOfCode
  by_cases hA : c = s.cfg.descA.devCode
  · exact .inl ⟨.A, by simp [hA], hA.symm, by simp [hA, finish_ended]⟩
  · by_cases hB : c = s.cfg.descB.devCode
    · exact .inl ⟨.B, by rw [if_neg hA, if_pos hB], hB.symm, by rw [if_neg hA, if_pos hB]; rfl⟩
    · refine .inr ⟨by rw [if_neg hA, if_neg hB], fun v => ?_, by rw [if_neg hA, if_neg hB]; rfl⟩
      cases v
      · exact fun e => hA e.symm
      · exact fun e => hB e.symm

end Sys2Proof.Machine
end

