-- ==== Sys2Proof/Laws/Step.lean ====
section
/-! SUPPORT. The laws of the step: what each input makes of it, and what MAIN's turn is. -/

namespace Sys2Proof.Machine

theorem step_marked {s : State} {f : ModelFault} (h : s.mfault = some f) : step s = .fault (.modelFault f) := by
  simp [step, machineStep, h]

theorem step_cons {s : State} {i : Input} {rest : List Input} (hf : s.mfault = none) (hi : s.inputs = i :: rest) :
    step s = inputStep i { s with inputs := rest } := by
  simp [step, machineStep, hf, hi]

theorem step_nil {s : State} (hf : s.mfault = none) (hi : s.inputs = []) : step s = mainTurn s := by
  simp [step, machineStep, hf, hi]

/-- Everything a step can be: the machine is marked, MAIN moves with no input left, or an input is taken. -/
theorem step_cases (s : State) :
    (∃ f, s.mfault = some f ∧ step s = .fault (.modelFault f)) ∨
    (s.mfault = none ∧ s.inputs = [] ∧ step s = mainTurn s) ∨
    (∃ i rest, s.mfault = none ∧ s.inputs = i :: rest ∧ step s = inputStep i { s with inputs := rest }) := by
  rcases Option.eq_none_or_eq_some s.mfault with hf | ⟨f, hf⟩
  · by_cases hi : s.inputs = []
    · exact .inr (.inl ⟨hf, hi, step_nil hf hi⟩)
    · obtain ⟨i, rest, hi⟩ := List.exists_cons_of_ne_nil hi
      exact .inr (.inr ⟨i, rest, hf, hi, step_cons hf hi⟩)
  · exact .inl ⟨f, hf, step_marked hf⟩

/-- Everything MAIN's turn can be. -/
theorem mainTurn_cases (s : State) :
    (∃ t p t0, s.bphase = .active t p t0 ∧ mainTurn s = .next (advanceTxn t p t0 s)) ∨
    (s.bphase = .idle ∧ (s.dstate.onBus = true ∨ s.held = []) ∧ mainTurn s = controllerStep s) ∨
    (∃ i rest, s.bphase = .idle ∧ s.dstate.onBus = false ∧ s.held = i :: rest ∧
      mainTurn s = exec i { s with held := rest }) := by
  unfold mainTurn
  cases hb : s.bphase with
  | active t p t0 => exact .inl ⟨t, p, t0, rfl, rfl⟩
  | idle =>
    cases hd : s.dstate.onBus with
    | true => exact .inr (.inl ⟨rfl, .inl rfl, by simp⟩)
    | false =>
      cases hh : s.held with
      | nil => exact .inr (.inl ⟨rfl, .inr rfl, by simp⟩)
      | cons i rest => exact .inr (.inr ⟨i, rest, rfl, rfl, rfl, by simp⟩)

theorem mainTurn_controller {s : State} (hb : s.bphase = .idle) (hh : s.held = []) :
    mainTurn s = controllerStep s := by
  simp [mainTurn, hb, hh]

theorem mainTurn_active {s : State} {t : Txn} {p : Phase} {t0 : Nat} (hb : s.bphase = .active t p t0) :
    mainTurn s = .next (advanceTxn t p t0 s) := by
  simp [mainTurn, hb]

/-- MAIN's turn on a state where it is next is a step of the controller. -/
theorem step_mainNext {s : State} {rest : List Input} (h : s.mainNext rest) :
    step s = controllerStep { s with inputs := rest } := by
  rw [step_cons h.1 h.2.2.2]
  exact mainTurn_controller h.2.1 h.2.2.1

/-- A port request: refused as a word, waiting behind MAIN's others, or run. -/
theorem portStep_cases (p : PortWord) (s : State) :
    (∃ e, decodePort p = .error e ∧ portStep p s = .refused (.badRequest e)) ∨
    (∃ i, decodePort p = .ok i ∧ issuedByMain i = true ∧ s.mainBusy = true ∧
      portStep p s = .next { s with held := s.held ++ [i] }) ∨
    (∃ i, decodePort p = .ok i ∧ (issuedByMain i = false ∨ s.mainBusy = false) ∧ portStep p s = exec i s) := by
  unfold portStep
  cases hd : decodePort p with
  | error e => exact .inl ⟨e, rfl, rfl⟩
  | ok i =>
    cases h1 : issuedByMain i <;> cases h2 : s.mainBusy <;> simp [issue, h1, h2]

theorem mainBusy_eq_false_iff (s : State) :
    s.mainBusy = false ↔ s.bphase = .idle ∧ s.dstate.onBus = false ∧ s.held = [] := by
  simp [State.mainBusy, and_assoc]

theorem stepWith_main {s : State} (hf : s.mfault = none) (hb : s.bphase = .idle) (hh : s.held = []) :
    stepWith .main s = nextState (controllerStep s) := by
  rw [stepWith, step_cons (s := { s with inputs := .main :: s.inputs }) hf rfl]
  exact congrArg nextState (mainTurn_controller (s := s) hb hh)

theorem stepWith_tick {s : State} (dt : Nat) (hf : s.mfault = none) :
    stepWith (.tick dt) s = some { s with now := s.now + dt } := by
  rw [stepWith, step_cons (s := { s with inputs := .tick dt :: s.inputs }) hf rfl]
  rfl

theorem stepWith_active {s : State} {t : Txn} {p : Phase} {t0 : Nat} (hf : s.mfault = none)
    (hb : s.bphase = .active t p t0) : stepWith .main s = some (advanceTxn t p t0 s) := by
  rw [stepWith, step_cons (s := { s with inputs := .main :: s.inputs }) hf rfl]
  exact congrArg nextState (mainTurn_active (s := s) hb)

/-- R124: time passes and MAIN has a turn during a transaction. -/
theorem timedRun_active {s : State} {t : Txn} {p : Phase} {t0 : Nat} (dt : Nat) (ds : List Nat) (hf : s.mfault = none)
    (hb : s.bphase = .active t p t0) :
    timedRun (dt :: ds) s = timedRun ds (advanceTxn t p t0 { s with now := s.now + dt }) := by
  rw [timedRun, stepWith_tick dt hf]
  simp only [Option.bind_some]
  rw [stepWith_active (s := { s with now := s.now + dt }) hf hb]
  rfl

/-- R124: once the hold has elapsed, the next phase begins. -/
theorem advanceTxn_next {s : State} {t : Txn} {p : Phase} {ph : PhaseStep} {rest : List PhaseStep} (dt : Nat)
    (hd : (t.descriptor s).hold.of p ≤ dt) (hp : phasesAfter p (seq (t.descriptor s) t) = ph :: rest) :
    advanceTxn t p s.now { s with now := s.now + dt } =
      { performAll t ph.actions { s with now := s.now + dt } with bphase := .active t ph.phase (s.now + dt) } := by
  have h1 : (t.descriptor { s with now := s.now + dt }).hold.of p ≤ dt := hd
  have h2 : phasesAfter p (seq (t.descriptor { s with now := s.now + dt }) t) = ph :: rest := hp
  unfold advanceTxn
  rw [if_neg (by show ¬ s.now + dt < s.now + _; omega), h2]

/-- R124: once the last hold has elapsed, the transaction is over. -/
theorem advanceTxn_end {s : State} {t : Txn} {p : Phase} (dt : Nat) (hd : (t.descriptor s).hold.of p ≤ dt)
    (hp : phasesAfter p (seq (t.descriptor s) t) = []) :
    advanceTxn t p s.now { s with now := s.now + dt } = endTxn t { s with now := s.now + dt } := by
  have h1 : (t.descriptor { s with now := s.now + dt }).hold.of p ≤ dt := hd
  have h2 : phasesAfter p (seq (t.descriptor { s with now := s.now + dt }) t) = [] := hp
  unfold advanceTxn
  rw [if_neg (by show ¬ s.now + dt < s.now + _; omega), h2]

theorem mainRun_succ (n : Nat) (s : State) : mainRun (n + 1) s = (stepWith .main s).bind (mainRun n) := rfl

/-- Runs of MAIN compose. -/
theorem mainRun_add (m n : Nat) (s : State) : mainRun (m + n) s = (mainRun m s).bind (mainRun n) := by
  induction m generalizing s with
  | zero => simp [mainRun]
  | succ m ih =>
    rw [Nat.succ_add, mainRun_succ, mainRun_succ, Option.bind_assoc]
    congr 1
    funext t
    exact ih t

end Sys2Proof.Machine
end

