-- ==== Sys2Proof/Laws/Commands.lean ====
section
/-! SUPPORT. The laws of the commands and of the controller: what each does in each state of its rule, as an equation
over the shared operations, and the closed form of the transactions from an idle bus. -/

namespace Sys2Proof.Machine

/-! ## The controller (R98) -/

theorem controllerStep_idle {s : State} (h : s.dstate = .idle) :
    controllerStep s = .next (if s.opActive then s.goto .disp0 else s) := by
  simp only [controllerStep, h]; split <;> rfl

theorem controllerStep_disp0 {s : State} (h : s.dstate = .disp0) : controllerStep s = .next (dispatchMarker s) := by
  simp [controllerStep, h]

theorem controllerStep_disp1 {s : State} (h : s.dstate = .disp1) : controllerStep s = dispatchOpcode s := by
  simp [controllerStep, h]

theorem controllerStep_exec {s : State} {e : Exec} (h : s.dstate = .exec e) :
    controllerStep s = exec e.instr s := by simp [controllerStep, h]

theorem controllerStep_cleanup {s : State} (h : s.dstate = .cleanup) : controllerStep s = .next s.cleanup := by
  simp [controllerStep, h]

/-- R100: the marker popped. -/
theorem dispatchMarker_marker {s : State} (h : s.occ ≠ 0) (hm : s.ringAt s.head = Config.MARKER) :
    dispatchMarker s = s.removed.goto .disp1 := by
  simp [dispatchMarker, pop_some h, hm]

/-- R100: the model-only fault of the first pop. -/
theorem dispatchMarker_fault {s : State} (h : s.occ = 0 ∨ s.ringAt s.head ≠ Config.MARKER) (hf : s.mfault = none) :
    (dispatchMarker s).mfault = some .dispatchInvariant := by
  by_cases h0 : s.occ = 0
  · simp [dispatchMarker, pop_empty h0, State.recordFault, hf]
  · have hm := h.resolve_left h0
    simp [dispatchMarker, pop_some h0, hm, State.recordFault, State.removed, hf]

/-- R101: the model-only fault of the second pop. -/
theorem dispatchOpcode_empty {s : State} (h : s.occ = 0) :
    dispatchOpcode s = .next (s.recordFault .dispatchInvariant) := by
  simp [dispatchOpcode, pop_empty h]

/-- R101: the opcode popped and dispatched. -/
theorem dispatchOpcode_some {s : State} (h : s.occ ≠ 0) :
    dispatchOpcode s = exec (decodeOpcode (s.ringAt s.head)) s.removed := by
  simp [dispatchOpcode, pop_some h]

/-! ## Each command in each of its states -/

theorem execUnknownOpcode_disp1 {s : State} (op : Byte) (h : s.dstate = .disp1) :
    execUnknownOpcode op s = .next (s.ended Config.unknownLine) := by
  simp [execUnknownOpcode, h]

theorem execReset_disp1 {s : State} (h : s.dstate = .disp1) : execReset s = .next (s.goto (.exec .reset)) := by
  simp [execReset, h]

theorem execReset_exec {s : State} (h : s.dstate = .exec .reset) : execReset s = .next (s.goto .cleanup) := by
  simp [execReset, h]

theorem execBaud_disp1 {s : State} (h : s.dstate = .disp1) : execBaud s = .next (s.goto (.exec .baud)) := by
  simp [execBaud, h]

theorem execBaud_exec {s : State} (h : s.dstate = .exec .baud) :
    execBaud s = .next ((s.event (.serialInit 0)).goto .cleanup) := by simp [execBaud, h]

theorem execIdent_disp1 {s : State} (h : s.dstate = .disp1) : execIdent s = .next (s.goto (.exec .ident)) := by
  simp [execIdent, h]

theorem execIdent_exec {s : State} (h : s.dstate = .exec .ident) :
    execIdent s = .next (s.ended (s.cfg.identLine s.desc)) := by simp [execIdent, h, finish_ended]

theorem execSetdev_disp1 {s : State} (h : s.dstate = .disp1) : execSetdev s = .next (s.goto (.exec .setdev)) := by
  simp [execSetdev, h]

theorem execSetdev_aborted {s : State} (h : s.dstate = .exec .setdev) (ha : s.opActive = false) :
    execSetdev s = .next (s.ended Config.abortLine) := by simp [execSetdev, h, popw_aborted ha]

theorem execSetdev_hold {s : State} (h : s.dstate = .exec .setdev) (ha : s.opActive = true) (ho : s.occ = 0) :
    execSetdev s = .next s := by simp [execSetdev, h, popw_hold ha ho]

theorem execSetdev_some {s : State} (h : s.dstate = .exec .setdev) (ha : s.opActive = true) (ho : s.occ ≠ 0) :
    execSetdev s = .next (setDevice (s.ringAt s.head) s.removed) := by simp [execSetdev, h, popw_some ha ho]

theorem execRead_disp1 {s : State} (h : s.dstate = .disp1) :
    execRead s = .next (s.goto (.exec (.read .entry))) := by simp [execRead, h]

theorem execRead_entry {s : State} (h : s.dstate = .exec (.read .entry)) :
    execRead s = .next (engineEntry (.exec (.read .check)) s) := by simp [execRead, h]

theorem execRead_aborted {s : State} (h : s.dstate = .exec (.read .check)) (ha : s.opActive = false) :
    execRead s = .next (readAbort s) := by simp [execRead, h, ha]

theorem execRead_check {s : State} (h : s.dstate = .exec (.read .check)) (ha : s.opActive = true) :
    execRead s = engineBus .read 0x00#8 (.exec (.read .bus)) readBody s := by simp [execRead, h, ha]

theorem execRead_bus {s : State} (h : s.dstate = .exec (.read .bus)) : execRead s = afterBus readBody s := by
  simp [execRead, h]

theorem execBlank_disp1 {s : State} (h : s.dstate = .disp1) :
    execBlank s = .next (s.goto (.exec (.blank .entry))) := by simp [execBlank, h]

theorem execBlank_entry {s : State} (h : s.dstate = .exec (.blank .entry)) :
    execBlank s = .next (engineEntry (.exec (.blank .check)) s) := by simp [execBlank, h]

theorem execBlank_aborted {s : State} (h : s.dstate = .exec (.blank .check)) (ha : s.opActive = false) :
    execBlank s = .next (s.ended Config.abortLine) := by simp [execBlank, h, ha]

theorem execBlank_check {s : State} (h : s.dstate = .exec (.blank .check)) (ha : s.opActive = true) :
    execBlank s = engineBus .read 0x00#8 (.exec (.blank .bus)) blankBody s := by simp [execBlank, h, ha]

theorem execBlank_bus {s : State} (h : s.dstate = .exec (.blank .bus)) : execBlank s = afterBus blankBody s := by
  simp [execBlank, h]

theorem execWrite_disp1 {s : State} (h : s.dstate = .disp1) :
    execWrite s = .next (s.goto (.exec (.write .entry))) := by simp [execWrite, h]

theorem execWrite_entry {s : State} (h : s.dstate = .exec (.write .entry)) :
    execWrite s = .next (engineEntry (.exec (.write .check)) s) := by simp [execWrite, h]

theorem execWrite_aborted {s : State} (h : s.dstate = .exec (.write .check)) (ha : s.opActive = false) :
    execWrite s = .next (s.ended Config.abortLine) := by simp [execWrite, h, ha]

theorem execWrite_check {s : State} (h : s.dstate = .exec (.write .check)) (ha : s.opActive = true) :
    execWrite s = .next (s.goto (.exec (.write .w1))) := by simp [execWrite, h, ha]

theorem execWrite_w1_aborted {s : State} (h : s.dstate = .exec (.write .w1)) (ha : s.opActive = false) :
    execWrite s = .next (s.ended Config.abortLine) := by simp [execWrite, writeW1, h, popw_aborted ha]

theorem execWrite_w1_hold {s : State} (h : s.dstate = .exec (.write .w1)) (ha : s.opActive = true) (ho : s.occ = 0) :
    execWrite s = .next s := by simp [execWrite, writeW1, h, popw_hold ha ho]

theorem execWrite_w1_some {s : State} (h : s.dstate = .exec (.write .w1)) (ha : s.opActive = true) (ho : s.occ ≠ 0) :
    execWrite s = .next { s.removed with hiCh := s.ringAt s.head, dstate := .exec (.write .w2) } := by
  simp [execWrite, writeW1, h, popw_some ha ho, State.goto]

theorem execWrite_w2_aborted {s : State} (h : s.dstate = .exec (.write .w2)) (hb : s.bphase = .idle)
    (ha : s.opActive = false) : execWrite s = .next (s.ended Config.abortLine) := by
  simp [execWrite, writeW2, h, hb, popw_aborted ha]

theorem execWrite_w2_hold {s : State} (h : s.dstate = .exec (.write .w2)) (hb : s.bphase = .idle)
    (ha : s.opActive = true) (ho : s.occ = 0) : execWrite s = .next s := by
  simp [execWrite, writeW2, h, hb, popw_hold ha ho]

theorem execWrite_w2_some {s : State} (h : s.dstate = .exec (.write .w2)) (hb : s.bphase = .idle)
    (ha : s.opActive = true) (ho : s.occ ≠ 0) : execWrite s = writeProgram (s.ringAt s.head) s.removed := by
  simp [execWrite, writeW2, h, hb, popw_some ha ho]

theorem execWrite_prog {s : State} (h : s.dstate = .exec (.write .prog)) :
    execWrite s = afterBus (fun _ => writeVerify) s := by simp [execWrite, h]

theorem execWrite_verify {s : State} (h : s.dstate = .exec (.write .verify)) :
    execWrite s = afterBus writeCompare s := by simp [execWrite, h]

/-- R117: a pair that does not decode. -/
theorem writeProgram_bad {s : State} {c : Byte} (h : payloadByte Config.nibbleOrder s.hiCh c = none) :
    writeProgram c s = .next (s.ended Config.badHexLine) := by simp [writeProgram, h]

/-- R117: a pair that decodes to `d`. -/
theorem writeProgram_some {s : State} {c d : Byte} (h : payloadByte Config.nibbleOrder s.hiCh c = some d) :
    writeProgram c s =
      engineBus .prog d (.exec (.write .prog)) (fun _ => writeVerify) { s with wdata := d } := by
  simp [writeProgram, h]

theorem payloadByte_digits (o : NibbleOrder) {c0 c1 : Byte} {x y : Nat} (h0 : hexval c0 = some x)
    (h1 : hexval c1 = some y) :
    payloadByte o c0 c1 = some (match o with
      | .highFirst => BitVec.ofNat 8 (x * 16 + y)
      | .lowFirst => BitVec.ofNat 8 (y * 16 + x)) := by
  cases o <;> simp [payloadByte, h0, h1]

theorem payloadByte_none (o : NibbleOrder) {c0 c1 : Byte} (h : hexval c0 = none ∨ hexval c1 = none) :
    payloadByte o c0 c1 = none := by
  rcases h with h | h
  · simp [payloadByte, h]
  · cases h0 : hexval c0 <;> simp [payloadByte, h0, h]

/-! ## Transactions from an idle bus, whose lines are as R129 says -/

theorem busOk_idle {s : State} (hb : s.bphase = .idle) : s.busOk ↔ s.linesAre false false false false := by
  simp [State.busOk, hb]

theorem runTxn_latch_idle {s : State} (hb : s.bphase = .idle) (hk : s.busOk) (v : Variant) (a : Addr) (d : Byte) :
    runTxn ⟨v, .latch, a, d⟩ s = { s with busA := addressLines (s.cfg.descriptor v).aw a } := by
  obtain ⟨h1, h2, h3, h4⟩ := (busOk_idle hb).1 hk
  rw [runTxn_latch, State.mk.injEq]
  simp [h1, h4]

theorem runTxn_read_idle {s : State} (hb : s.bphase = .idle) (hk : s.busOk) (v : Variant) (a : Addr) (d : Byte) :
    runTxn ⟨v, .read, a, d⟩ s = { s.sample a with busA := addressLines (s.cfg.descriptor v).aw a } := by
  obtain ⟨h1, h2, h3, h4⟩ := (busOk_idle hb).1 hk
  rw [runTxn_read, sample_frame, State.mk.injEq]
  simp [h1, h2, h4]

theorem runTxn_prog_idle {s : State} (hb : s.bphase = .idle) (hk : s.busOk) (v : Variant) (a : Addr) (d : Byte) :
    runTxn ⟨v, .prog, a, d⟩ s =
      { s with busA := addressLines (s.cfg.descriptor v).aw a, busD := d, dev := s.dev.pulse a d } := by
  obtain ⟨h1, h2, h3, h4⟩ := (busOk_idle hb).1 hk
  rw [runTxn_prog, State.mk.injEq]
  simp [h1, h3, h4]

/-- A read of the Address Counter leaves this state (R127). -/
theorem afterRead_frame (d : Descriptor) (s : State) :
    s.afterRead d =
      { s with busA := BitVec.ofNat 16 (s.addr.toNat % 2 ^ d.aw), busQ := s.deviceByte s.addr,
               draws := (s.sample s.addr).draws } := by
  rw [State.afterRead, sample_frame]

/-- An engine's read at the transaction level. -/
theorem engineBus_read {s : State} {v : Variant} (w : DState) (k : Byte → State → Result) (hl : s.level = .transaction)
    (hb : s.bphase = .idle) (hk : s.busOk) (hv : s.desc = some v) (ha : s.addr.toNat < (s.cfg.descriptor v).size) :
    engineBus .read 0x00#8 w k s = k (s.deviceByte s.addr) (s.afterRead (s.cfg.descriptor v)) := by
  rw [engineBus_run w k (txn_of_lt .read 0x00#8 hv ha) hb hl, runTxn_read_idle hb hk]
  exact congrArg (fun q => k q (s.afterRead (s.cfg.descriptor v))) (sample_busQ s s.addr)

/-- An engine's program transaction at the transaction level. -/
theorem engineBus_prog {s : State} {v : Variant} (d : Byte) (w : DState) (k : Byte → State → Result)
    (hl : s.level = .transaction) (hb : s.bphase = .idle) (hk : s.busOk) (hv : s.desc = some v)
    (ha : s.addr.toNat < (s.cfg.descriptor v).size) :
    engineBus .prog d w k s =
      k s.busQ { s with busA := addressLines (s.cfg.descriptor v).aw s.addr, busD := d,
                        dev := s.dev.pulse s.addr d } := by
  rw [engineBus_run w k (txn_of_lt .prog d hv ha) hb hl, runTxn_prog_idle hb hk]

/-! ## The FIFO's contents (R43, R90) -/

/-- A removal takes the first byte of the contents. -/
theorem contents_removed {s : State} (h : s.occ ≠ 0) : s.contents = s.ringAt s.head :: s.removed.contents := by
  have e : s.occ = s.removed.occ + 1 := by rw [removed_occ h]; omega
  simp only [State.contents]
  rw [e, List.range_succ_eq_map]
  simp only [List.map_cons, List.map_map]
  congr 1
  · simp
  · apply List.map_congr_left
    intro k _
    simp only [Function.comp, removed_ringAt]
    congr 1
    show s.head + _ = s.head + 1#10 + _
    rw [BitVec.add_assoc]
    congr 1
    apply BitVec.eq_of_toNat_eq
    simp
    omega

/-- An append adds its byte after the contents. -/
theorem contents_appended {s : State} (hm : s.memoryOk) (b : Byte) (h : s.occ ≠ 1023) :
    (s.appended b).contents = s.contents ++ [b] := by
  simp only [State.contents]
  rw [appended_occ b h, List.range_succ, List.map_append]
  have hl := occ_le s
  have ho := occupancy_eq s.head s.tail
  have h1 := s.head.isLt
  have h2 := s.tail.isLt
  simp only [State.occ] at hl h
  congr 1
  · apply List.map_congr_left
    intro k hk
    rw [List.mem_range] at hk
    simp only [State.occ] at hk
    rw [appended_ringAt hm.1, if_neg]
    · rfl
    · intro e
      have e2 := congrArg BitVec.toNat e
      simp only [State.appended, BitVec.toNat_add, BitVec.toNat_ofNat] at e2
      omega
  · simp only [List.map_cons, List.map_nil]
    rw [appended_ringAt hm.1, if_pos]
    apply BitVec.eq_of_toNat_eq
    simp only [State.appended, BitVec.toNat_add, BitVec.toNat_ofNat, State.occ]
    omega

theorem contents_length (s : State) : s.contents.length = s.occ := by simp [State.contents]

theorem contents_cleared (s : State) : s.cleared.contents = [] := by
  simp [State.contents, cleared_occ]

end Sys2Proof.Machine
end

