-- ==== Sys2Proof/Laws/Decode.lean ====
section
/-! SUPPORT. The decoder's bit fields: cutting fields out of joined bit vectors and joining the fields of a word (R60, R74, R75). -/

namespace Sys2Proof

/-- The low part of a join. -/
theorem cut_low {n m : Nat} (x : BitVec n) (y : BitVec m) : BitVec.extractLsb' 0 m (x ++ y) = y := by
  apply BitVec.eq_of_getLsbD_eq
  intro i hi
  simp only [BitVec.getLsbD_extractLsb', BitVec.getLsbD_append]
  simp [hi]

/-- A field above the low part of a join is a field of the high part. -/
theorem cut_high {n m j k : Nat} (x : BitVec n) (y : BitVec m) :
    BitVec.extractLsb' (m + j) k (x ++ y) = BitVec.extractLsb' j k x := by
  apply BitVec.eq_of_getLsbD_eq
  intro i hi
  simp only [BitVec.getLsbD_extractLsb', BitVec.getLsbD_append]
  rw [if_neg (by omega)]
  congr 2
  omega

/-- All bits of a vector. -/
theorem cut_all {n : Nat} (x : BitVec n) : BitVec.extractLsb' 0 n x = x := by
  apply BitVec.eq_of_getLsbD_eq
  intro i hi
  simp only [BitVec.getLsbD_extractLsb']
  simp [hi]

/-- A word is the join of its part above bit `m` and its low `m` bits. -/
theorem join_cut {n m : Nat} (w : BitVec (n + m)) :
    BitVec.extractLsb' m n w ++ BitVec.extractLsb' 0 m w = w := by
  apply BitVec.eq_of_getLsbD_eq
  intro i hi
  simp only [BitVec.getLsbD_extractLsb', BitVec.getLsbD_append]
  split
  · simp_all
  · rw [show m + (i - m) = i by omega]
    simp
    omega

/-- R74: the select code and the data field of a FIFO word. -/
theorem fifo_fields (op : BitVec 3) (d : Byte) :
    BitVec.extractLsb' 8 3 (op ++ d) = op ∧ BitVec.extractLsb' 0 8 (op ++ d) = d :=
  ⟨(cut_high (j := 0) op d).trans (cut_all op), cut_low op d⟩

/-- R60: the two bytes of an envelope. -/
theorem envelope_fields (m op : Byte) :
    BitVec.extractLsb' 8 8 (m ++ op) = m ∧ BitVec.extractLsb' 0 8 (m ++ op) = op :=
  ⟨(cut_high (j := 0) m op).trans (cut_all m), cut_low m op⟩

/-- R75: the three fields of a bus word. -/
theorem bus_fields (op : BitVec 2) (a : Addr) (d : Byte) :
    BitVec.extractLsb' 24 2 (op ++ a ++ d) = op ∧ BitVec.extractLsb' 8 16 (op ++ a ++ d) = a ∧
      BitVec.extractLsb' 0 8 (op ++ a ++ d) = d :=
  ⟨((cut_high (j := 16) (op ++ a) d).trans (cut_high (j := 0) op a)).trans (cut_all op),
    (cut_high (j := 0) (op ++ a) d).trans (cut_low op a), cut_low (op ++ a) d⟩

/-- R75: a bus word is the join of its fields. -/
theorem bus_join (w : BitVec 26) :
    (BitVec.extractLsb' 24 2 w ++ BitVec.extractLsb' 8 16 w ++ BitVec.extractLsb' 0 8 w : BitVec 26) = w := by
  apply BitVec.eq_of_getLsbD_eq
  intro i hi
  simp only [BitVec.getLsbD_extractLsb', BitVec.getLsbD_append]
  split
  · simp_all
  · split
    · rw [show 8 + (i - 8) = i by omega]; simp; omega
    · rw [show 24 + (i - 8 - 16) = i by omega]; simp; omega

/-! ## The decoder on joined fields -/

/-- R74: the decoder on a FIFO word made of its fields. -/
theorem decodeFifo_join (op : BitVec 3) (d : Byte) :
    decodeFifo (op ++ d : BitVec 11) =
      if op = 0#3 then .ok (.push d) else if 6 ≤ op.toNat then .ok (.reservedFifoPort op d)
      else if d ≠ 0#8 then .error .nonzeroData else if op = 1#3 then .ok .pop
      else if op = 2#3 then .ok .popw else if op = 3#3 then .ok .peek
      else if op = 4#3 then .ok .size else .ok .clear := by
  unfold decodeFifo
  rw [show BitVec.extractLsb' 8 3 (op ++ d : BitVec 11) = op from (fifo_fields op d).1,
    show BitVec.extractLsb' 0 8 (op ++ d : BitVec 11) = d from (fifo_fields op d).2]

/-- R75: the decoder on a bus word made of its fields. -/
theorem decodeBus_join (op : BitVec 2) (a : Addr) (d : Byte) :
    decodeBus (op ++ a ++ d : BitVec 26) =
      if op = 3#2 then .ok (.reservedBusPort a d) else if op = 2#2 then .ok (.busProg a d)
      else if d ≠ 0#8 then .error .nonzeroD else if op = 1#2 then .ok (.busRead a)
      else .ok (.busLatch a) := by
  unfold decodeBus
  rw [show BitVec.extractLsb' 24 2 (op ++ a ++ d : BitVec 26) = op from (bus_fields op a d).1,
    show BitVec.extractLsb' 8 16 (op ++ a ++ d : BitVec 26) = a from (bus_fields op a d).2.1,
    show BitVec.extractLsb' 0 8 (op ++ a ++ d : BitVec 26) = d from (bus_fields op a d).2.2]

/-- R60: the decoder on an envelope. -/
theorem decodeEnvelope_join (op : Byte) :
    decodeEnvelope (Config.MARKER ++ op : BitVec 16) = .ok (decodeOpcode op) := by
  unfold decodeEnvelope
  rw [show BitVec.extractLsb' 8 8 (Config.MARKER ++ op : BitVec 16) = Config.MARKER from
      (envelope_fields Config.MARKER op).1,
    show BitVec.extractLsb' 0 8 (Config.MARKER ++ op : BitVec 16) = op from
      (envelope_fields Config.MARKER op).2, if_pos rfl]

end Sys2Proof
end

