-- ==== Sys2Proof/Laws/Effects.lean ====
section
/-! SUPPORT. What a step can do, said once: every step but a loss of power is a chain of the elementary effects
below. An invariant of all of them is an invariant of the step. -/

namespace Sys2Proof.Machine

/-- The state with the controller, engine and environment elements of another: everything but the configuration, the
FIFO, the flow-control signal, the logs and the bus. -/
def State.withControlOf (s x : State) : State :=
  { s with opActive := x.opActive, dstate := x.dstate, desc := x.desc, addr := x.addr, hiCh := x.hiCh,
           wdata := x.wdata, mfault := x.mfault, now := x.now, inputs := x.inputs, held := x.held, result := x.result }

/-- The elementary effects and their chains. -/
inductive Effect : State → State → Prop
  | same (s : State) : Effect s s
  | control (s x : State) (h : s.now ≤ x.now) : Effect s (s.withControlOf x)
  | append (s : State) (b : Byte) (h : s.occ ≠ 1023) : Effect s (s.appended b)
  | remove (s : State) (h : s.occ ≠ 0) : Effect s s.removed
  | clear (s : State) : Effect s s.cleared
  | evaluate (s : State) : Effect s s.flowControl
  | emit (s : State) (str : Str) : Effect s (s.emit str)
  | event (s : State) (e : Event) : Effect s (s.event e)
  | bus (s : State) (t : Txn) (a : BusAction) : Effect s (perform t s a)
  | phase (s : State) (p : BPhase) : Effect s { s with bphase := p }
  | chain (s t u : State) (h : Effect s t) (h' : Effect t u) : Effect s u

/-- A change of control elements only. -/
theorem Effect.of_control {s t : State} (h : t = s.withControlOf t) (hn : s.now ≤ t.now) : Effect s t := by
  rw [h]; exact .control s t hn

theorem Effect.goto {s t : State} (d : DState) (h : Effect s t) : Effect s (t.goto d) :=
  .chain _ _ _ h (.of_control rfl (Nat.le_refl _))

theorem Effect.answer {s t : State} (r : PortResult) (h : Effect s t) : Effect s (t.answer r) :=
  .chain _ _ _ h (.of_control rfl (Nat.le_refl _))

theorem Effect.ended {s t : State} (str : Str) (h : Effect s t) : Effect s (t.ended str) :=
  (Effect.chain _ _ _ h (.emit t str)).goto .cleanup

theorem Effect.performAll {s t : State} (x : Txn) (as : List BusAction) (h : Effect s t) :
    Effect s (performAll x as t) := by
  induction as generalizing t with
  | nil => exact h
  | cons a as ih => exact ih (.chain _ _ _ h (.bus t x a))

theorem Effect.foldPhases {s t : State} (x : Txn) (ps : List PhaseStep) (h : Effect s t) :
    Effect s (ps.foldl (fun s ph => Machine.performAll x ph.actions s) t) := by
  induction ps generalizing t with
  | nil => exact h
  | cons p ps ih => exact ih (h.performAll x p.actions)

theorem Effect.runTxn {s t : State} (x : Txn) (h : Effect s t) : Effect s (runTxn x t) :=
  (h.foldPhases x (seq (x.descriptor t) x)).performAll x (endActions x)

theorem Effect.beginTxn {s t : State} (x : Txn) (h : Effect s t) : Effect s (beginTxn x t) := by
  unfold Machine.beginTxn
  split
  · exact h
  · exact .chain _ _ _ (h.performAll x _) (.phase _ _)

theorem Effect.advanceTxn {s t : State} (x : Txn) (p : Phase) (t0 : Nat) (h : Effect s t) :
    Effect s (advanceTxn x p t0 t) := by
  unfold Machine.advanceTxn
  split
  · exact h
  · split
    · have h2 : Effect s { Machine.performAll x (endActions x) t with bphase := .idle } :=
        .chain _ _ _ (h.performAll x _) (.phase _ _)
      simp only [endTxn]
      split
      · exact h2
      · exact h2.answer _
    · exact .chain _ _ _ (h.performAll x _) (.phase _ _)

theorem Effect.recognize {s t : State} (h : Effect s t) : Effect s t.recognize := by
  rcases recognize_cases t with ⟨_, _, e⟩ | ⟨_, e⟩ <;> rw [e]
  · exact .chain _ _ _ h (.of_control rfl (Nat.le_refl _))
  · exact h

/-- What a continuation must keep for an engine transaction to keep it. -/
theorem Effect.engineBus {s u t : State} {k : TxnKind} {d : Byte} {w : DState} {c : Byte → State → Result}
    (hc : ∀ q v, Effect s v → c q v = .next t → Effect s t) (h : Effect s u)
    (he : engineBus k d w c u = .next t) : Effect s t := by
  rcases engineBus_cases k d w c u with ⟨_, e⟩ | ⟨x, _, _, e⟩ | ⟨x, _, _, _, e⟩ | ⟨x, _, _, _, e⟩ <;> rw [e] at he
  · cases he
  · cases he; exact h
  · exact hc _ _ (h.runTxn x) he
  · cases he; exact (h.beginTxn x).goto w

theorem Effect.afterBus {s u t : State} {c : Byte → State → Result}
    (hc : ∀ q v, Effect s v → c q v = .next t → Effect s t) (h : Effect s u)
    (he : afterBus c u = .next t) : Effect s t := by
  unfold Machine.afterBus at he
  split at he
  · cases he; exact h
  · exact hc _ _ h he

theorem Effect.portBus {s t : State} {i : Instr} {k : TxnKind} {a : Addr} {d : Byte}
    (he : portBus i k a d s = .next t) : Effect s t := by
  rcases portBus_cases i k a d s with ⟨_, e⟩ | ⟨x, _, _, e⟩ | ⟨x, _, _, _, e⟩ | ⟨x, _, _, _, e⟩ <;> rw [e] at he <;>
    cases he
  · exact .of_control rfl (Nat.le_refl _)
  · exact ((Effect.same s).runTxn x).answer _
  · exact (Effect.same s).beginTxn x

theorem Effect.engineEntry {s u : State} (c : DState) (h : Effect s u) : Effect s (engineEntry c u) := by
  rcases engineEntry_cases c u with ⟨_, e⟩ | ⟨v, _, e⟩ <;> rw [e]
  · exact h.ended _
  · exact .chain _ _ _ h (.of_control rfl (Nat.le_refl _))

theorem Effect.engineNext {s u t : State} {c : DState} {l : Str} (h : Effect s u) (he : engineNext c l u = .next t) :
    Effect s t := by
  rcases engineNext_cases c l u with ⟨_, e⟩ | ⟨v, _, _, e⟩ | ⟨v, _, _, e⟩ <;> rw [e] at he <;> cases he
  · exact h.ended _
  · exact .chain _ _ _ h (.of_control rfl (Nat.le_refl _))

theorem Effect.readBody {s u t : State} (q : Byte) (h : Effect s u) (he : readBody q u = .next t) : Effect s t := by
  unfold Machine.readBody at he
  split at he
  · cases he
  · exact Effect.engineNext (.chain _ _ _ h (.emit u _)) he

theorem Effect.blankBody {s u t : State} (q : Byte) (h : Effect s u) (he : blankBody q u = .next t) : Effect s t := by
  unfold Machine.blankBody at he
  split at he
  · cases he; exact h.ended _
  · exact h.engineNext he

theorem Effect.writeCompare {s u t : State} (q : Byte) (h : Effect s u) (he : writeCompare q u = .next t) :
    Effect s t := by
  unfold Machine.writeCompare at he
  split at he
  · cases he; exact h.ended _
  · exact h.engineNext he

theorem Effect.writeVerify {s u t : State} (h : Effect s u) (he : writeVerify u = .next t) : Effect s t :=
  h.engineBus (fun q _ => Effect.writeCompare q) he

theorem Effect.writeProgram {s u t : State} {b : Byte} (h : Effect s u) (he : writeProgram b u = .next t) :
    Effect s t := by
  unfold Machine.writeProgram at he
  split at he
  · cases he; exact h.ended _
  · refine Effect.engineBus (fun _ _ => Effect.writeVerify) ?_ he
    exact .chain _ _ _ h (.of_control rfl (Nat.le_refl _))

theorem Effect.setDevice {s u : State} (b : Byte) (h : Effect s u) : Effect s (setDevice b u) := by
  rcases setDevice_cases b u with ⟨v, _, _, e⟩ | ⟨_, _, e⟩ <;> rw [e]
  · exact (Effect.chain _ _ _ h (.of_control (s := u) (t := u.select v) rfl (Nat.le_refl _))).ended _
  · exact h.ended _

/-- What a popped byte may lead to. -/
theorem Effect.popped {s : State} {r : Except ErrorCode Byte} {s' : State} (h : s.popw = some (r, s')) : Effect s s' := by
  rcases popw_cases s with ⟨_, e⟩ | ⟨_, _, e⟩ | ⟨_, h0, e⟩ <;> rw [e] at h <;> cases h
  · exact .same s
  · exact .remove s h0

/-- Every meaning that answers a next state is a chain of elementary effects. -/
theorem exec_effect {i : Instr} {s t : State} (h : exec i s = .next t) : Effect s t := by
  cases i <;> simp only [exec] at h
  case read =>
    unfold execRead at h
    split at h
    · cases h; exact (Effect.same s).goto _
    · cases h; exact (Effect.same s).engineEntry _
    · split at h
      · cases h; exact (Effect.chain _ _ _ (.same s) (.emit s _)).ended _
      · exact (Effect.same s).engineBus (fun q _ => Effect.readBody q) h
    · exact (Effect.same s).afterBus (fun q _ => Effect.readBody q) h
    · cases h
  case write =>
    unfold execWrite at h
    split at h
    · cases h; exact (Effect.same s).goto _
    · cases h; exact (Effect.same s).engineEntry _
    · split at h
      · cases h; exact (Effect.same s).ended _
      · cases h; exact (Effect.same s).goto _
    · unfold writeW1 at h
      split at h
      · cases h; exact .same s
      · rename_i h'; cases h; cases ‹ErrorCode› <;> exact (Effect.popped h').ended _
      · rename_i h'; cases h
        exact .chain _ _ _ (Effect.popped h') (.of_control rfl (Nat.le_refl _))
    · split at h
      · cases h; exact .same s
      · unfold writeW2 at h
        split at h
        · cases h; exact .same s
        · rename_i h'; cases h; cases ‹ErrorCode› <;> exact (Effect.popped h').ended _
        · rename_i h'; exact (Effect.popped h').writeProgram h
    · exact (Effect.same s).afterBus (fun _ _ => Effect.writeVerify) h
    · exact (Effect.same s).afterBus (fun q _ => Effect.writeCompare q) h
    · cases h
  case blank =>
    unfold execBlank at h
    split at h
    · cases h; exact (Effect.same s).goto _
    · cases h; exact (Effect.same s).engineEntry _
    · split at h
      · cases h; exact (Effect.same s).ended _
      · exact (Effect.same s).engineBus (fun q _ => Effect.blankBody q) h
    · exact (Effect.same s).afterBus (fun q _ => Effect.blankBody q) h
    · cases h
  case ident =>
    unfold execIdent at h
    split at h <;> cases h
    · exact (Effect.same s).goto _
    · exact (Effect.same s).ended _
  case setdev =>
    unfold execSetdev at h
    split at h
    · cases h; exact (Effect.same s).goto _
    · split at h
      · cases h; exact .same s
      · rename_i h'; cases h; cases ‹ErrorCode› <;> exact (Effect.popped h').ended _
      · rename_i h'; cases h; exact (Effect.popped h').setDevice _
    · cases h
  case reset =>
    unfold execReset at h
    split at h <;> cases h <;> exact (Effect.same s).goto _
  case baud =>
    unfold execBaud at h
    split at h <;> cases h
    · exact (Effect.same s).goto _
    · exact (Effect.chain _ _ _ (.same s) (.event s _)).goto _
  case unknownOpcode op =>
    unfold execUnknownOpcode at h
    split at h <;> cases h
    exact (Effect.same s).ended _
  case push b =>
    rcases push_cases s b with ⟨_, e⟩ | ⟨h0, e⟩ <;> simp only [execPush, e] at h <;> cases h
    · exact (Effect.same s).answer _
    · exact (Effect.append s b h0).answer _
  case pop =>
    rcases pop_cases s with ⟨_, e⟩ | ⟨h0, e⟩ <;> simp only [execPop, e] at h <;> cases h
    · exact (Effect.same s).answer _
    · exact (Effect.remove s h0).answer _
  case popw =>
    unfold execPopw at h
    split at h <;> cases h
    · exact .of_control rfl (Nat.le_refl _)
    · rename_i h'; exact (Effect.popped h').answer _
  case peek => cases h; exact (Effect.same s).answer _
  case size => cases h; exact (Effect.evaluate s).answer _
  case clear =>
    rw [execClear, clear_eq] at h
    cases h; exact (Effect.clear s).answer _
  case busLatch a => exact Effect.portBus h
  case busRead a => exact Effect.portBus h
  case busProg a d => exact Effect.portBus h
  case selectA => cases h; exact .of_control rfl (Nat.le_refl _)
  case selectB => cases h; exact .of_control rfl (Nat.le_refl _)
  case recv b ok =>
    cases h
    rcases receive_cases s b ok with ⟨_, e⟩ | ⟨_, _, e⟩ | ⟨_, _, _, e⟩ | ⟨_, _, h0, e⟩ <;> rw [e]
    · exact .event s _
    · exact .of_control rfl (Nat.le_refl _)
    · exact .event s _
    · exact (Effect.append s b h0).recognize
  case recognize => cases h; exact (Effect.same s).recognize
  all_goals cases h

theorem Effect.dispatchMarker (s : State) : Effect s (dispatchMarker s) := by
  rcases pop_cases s with ⟨_, e⟩ | ⟨h0, e⟩ <;> simp only [Machine.dispatchMarker, e]
  · exact .of_control rfl (Nat.le_refl _)
  · split
    · exact (Effect.remove s h0).goto _
    · exact .chain _ _ _ (Effect.remove s h0) (.of_control rfl (Nat.le_refl _))

/-- The same for a step of the controller. -/
theorem controllerStep_effect {s t : State} (h : controllerStep s = .next t) : Effect s t := by
  unfold controllerStep at h
  split at h
  · split at h <;> cases h
    · exact (Effect.same s).goto _
    · exact .same s
  · cases h; exact .dispatchMarker s
  · rcases pop_cases s with ⟨_, e⟩ | ⟨h0, e⟩ <;> simp only [dispatchOpcode, e] at h
    · cases h; exact .of_control rfl (Nat.le_refl _)
    · exact .chain _ _ _ (.remove s h0) (exec_effect h)
  · exact exec_effect h
  · cases h
    rw [cleanup_eq]
    exact (Effect.clear s).goto .idle

/-- The same for MAIN's turn. -/
theorem mainTurn_effect {s t : State} (h : mainTurn s = .next t) : Effect s t := by
  rcases mainTurn_cases s with ⟨x, p, t0, _, e⟩ | ⟨_, _, e⟩ | ⟨i, rest, _, _, _, e⟩ <;> rw [e] at h
  · cases h; exact (Effect.same s).advanceTxn x p t0
  · exact controllerStep_effect h
  · exact .chain _ { s with held := rest } _ (.of_control rfl (Nat.le_refl _)) (exec_effect h)

/-- Every step that answers a next state is a chain of elementary effects, or power was lost. -/
theorem step_effect {s t : State} (h : step s = .next t) :
    Effect s t ∨ ∃ rest, s.inputs = .power :: rest ∧ t = ({ s with inputs := rest } : State).powerCycle := by
  rcases step_cases s with ⟨f, _, e⟩ | ⟨_, _, e⟩ | ⟨i, rest, _, hi, e⟩ <;> rw [e] at h
  · cases h
  · exact .inl (mainTurn_effect h)
  · have h0 : Effect s { s with inputs := rest } := .of_control rfl (Nat.le_refl _)
    cases i <;> simp only [inputStep] at h
    case recv b ok => exact .inl (.chain _ _ _ h0 (exec_effect h))
    case port p =>
      rcases portStep_cases p { s with inputs := rest } with ⟨_, _, e⟩ | ⟨i, _, _, _, e⟩ | ⟨i, _, _, e⟩ <;> rw [e] at h
      · cases h
      · cases h; exact .inl (.chain _ _ _ h0 (.of_control rfl (Nat.le_refl _)))
      · exact .inl (.chain _ _ _ h0 (exec_effect h))
    case main => exact .inl (.chain _ _ _ h0 (mainTurn_effect h))
    case tick dt => cases h; exact .inl (.of_control rfl (Nat.le_add_right ..))
    case power => cases h; exact .inr ⟨rest, hi, rfl⟩

end Sys2Proof.Machine
end

