-- ==== Sys2Proof/Laws/Format.lean ====
section
/-! SUPPORT. The laws of the output formats: the lines that the constraint on the tokens excludes as address/value lines
are exactly the values of `fmtAV`. -/

namespace Sys2Proof.Machine

theorem isHexL_hexDigitL : ∀ n : BitVec 4, Config.isHexL (hexDigitL n) = true := by decide

theorem hexDigitL_of_isHexL : ∀ b : Byte, Config.isHexL b = true → ∃ n : BitVec 4, b = hexDigitL n := by
  intro b h
  have key : ∀ b : Byte, Config.isHexL b = true →
      b = hexDigitL (BitVec.ofNat 4 (if b.toNat < 0x61 then b.toNat - 0x30 else b.toNat - 0x61 + 10)) := by decide
  exact ⟨_, key b h⟩

theorem upper_half {m : Nat} (p q : BitVec m) : (p ++ q).extractLsb' m m = p := by
  refine BitVec.eq_of_getLsbD_eq fun i hi => ?_
  simp only [BitVec.getLsbD_extractLsb', BitVec.getLsbD_append, hi, decide_true, Bool.true_and]
  simp

theorem lower_half {m : Nat} (p q : BitVec m) : (p ++ q).extractLsb' 0 m = q := by
  refine BitVec.eq_of_getLsbD_eq fun i hi => ?_
  simp [BitVec.getLsbD_append, hi]

/-- R68, R70: the excluded lines are the address/value lines, no more and no fewer. -/
theorem looksLikeFailure_iff (l : Str) : Config.looksLikeFailure l = true ↔ ∃ a b, l = fmtAV a b := by
  constructor
  · intro h
    unfold Config.looksLikeFailure at h
    split at h
    · rename_i z x a b c d s e t y w g k n
      simp only [Bool.and_eq_true, beq_iff_eq] at h
      obtain ⟨⟨⟨⟨⟨⟨⟨⟨⟨⟨⟨⟨⟨rfl, rfl⟩, ha⟩, hb⟩, hc⟩, hd⟩, rfl⟩, rfl⟩, rfl⟩, rfl⟩, rfl⟩, hg⟩, hk⟩, rfl⟩ := h
      obtain ⟨a, rfl⟩ := hexDigitL_of_isHexL a ha
      obtain ⟨b, rfl⟩ := hexDigitL_of_isHexL b hb
      obtain ⟨c, rfl⟩ := hexDigitL_of_isHexL c hc
      obtain ⟨d, rfl⟩ := hexDigitL_of_isHexL d hd
      obtain ⟨g, rfl⟩ := hexDigitL_of_isHexL g hg
      obtain ⟨k, rfl⟩ := hexDigitL_of_isHexL k hk
      refine ⟨(a ++ b) ++ (c ++ d), g ++ k, ?_⟩
      simp [fmtAV, hex4L, hex2L, Config.lf, upper_half (a ++ b) (c ++ d), lower_half (a ++ b) (c ++ d), upper_half a b,
        lower_half a b, upper_half c d, lower_half c d, upper_half g k, lower_half g k]
    · cases h
  · rintro ⟨a, b, rfl⟩
    simp [fmtAV, hex4L, hex2L, Config.lf, Config.looksLikeFailure, isHexL_hexDigitL]

end Sys2Proof.Machine
end

