-- ==== Sys2Proof/Laws/PerInstr.lean ====
section
/-! SUPPORT. The per-instruction family `EncodesInTable`: the word that the encoder gives a well-formed instruction has
the fixed bits of the instruction's row of spec/opcode_table.json, in a word of the row's width. -/

namespace Sys2Proof

/-- The number of a word joined of two parts. -/
theorem toNat_join {n m : Nat} (x : BitVec n) (y : BitVec m) : (x ++ y).toNat = x.toNat * 2 ^ m + y.toNat := by
  rw [BitVec.toNat_append, Nat.shiftLeft_eq, Nat.mul_comm, Nat.two_pow_add_eq_or_of_lt y.isLt]

/-- A field of a word as the table writes it: the bits `hi..lo` and their value. -/
structure TableField where
  hi : Nat
  lo : Nat
  value : Nat
deriving DecidableEq, Repr

/-- Whether number `w` has the field. -/
def TableField.holdsIn (f : TableField) (w : Nat) : Prop := w / 2 ^ f.lo % 2 ^ (f.hi - f.lo + 1) = f.value

/-- The width of a request's word and its number; the two events have none (R77, R92). -/
def Request.word : Request → Option (Nat × Nat)
  | .envelope w => some (16, w.toNat)
  | .port (.fifo w) => some (11, w.toNat)
  | .port (.bus w) => some (26, w.toNat)
  | .port (.select w) => some (2, w.toNat)
  | .recv _ _ => none
  | .recognize => none

/-- The width and the fixed fields of each instruction's row of spec/opcode_table.json. -/
def tableRow : Instr → Option (Nat × List TableField)
  | .read => some (16, [⟨15, 0, 0x2431⟩])
  | .write => some (16, [⟨15, 0, 0x2432⟩])
  | .blank => some (16, [⟨15, 0, 0x2433⟩])
  | .ident => some (16, [⟨15, 0, 0x2434⟩])
  | .setdev => some (16, [⟨15, 0, 0x2435⟩])
  | .reset => some (16, [⟨15, 0, 0x2439⟩])
  | .baud => some (16, [⟨15, 0, 0x2455⟩])
  | .unknownOpcode _ => some (16, [⟨15, 8, 0x24⟩])
  | .push _ => some (11, [⟨10, 8, 0⟩])
  | .pop => some (11, [⟨10, 0, 0x100⟩])
  | .popw => some (11, [⟨10, 0, 0x200⟩])
  | .peek => some (11, [⟨10, 0, 0x300⟩])
  | .size => some (11, [⟨10, 0, 0x400⟩])
  | .clear => some (11, [⟨10, 0, 0x500⟩])
  | .reservedFifoPort _ _ => some (11, [⟨10, 9, 3⟩])
  | .busLatch _ => some (26, [⟨7, 0, 0⟩, ⟨25, 24, 0⟩])
  | .busRead _ => some (26, [⟨7, 0, 0⟩, ⟨25, 24, 1⟩])
  | .busProg _ _ => some (26, [⟨25, 24, 2⟩])
  | .reservedBusPort _ _ => some (26, [⟨25, 24, 3⟩])
  | .selectA => some (2, [⟨1, 0, 1⟩])
  | .selectB => some (2, [⟨1, 0, 2⟩])
  | .reservedSelect0 => some (2, [⟨1, 0, 0⟩])
  | .reservedSelect3 => some (2, [⟨1, 0, 3⟩])
  | .recv _ _ => none
  | .recognize => none

/-- The number of a bus word made of its fields (R75). -/
theorem bus_toNat (op : BitVec 2) (a : Addr) (d : Byte) :
    (op ++ a ++ d : BitVec 26).toNat = (op.toNat * 2 ^ 16 + a.toNat) * 2 ^ 8 + d.toNat := by
  rw [show (op ++ a ++ d : BitVec 26).toNat = (op ++ a : BitVec 18).toNat * 2 ^ 8 + d.toNat from toNat_join _ _,
    show (op ++ a : BitVec 18).toNat = op.toNat * 2 ^ 16 + a.toNat from toNat_join _ _]

end Sys2Proof

namespace Sys2Proof.Laws.EncodesInTable

/-- A well-formed instruction has a word exactly when its row gives one, of the row's width, with every fixed field. -/
def Statement (i : Instr) : Prop :=
  i.wf = true →
    match (encode i).word, tableRow i with
    | some (n, w), some (width, fields) => n = width ∧ ∀ f ∈ fields, f.holdsIn w
    | none, none => True
    | _, _ => False

/-- A row with one fixed field. -/
theorem one {n w : Nat} {f : TableField} (h : f.holdsIn w) : n = n ∧ ∀ g ∈ [f], g.holdsIn w :=
  ⟨rfl, by simpa using h⟩

theorem read : Statement .read := fun _ => one rfl
theorem write : Statement .write := fun _ => one rfl
theorem blank : Statement .blank := fun _ => one rfl
theorem ident : Statement .ident := fun _ => one rfl
theorem setdev : Statement .setdev := fun _ => one rfl
theorem reset : Statement .reset := fun _ => one rfl
theorem baud : Statement .baud := fun _ => one rfl
theorem pop : Statement .pop := fun _ => one rfl
theorem popw : Statement .popw := fun _ => one rfl
theorem peek : Statement .peek := fun _ => one rfl
theorem size : Statement .size := fun _ => one rfl
theorem clear : Statement .clear := fun _ => one rfl
theorem selectA : Statement .selectA := fun _ => one rfl
theorem selectB : Statement .selectB := fun _ => one rfl
theorem reservedSelect0 : Statement .reservedSelect0 := fun _ => one rfl
theorem reservedSelect3 : Statement .reservedSelect3 := fun _ => one rfl
theorem recv (b : Byte) (ok : Bool) : Statement (.recv b ok) := fun _ => trivial
theorem recognize : Statement .recognize := fun _ => trivial

theorem unknownOpcode (op : Byte) : Statement (.unknownOpcode op) := by
  intro _
  refine one ?_
  have h : (Config.MARKER ++ op : BitVec 16).toNat = 0x24 * 2 ^ 8 + op.toNat := toNat_join _ _
  have := op.isLt
  show (Config.MARKER ++ op : BitVec 16).toNat / 2 ^ 8 % 2 ^ 8 = 0x24
  omega

theorem push (b : Byte) : Statement (.push b) := by
  intro _
  refine one ?_
  have h : (0#3 ++ b : BitVec 11).toNat = 0 * 2 ^ 8 + b.toNat := toNat_join _ _
  have := b.isLt
  show (0#3 ++ b : BitVec 11).toNat / 2 ^ 8 % 2 ^ 3 = 0
  omega

theorem reservedFifoPort (sel : BitVec 3) (data : Byte) : Statement (.reservedFifoPort sel data) := by
  intro hw
  refine one ?_
  have h : (sel ++ data : BitVec 11).toNat = sel.toNat * 2 ^ 8 + data.toNat := toNat_join _ _
  have := data.isLt
  have := sel.isLt
  have : 6 ≤ sel.toNat := by simpa [Instr.wf] using hw
  show (sel ++ data : BitVec 11).toNat / 2 ^ 9 % 2 ^ 2 = 3
  omega

/-- The fixed fields of a bus word. -/
theorem bus_field (op : BitVec 2) (a : Addr) (d : Byte) :
    TableField.holdsIn ⟨25, 24, op.toNat⟩ (op ++ a ++ d : BitVec 26).toNat ∧
      TableField.holdsIn ⟨7, 0, d.toNat⟩ (op ++ a ++ d : BitVec 26).toNat := by
  have h := bus_toNat op a d
  have := d.isLt
  have := a.isLt
  have := op.isLt
  constructor
  · show (op ++ a ++ d : BitVec 26).toNat / 2 ^ 24 % 2 ^ 2 = op.toNat
    omega
  · show (op ++ a ++ d : BitVec 26).toNat / 2 ^ 0 % 2 ^ 8 = d.toNat
    omega

theorem busLatch (a : Addr) : Statement (.busLatch a) := by
  intro _
  refine ⟨rfl, fun f hf => ?_⟩
  simp only [List.mem_cons, List.not_mem_nil, or_false] at hf
  rcases hf with rfl | rfl
  · exact (bus_field 0#2 a 0#8).2
  · exact (bus_field 0#2 a 0#8).1

theorem busRead (a : Addr) : Statement (.busRead a) := by
  intro _
  refine ⟨rfl, fun f hf => ?_⟩
  simp only [List.mem_cons, List.not_mem_nil, or_false] at hf
  rcases hf with rfl | rfl
  · exact (bus_field 1#2 a 0#8).2
  · exact (bus_field 1#2 a 0#8).1

theorem busProg (a : Addr) (d : Byte) : Statement (.busProg a d) := by
  intro _
  refine one ?_
  exact (bus_field 2#2 a d).1

theorem reservedBusPort (a : Addr) (d : Byte) : Statement (.reservedBusPort a d) := by
  intro _
  refine one ?_
  exact (bus_field 3#2 a d).1

end Sys2Proof.Laws.EncodesInTable
end

