-- ==== Sys2Proof/Laws/Shared.lean ====
section
/-! SUPPORT. What a meaning does to the state that the RX and MAIN agents share (R54): the FIFO, its statistic, the
two flags and the Device Descriptor. Each meaning makes at most one such change. -/

namespace Sys2Proof.Machine

/-- The elements of R54 and the Device Descriptor register. -/
def State.shared (s : State) : Memory × Index × Index × Bool × BitVec 32 × Bool × Option Variant :=
  (s.ring, s.head, s.tail, s.stop, s.rxCount, s.opActive, s.desc)

theorem shared_eq {s t : State} (h : t.shared = s.shared) :
    t.ring = s.ring ∧ t.head = s.head ∧ t.tail = s.tail ∧ t.stop = s.stop ∧ t.rxCount = s.rxCount ∧
      t.opActive = s.opActive ∧ t.desc = s.desc := by
  simpa [State.shared] using h

theorem shared_occ {s t : State} (h : t.shared = s.shared) : t.occ = s.occ := by
  obtain ⟨_, h1, h2, _⟩ := shared_eq h
  simp [State.occ, h1, h2]

theorem shared_ringAt {s t : State} (h : t.shared = s.shared) (i : Index) : t.ringAt i = s.ringAt i := by
  simp [State.ringAt, (shared_eq h).1]

/-! ## The operations that leave it alone (R125 for the bus) -/

@[simp] theorem performAll_shared (x : Txn) (as : List BusAction) (s : State) :
    (performAll x as s).shared = s.shared := by rw [performAll_frame]; rfl

@[simp] theorem runTxn_shared (x : Txn) (s : State) : (runTxn x s).shared = s.shared := by rw [runTxn_frame]; rfl

@[simp] theorem beginTxn_shared (x : Txn) (s : State) : (beginTxn x s).shared = s.shared := by rw [beginTxn_eq]; rfl

@[simp] theorem goto_shared (d : DState) (s : State) : (s.goto d).shared = s.shared := rfl

@[simp] theorem ended_shared (str : Str) (s : State) : (s.ended str).shared = s.shared := rfl

@[simp] theorem emit_shared (str : Str) (s : State) : (s.emit str).shared = s.shared := rfl

@[simp] theorem event_shared (e : Event) (s : State) : (s.event e).shared = s.shared := rfl

@[simp] theorem answer_shared (r : PortResult) (s : State) : (s.answer r).shared = s.shared := rfl

@[simp] theorem wait_shared (i : Instr) (s : State) : (s.wait i).shared = s.shared := rfl

@[simp] theorem advanceTxn_shared (x : Txn) (p : Phase) (t0 : Nat) (s : State) :
    (advanceTxn x p t0 s).shared = s.shared := by
  have key : ∀ q, ({ performAll x (endActions x) s with bphase := q } : State).shared = s.shared :=
    fun _ => performAll_shared x (endActions x) s
  rcases advanceTxn_cases x p t0 s with ⟨_, e⟩ | ⟨_, _, e⟩ | ⟨ph, rest, _, _, e⟩ <;> rw [e]
  · simp only [endTxn]
    split
    · exact key .idle
    · exact key .idle
  · exact performAll_shared x ph.actions s

@[simp] theorem engineEntry_shared (c : DState) (s : State) : (engineEntry c s).shared = s.shared := by
  rcases engineEntry_cases c s with ⟨_, e⟩ | ⟨v, _, e⟩ <;> rw [e] <;> rfl

theorem engineNext_shared {c : DState} {l : Str} {s t : State} (h : engineNext c l s = .next t) :
    t.shared = s.shared := by
  rcases engineNext_cases c l s with ⟨_, e⟩ | ⟨v, _, _, e⟩ | ⟨v, _, _, e⟩ <;> rw [e] at h <;> cases h <;> rfl

theorem readBody_shared {q : Byte} {s t : State} (h : readBody q s = .next t) : t.shared = s.shared := by
  unfold readBody at h
  split at h
  · cases h
  · exact (engineNext_shared h).trans (emit_shared ..)

theorem blankBody_shared {q : Byte} {s t : State} (h : blankBody q s = .next t) : t.shared = s.shared := by
  unfold blankBody at h
  split at h
  · cases h; rfl
  · exact engineNext_shared h

theorem writeCompare_shared {q : Byte} {s t : State} (h : writeCompare q s = .next t) : t.shared = s.shared := by
  unfold writeCompare at h
  split at h
  · cases h; rfl
  · exact engineNext_shared h

theorem engineBus_shared {k : TxnKind} {d : Byte} {w : DState} {c : Byte → State → Result} {s t : State}
    (hc : ∀ q u, c q u = .next t → t.shared = u.shared) (h : engineBus k d w c s = .next t) :
    t.shared = s.shared := by
  rcases engineBus_cases k d w c s with ⟨_, e⟩ | ⟨x, _, _, e⟩ | ⟨x, _, _, _, e⟩ | ⟨x, _, _, _, e⟩ <;> rw [e] at h
  · cases h
  · cases h; rfl
  · exact (hc _ _ h).trans (runTxn_shared x s)
  · cases h; exact beginTxn_shared x s

theorem afterBus_shared {c : Byte → State → Result} {s t : State}
    (hc : ∀ q u, c q u = .next t → t.shared = u.shared) (h : afterBus c s = .next t) : t.shared = s.shared := by
  unfold afterBus at h
  split at h
  · cases h; rfl
  · exact hc _ _ h

theorem portBus_shared {i : Instr} {k : TxnKind} {a : Addr} {d : Byte} {s t : State}
    (h : portBus i k a d s = .next t) : t.shared = s.shared := by
  rcases portBus_cases i k a d s with ⟨_, e⟩ | ⟨x, _, _, e⟩ | ⟨x, _, _, _, e⟩ | ⟨x, _, _, _, e⟩ <;> rw [e] at h <;>
    cases h
  · rfl
  · exact runTxn_shared x s
  · exact beginTxn_shared x s

theorem writeVerify_shared {s t : State} (h : writeVerify s = .next t) : t.shared = s.shared :=
  engineBus_shared (fun _ _ => writeCompare_shared) h

theorem writeProgram_shared {b : Byte} {s t : State} (h : writeProgram b s = .next t) : t.shared = s.shared := by
  unfold writeProgram at h
  split at h
  · cases h; rfl
  · refine (engineBus_shared ?_ h).trans rfl
    exact fun _ _ => writeVerify_shared

/-! ## Everything a meaning can do to it -/

/-- The one change that meaning `i` makes, from `s` to `t`. -/
inductive SharedChange (i : Instr) (s t : State) : Prop
  | none (h : t.shared = s.shared)
  | push (b : Byte) (hi : i = .push b) (h0 : s.occ ≠ 1023) (h : t.shared = (s.appended b).shared)
  | receive (b : Byte) (hi : i = .recv b true) (hb : b ≠ s.cfg.cancelChar) (h0 : s.occ ≠ 1023)
      (h : t.shared = (s.appended b).recognize.shared)
  | cancel (b : Byte) (hi : i = .recv b true) (hb : b = s.cfg.cancelChar)
      (h : t.shared = ({ s with opActive := false } : State).shared)
  | recognize (hi : i = .recognize) (h : t.shared = s.recognize.shared)
  | take (hi : i ∈ [Instr.pop, .popw, .setdev, .write]) (h0 : s.occ ≠ 0) (h : t.shared = s.removed.shared)
  | setdev (v : Variant) (hi : i = .setdev) (hd : s.dstate = .exec .setdev) (ha : s.opActive = true)
      (h0 : s.occ ≠ 0) (hv : (s.cfg.descriptor v).devCode = s.ringAt s.head)
      (h : t.shared = (s.removed.select v).shared)
  | size (hi : i = .size) (h : t.shared = s.flowControl.shared)
  | clear (hi : i = .clear) (h : t.shared = s.cleared.shared)
  | select (v : Variant) (hi : i = .selectA ∨ i = .selectB) (h : t.shared = (s.select v).shared)

theorem exec_shared {i : Instr} {s t : State} (h : exec i s = .next t) : SharedChange i s t := by
  cases i <;> simp only [exec] at h
  case read =>
    refine .none ?_
    unfold execRead at h
    split at h
    · cases h; rfl
    · cases h; simp
    · split at h
      · cases h; rfl
      · exact engineBus_shared (fun _ _ => readBody_shared) h
    · exact afterBus_shared (fun _ _ => readBody_shared) h
    · cases h
  case blank =>
    refine .none ?_
    unfold execBlank at h
    split at h
    · cases h; rfl
    · cases h; simp
    · split at h
      · cases h; rfl
      · exact engineBus_shared (fun _ _ => blankBody_shared) h
    · exact afterBus_shared (fun _ _ => blankBody_shared) h
    · cases h
  case write =>
    unfold execWrite at h
    split at h
    · cases h; exact .none rfl
    · cases h; exact .none (by simp)
    · split at h <;> cases h <;> exact .none rfl
    · rcases popw_cases s with ⟨_, e⟩ | ⟨_, _, e⟩ | ⟨_, h0, e⟩ <;> simp only [writeW1, e] at h <;> cases h
      · exact .none rfl
      · exact .none rfl
      · exact .take (by simp) h0 rfl
    · split at h
      · cases h; exact .none rfl
      · rcases popw_cases s with ⟨_, e⟩ | ⟨_, _, e⟩ | ⟨_, h0, e⟩ <;> simp only [writeW2, e] at h
        · cases h; exact .none rfl
        · cases h; exact .none rfl
        · exact .take (by simp) h0 (writeProgram_shared h)
    · exact .none (afterBus_shared (fun _ _ => writeVerify_shared) h)
    · exact .none (afterBus_shared (fun _ _ => writeCompare_shared) h)
    · cases h
  case ident => unfold execIdent at h; split at h <;> cases h <;> exact .none rfl
  case reset => unfold execReset at h; split at h <;> cases h <;> exact .none rfl
  case baud => unfold execBaud at h; split at h <;> cases h <;> exact .none rfl
  case unknownOpcode op => unfold execUnknownOpcode at h; split at h <;> cases h; exact .none rfl
  case setdev =>
    unfold execSetdev at h
    split at h
    · cases h; exact .none rfl
    · rename_i hd
      rcases popw_cases s with ⟨_, e⟩ | ⟨_, _, e⟩ | ⟨ha, h0, e⟩ <;> simp only [e] at h <;> cases h
      · exact .none rfl
      · exact .none rfl
      · rcases setDevice_cases (s.ringAt s.head) s.removed with ⟨v, _, hv, e⟩ | ⟨_, _, e⟩ <;> rw [e]
        · exact .setdev v rfl hd ha h0 hv rfl
        · exact .take (by simp) h0 rfl
    · cases h
  case push b =>
    rcases push_cases s b with ⟨_, e⟩ | ⟨h0, e⟩ <;> simp only [execPush, e] at h <;> cases h
    · exact .none rfl
    · exact .push b rfl h0 rfl
  case pop =>
    rcases pop_cases s with ⟨_, e⟩ | ⟨h0, e⟩ <;> simp only [execPop, e] at h <;> cases h
    · exact .none rfl
    · exact .take (by simp) h0 rfl
  case popw =>
    rcases popw_cases s with ⟨_, e⟩ | ⟨_, _, e⟩ | ⟨_, h0, e⟩ <;> simp only [execPopw, e] at h <;> cases h
    · exact .none rfl
    · exact .none rfl
    · exact .take (by simp) h0 rfl
  case peek => cases h; exact .none rfl
  case size => cases h; exact .size rfl rfl
  case clear => rw [execClear, clear_eq] at h; cases h; exact .clear rfl rfl
  case busLatch a => exact .none (portBus_shared h)
  case busRead a => exact .none (portBus_shared h)
  case busProg a d => exact .none (portBus_shared h)
  case selectA => cases h; exact .select .A (.inl rfl) rfl
  case selectB => cases h; exact .select .B (.inr rfl) rfl
  case recv b ok =>
    cases h
    rcases receive_cases s b ok with ⟨_, e⟩ | ⟨rfl, hb, e⟩ | ⟨_, _, _, e⟩ | ⟨rfl, hb, h0, e⟩ <;> rw [e]
    · exact .none rfl
    · exact .cancel b rfl hb rfl
    · exact .none rfl
    · exact .receive b rfl hb h0 rfl
  case recognize => cases h; exact .recognize rfl rfl
  all_goals cases h

/-! ## Everything a step can do to it -/

/-- The eight instructions an opcode byte decodes to. -/
theorem decodeOpcode_cases (op : Byte) :
    decodeOpcode op ∈ [Instr.read, .write, .blank, .ident, .setdev, .reset, .baud] ∨
      (op ∉ knownOpcodes ∧ decodeOpcode op = .unknownOpcode op) := by
  by_cases h : op ∈ knownOpcodes
  · simp only [knownOpcodes, List.mem_cons, List.not_mem_nil, or_false] at h
    rcases h with rfl | rfl | rfl | rfl | rfl | rfl | rfl <;> exact .inl (by decide)
  · refine .inr ⟨h, ?_⟩
    simp only [knownOpcodes, List.mem_cons, List.not_mem_nil, or_false, not_or] at h
    simp [decodeOpcode, h]

/-- R101: what the dispatch of an opcode byte is: the entry of its command, or the unknown-opcode report. -/
theorem exec_dispatched {s : State} (op : Byte) (h : s.dstate = .disp1) :
    (∃ e : Exec, (DState.exec e).iterating = false ∧ (DState.exec e).onBus = false ∧
      exec (decodeOpcode op) s = .next (s.goto (.exec e))) ∨
      exec (decodeOpcode op) s = .next (s.ended Config.unknownLine) := by
  rcases decodeOpcode_cases op with hm | ⟨_, e⟩
  · simp only [List.mem_cons, List.not_mem_nil, or_false] at hm
    refine .inl ?_
    rcases hm with e | e | e | e | e | e | e <;> rw [e]
    · exact ⟨_, rfl, rfl, execRead_disp1 h⟩
    · exact ⟨_, rfl, rfl, execWrite_disp1 h⟩
    · exact ⟨_, rfl, rfl, execBlank_disp1 h⟩
    · exact ⟨_, rfl, rfl, execIdent_disp1 h⟩
    · exact ⟨_, rfl, rfl, execSetdev_disp1 h⟩
    · exact ⟨_, rfl, rfl, execReset_disp1 h⟩
    · exact ⟨_, rfl, rfl, execBaud_disp1 h⟩
  · rw [e]; exact .inr (execUnknownOpcode_disp1 op h)

/-- Where the instruction that a step runs comes from. -/
inductive Origin (i : Instr) (s : State) : Prop
  | byte (b : Byte) (ok : Bool) (rest : List Input) (hs : s.inputs = .recv b ok :: rest) (hi : i = .recv b ok)
  | port (p : PortWord) (rest : List Input) (hs : s.inputs = .port p :: rest) (hi : decodePort p = .ok i)
  | held (hi : i ∈ s.held)
  | command (e : Exec) (hd : s.dstate = .exec e) (hi : i = e.instr)

/-- What a step does to the shared state: power was lost; it ran an instruction; nothing; a pop of Dispatching; or the
Cleanup. -/
inductive StepChange (s t : State) : Prop
  | power (rest : List Input) (hs : s.inputs = .power :: rest)
      (h : t = ({ s with inputs := rest } : State).powerCycle)
  | runs (i : Instr) (u : State) (ho : Origin i s) (hx : exec i u = .next t) (hu : u.shared = s.shared)
      (hc : u.cfg = s.cfg) (hd : u.dstate = s.dstate)
  | quiet (h : t.shared = s.shared)
  | popped (hd : s.dstate = .disp0 ∨ s.dstate = .disp1) (h0 : s.occ ≠ 0) (h : t.shared = s.removed.shared)
  | cleanup (hd : s.dstate = .cleanup) (h : t.shared = s.cleared.shared)

theorem controllerStep_change {s u t : State} (hu : u = { s with inputs := u.inputs })
    (h : controllerStep u = .next t) : StepChange s t := by
  have hd : u.dstate = s.dstate := by rw [hu]
  have hs : u.shared = s.shared := by rw [hu]; rfl
  have hr : u.removed.shared = s.removed.shared := by rw [hu]; rfl
  cases hx : u.dstate with
  | idle =>
    rw [controllerStep_idle hx] at h
    cases h
    refine .quiet ?_
    split
    · exact hs
    · exact hs
  | disp0 =>
    rw [controllerStep_disp0 hx] at h
    cases h
    rcases pop_cases u with ⟨_, e⟩ | ⟨h0, e⟩
    · simp only [dispatchMarker, e]
      exact .quiet hs
    · have h0' : s.occ ≠ 0 := by rwa [← shared_occ hs]
      refine .popped (.inl (hd ▸ hx)) h0' ?_
      simp only [dispatchMarker, e]
      split
      · exact hr
      · exact hr
  | disp1 =>
    rw [controllerStep_disp1 hx] at h
    rcases pop_cases u with ⟨_, e⟩ | ⟨h0, _⟩
    · simp only [dispatchOpcode, e] at h
      cases h
      exact .quiet hs
    · have h0' : s.occ ≠ 0 := by rwa [← shared_occ hs]
      refine .popped (.inr (hd ▸ hx)) h0' ?_
      rw [dispatchOpcode_some h0] at h
      rcases exec_dispatched (s := u.removed) (u.ringAt u.head) hx with ⟨e, _, _, he⟩ | he <;> rw [he] at h <;> cases h <;>
        exact hr
  | exec e =>
    rw [controllerStep_exec hx] at h
    exact .runs e.instr u (.command e (hd ▸ hx) rfl) h hs (by rw [hu]) hd
  | cleanup =>
    rw [controllerStep_cleanup hx] at h
    cases h
    refine .cleanup (hd ▸ hx) ?_
    rw [cleanup_eq, hu]
    rfl

theorem mainTurn_change {s u t : State} (hu : u = { s with inputs := u.inputs }) (h : mainTurn u = .next t) :
    StepChange s t := by
  have hs : u.shared = s.shared := by rw [hu]; rfl
  rcases mainTurn_cases u with ⟨x, p, t0, _, e⟩ | ⟨_, _, e⟩ | ⟨i, rest, _, _, hh, e⟩ <;> rw [e] at h
  · cases h
    exact .quiet ((advanceTxn_shared ..).trans hs)
  · exact controllerStep_change hu h
  · refine .runs i { u with held := rest } (.held ?_) h hs (by rw [hu]) (by rw [hu])
    have : s.held = i :: rest := by rw [← hh, hu]
    simp [this]

theorem step_change {s t : State} (h : step s = .next t) : StepChange s t := by
  rcases step_cases s with ⟨f, _, e⟩ | ⟨_, _, e⟩ | ⟨i, rest, _, hi, e⟩ <;> rw [e] at h
  · cases h
  · exact mainTurn_change rfl h
  · cases i <;> simp only [inputStep] at h
    case recv b ok => exact .runs _ { s with inputs := rest } (.byte b ok rest hi rfl) h rfl rfl rfl
    case port p =>
      rcases portStep_cases p { s with inputs := rest } with ⟨_, _, e⟩ | ⟨i, _, _, _, e⟩ | ⟨i, hp, _, e⟩ <;> rw [e] at h
      · cases h
      · cases h; exact .quiet rfl
      · exact .runs i { s with inputs := rest } (.port p rest hi hp) h rfl rfl rfl
    case main => exact mainTurn_change (u := { s with inputs := rest }) rfl h
    case tick dt => cases h; exact .quiet rfl
    case power => cases h; exact .power rest hi rfl

/-- No port word stands for an event of the receive path or for a command (R74, R75, R76). -/
theorem decodePort_kind {p : PortWord} {i : Instr} (h : decodePort p = .ok i) :
    (∀ b ok, i ≠ .recv b ok) ∧ i ≠ .recognize ∧ ∀ e : Exec, i ≠ e.instr := by
  have key : ∀ e : Exec, e.instr ∈ [Instr.read, .write, .blank, .ident, .setdev, .reset, .baud] := by
    intro e; cases e <;> simp [Exec.instr]
  suffices hs : (∀ b ok, i ≠ .recv b ok) ∧ i ≠ .recognize ∧
      i ∉ [Instr.read, .write, .blank, .ident, .setdev, .reset, .baud] from
    ⟨hs.1, hs.2.1, fun e he => hs.2.2 (he ▸ key e)⟩
  cases p with
  | fifo w =>
    simp only [decodePort, decodeFifo] at h
    repeat' split at h
    all_goals (cases h; try simp)
  | bus w =>
    simp only [decodePort, decodeBus] at h
    repeat' split at h
    all_goals (cases h; try simp)
  | select w =>
    simp only [decodePort, decodeSelect] at h
    repeat' split at h
    all_goals (cases h; try simp)

/-- On the wire an instruction comes from a received byte or from the command that runs. -/
theorem origin_wire {i : Instr} {s : State} (hw : s.wireOnly) (h : Origin i s) :
    (∃ b ok rest, s.inputs = .recv b ok :: rest ∧ i = .recv b ok) ∨ ∃ e : Exec, s.dstate = .exec e ∧ i = e.instr := by
  rcases h with ⟨b', ok, rest, hs, hi⟩ | ⟨p, rest, hs, hi⟩ | hi | ⟨e, hd, hi⟩
  · exact .inl ⟨_, _, _, hs, hi⟩
  · have := hw.2
    rw [hs] at this
    simp [Input.isPort] at this
  · rw [hw.1] at hi
    simp at hi
  · exact .inr ⟨e, hd, hi⟩

end Sys2Proof.Machine
end

