-- ==== Sys2Proof/Tests/Slice0.lean ====
section
/-! SUPPORT. The model's own tests: ill-formed terms, words written out from the spec's encodings (30_encoding.md,
95_test_vectors.md 3.8), one-step vectors of 95_test_vectors.md under its test configuration TC, and a witness for the
hypotheses of every obligation that has some. -/

namespace Sys2Proof.Tests

open Sys2Proof Sys2Proof.Machine

/-! ## Small states -/

/-- The reset state under TC with an erased simulated device (95_test_vectors.md section 1). -/
def tc : State := { State.powerOn Config.tc 0 with dev := .sim [] }

/-- Bytes in the ring from index 0 on. -/
def ringOf (bs : Str) : Memory := bs.zipIdx.foldl (fun m p => Memory.write 0x00#8 m p.2 p.1) []

/-- `s` with `bs` as the buffer's contents, from index 0 on. -/
def holding (bs : Str) (s : State) : State :=
  { s with ring := ringOf bs, head := 0#10, tail := BitVec.ofNat 10 (1023 + bs.length) }

/-- `s` with the flag set and the controller at `d`. -/
def active (d : DState) (s : State) : State := { s with opActive := true, dstate := d }

/-- `s` at the signal level. -/
def signal (s : State) : State := { s with level := .signal }

/-- What a meaning leaves, seen through `f`. -/
def after {α : Type} (i : Instr) (s : State) (f : State → α) : Option α := (nextState (exec i s)).map f

/-- What a step leaves, seen through `f`. -/
def stepped {α : Type} (s : State) (f : State → α) : Option α := (nextState (step s)).map f

/-- The reason of a refusal, if the outcome is one. -/
def refusal : Result → Option Refusal
  | .refused r => some r
  | .next _ => none
  | .fault _ => none

/-! ## Ill-formed terms (WellFormed) and ill-formed parameters -/

theorem test_known_opcode_is_no_unknown : Instr.wf (.unknownOpcode 0x31#8) = false := by decide
theorem test_baud_opcode_is_no_unknown : Instr.wf (.unknownOpcode 0x55#8) = false := by decide
theorem test_used_select_is_not_reserved : Instr.wf (.reservedFifoPort 5#3 0x00#8) = false := by decide
theorem test_tc_is_wellformed : Config.tc.wf = true := by decide
theorem test_equal_codes_are_refused :
    ({ Config.tc with descB := { Config.tc.descB with devCode := 0x41#8 } } : Config).wf = false := by decide
theorem test_size_beyond_lines_is_refused :
    ({ Config.tc with descB := { Config.tc.descB with size := 5 } } : Config).wf = false := by decide
theorem test_code_equal_to_cancel_is_refused :
    ({ Config.tc with cancelChar := 0x41#8 } : Config).wf = false := by decide
theorem test_equal_tokens_are_refused :
    ({ Config.tc with noneToken := Config.tc.descA.identToken } : Config).wf = false := by decide
/-- R68: `0x0123 = 0x7f` is an address/value line, and R70 excludes it as a token. -/
theorem test_failure_line_is_no_token :
    ({ Config.tc with noneToken := [0x30#8, 0x78#8, 0x30#8, 0x31#8, 0x32#8, 0x33#8, 0x20#8, 0x3D#8, 0x20#8, 0x30#8,
        0x78#8, 0x37#8, 0x66#8] } : Config).wf = false := by decide
/-- R17, R70: `0x0123 = 0x7F` equals no address/value line. -/
theorem test_uppercase_failure_shape_is_a_token :
    ({ Config.tc with noneToken := [0x30#8, 0x78#8, 0x30#8, 0x31#8, 0x32#8, 0x33#8, 0x20#8, 0x3D#8, 0x20#8, 0x30#8,
        0x78#8, 0x37#8, 0x46#8] } : Config).wf = true := by decide

/-! ## Decoding of words written out from the spec (R61, R74, R75, R76, vectors Q1 to Q10, D2, D3) -/

theorem test_decode_read : decode (.envelope 0b0010010000110001#16) = .ok .read := by decide
theorem test_decode_write : decode (.envelope 0b0010010000110010#16) = .ok .write := by decide
theorem test_decode_blank : decode (.envelope 0b0010010000110011#16) = .ok .blank := by decide
theorem test_decode_ident : decode (.envelope 0b0010010000110100#16) = .ok .ident := by decide
theorem test_decode_setdev : decode (.envelope 0b0010010000110101#16) = .ok .setdev := by decide
theorem test_decode_reset : decode (.envelope 0b0010010000111001#16) = .ok .reset := by decide
theorem test_decode_baud : decode (.envelope 0b0010010001010101#16) = .ok .baud := by decide
theorem test_decode_lowercase_u : decode (.envelope 0x2475#16) = .ok (.unknownOpcode 0x75#8) := by decide
theorem test_decode_marker_twice : decode (.envelope 0x2424#16) = .ok (.unknownOpcode 0x24#8) := by decide
theorem test_decode_no_marker : decode (.envelope 0x2531#16) = .error .notAMarker := by decide
theorem test_decode_push : decode (.port (.fifo 0b00001000001#11)) = .ok (.push 0x41#8) := by decide
theorem test_decode_pop : decode (.port (.fifo 0b00100000000#11)) = .ok .pop := by decide
theorem test_decode_popw : decode (.port (.fifo 0b01000000000#11)) = .ok .popw := by decide
theorem test_decode_peek : decode (.port (.fifo 0b01100000000#11)) = .ok .peek := by decide
theorem test_decode_size : decode (.port (.fifo 0b10000000000#11)) = .ok .size := by decide
theorem test_decode_clear : decode (.port (.fifo 0b10100000000#11)) = .ok .clear := by decide
theorem test_decode_reserved_fifo : decode (.port (.fifo 0x600#11)) = .ok (.reservedFifoPort 6#3 0#8) := by decide
theorem test_decode_reserved_fifo_top : decode (.port (.fifo 0x7FF#11)) = .ok (.reservedFifoPort 7#3 0xFF#8) := by decide
theorem test_decode_pop_with_data : decode (.port (.fifo 0x141#11)) = .error .nonzeroData := by decide
theorem test_decode_latch : decode (.port (.bus 0x0007FF00#26)) = .ok (.busLatch 0x07FF#16) := by decide
theorem test_decode_bus_read : decode (.port (.bus 0x01001000#26)) = .ok (.busRead 0x0010#16) := by decide
theorem test_decode_bus_prog : decode (.port (.bus 0x020003A5#26)) = .ok (.busProg 0x0003#16 0xA5#8) := by decide
theorem test_decode_reserved_bus : decode (.port (.bus 0x03000000#26)) = .ok (.reservedBusPort 0#16 0#8) := by decide
theorem test_decode_bus_read_with_d : decode (.port (.bus 0x010010FF#26)) = .error .nonzeroD := by decide
theorem test_decode_select_a : decode (.port (.select 0b01#2)) = .ok .selectA := by decide
theorem test_decode_select_b : decode (.port (.select 0b10#2)) = .ok .selectB := by decide
theorem test_decode_select_none : decode (.port (.select 0b00#2)) = .ok .reservedSelect0 := by decide
theorem test_decode_select_three : decode (.port (.select 0b11#2)) = .ok .reservedSelect3 := by decide
theorem test_decode_recv : decode (.recv 0x24#8 true) = .ok (.recv 0x24#8 true) := by decide
theorem test_decode_recognize : decode .recognize = .ok .recognize := by decide
theorem test_table_word_envelope : decodeTableWord 16 0x2431 = some .read := by decide
theorem test_table_word_fifo : decodeTableWord 16 0x041 = some (.push 0x41#8) := by decide
theorem test_table_word_bus : decodeTableWord 32 0x020003A5 = some (.busProg 0x0003#16 0xA5#8) := by decide
theorem test_table_word_select : decodeTableWord 8 2 = some .selectB := by decide

/-! ## The first step after reset runs the placed word -/

theorem test_first_step_read :
    stepped (State.reset.withFetchWord 16 0x2431) (fun t => t.dstate) = some (.exec (.read .entry)) := by decide
theorem test_first_step_push :
    stepped (State.reset.withFetchWord 16 0x041) (fun t => (t.tail, t.ring)) = some (0#10, [(0, 0x41#8)]) := by decide
theorem test_first_step_select :
    stepped (State.reset.withFetchWord 8 2) (fun t => t.desc) = some (some .B) := by decide
theorem test_first_step_latch :
    stepped (State.reset.withFetchWord 32 0) (fun t => t.result) = some (some .ok) := by decide

/-! ## FIFO port (vectors F1 to F17) -/

theorem test_F1_size_at_reset : after .size tc (fun t => (t.result, t.stop)) = some (some (.count 0), false) := by decide
theorem test_F12_size_full :
    after .size { tc with head := 5#10, tail := 3#10 } (fun t => t.result) = some (some (.count 1023)) := by decide
theorem test_F2_peek_empty : after .peek tc (fun t => t.result) = some (some (.err .bufferUnderflow)) := by decide
theorem test_peek_first_byte :
    after .peek (holding [0x24#8] tc) (fun t => (t.result, t.occ)) = some (some (.byte 0x24#8), 1) := by decide
theorem test_F4_push_wraps :
    after (.push 0x41#8) { tc with head := 1020#10, tail := 1023#10 } (fun t => (t.tail, t.ring, t.occ, t.result)) =
      some (0#10, [(0, 0x41#8)], 5, some .ok) := by decide
theorem test_F6_push_full :
    after (.push 0x55#8) { tc with head := 0#10, tail := 1022#10, stop := true, rxCount := 1023#32 }
      (fun t => (t.result, t.tail, t.rxCount, t.ring)) =
      some (some (.err .bufferOverflow), 1022#10, 1023#32, []) := by decide
theorem test_F8_push_asserts_stop :
    after (.push 0x41#8) { tc with tail := 991#10 } (fun t => (t.occ, t.stop)) = some (993, true) := by decide
theorem test_F7_push_keeps_stop :
    after (.push 0x41#8) { tc with tail := 990#10 } (fun t => (t.occ, t.stop)) = some (992, false) := by decide
theorem test_F11_pop_wraps :
    after .pop { tc with head := 1023#10, tail := 0#10, ring := [(1023, 0x24#8)] }
      (fun t => (t.result, t.head, t.occ)) = some (some (.byte 0x24#8), 0#10, 1) := by decide
theorem test_F9b_F9c_pop_stop :
    after .pop { tc with tail := 32#10, stop := true } (fun t => (t.occ, t.stop)) = some (32, true) ∧
      after .pop { tc with tail := 31#10, stop := true } (fun t => (t.occ, t.stop)) = some (31, false) := by decide
theorem test_F14_popw_holds :
    after .popw { tc with opActive := true } (fun t => (t.held, t.ind, t.result)) =
      some ([.popw], .waitInd, none) := by decide
theorem test_F16_popw_flag_wins :
    after .popw (holding [1#8, 2#8, 3#8] tc) (fun t => (t.result, t.occ)) = some (some (.err .aborted), 3) := by decide
theorem test_F10_clear :
    after .clear { holding [7#8] tc with stop := true, opActive := true, rxCount := 77#32 }
      (fun t => (t.occ, t.ring, t.stop, t.opActive, t.rxCount)) = some (0, [], false, false, 77#32) := by decide
theorem test_reserved_fifo_refused :
    refusal (exec (.reservedFifoPort 6#3 0#8) tc) = some .reservedFifoPort := by decide

/-! ## Receive path (vectors R1 to R7) -/

theorem test_R1b_second_byte_sets_the_flag :
    after (.recv 0x31#8 true) (holding [0x24#8] tc) (fun t => (t.occ, t.opActive)) = some (2, true) := by decide
theorem test_R3b_bad_byte_is_no_cancel :
    after (.recv 0x03#8 false) { tc with opActive := true } (fun t => (t.evLog, t.opActive, t.rxCount)) =
      some ([.rxError], true, 0#32) := by decide
theorem test_R7b_recognizer_fires_again :
    after .recognize (holding [0x24#8, 0x31#8, 0x20#8] tc) (fun t => t.opActive) = some true := by decide
theorem test_R4_head_is_not_the_marker :
    after .recognize (holding [0x58#8, 0x24#8, 0x31#8] tc) (fun t => t.opActive) = some false := by decide

/-! ## Dispatcher and commands (vectors D1 to D5, S1 to S9) -/

theorem test_D2_unknown_opcode :
    after (.unknownOpcode 0x75#8) (active .disp1 tc) (fun t => (t.txLog, t.dstate)) =
      some (Config.unknownLine, .cleanup) := by decide
theorem test_reset_command :
    after .reset (active (.exec .reset) tc) (fun t => (t.txLog, t.dstate)) = some ([], .cleanup) := by decide
theorem test_D5_baud :
    after .baud (active (.exec .baud) tc) (fun t => (t.evLog, t.txLog)) = some ([.serialInit 0], []) := by decide
theorem test_S6_ident :
    after .ident (active (.exec .ident) tc) (fun t => t.txLog) =
      some [0x44#8, 0x45#8, 0x56#8, 0x41#8, 0x0A#8] := by decide
theorem test_S8_ident_none :
    after .ident (active (.exec .ident) { tc with desc := none }) (fun t => t.txLog) =
      some [0x4E#8, 0x4F#8, 0x4E#8, 0x45#8, 0x0A#8] := by decide
theorem test_S1_setdev :
    after .setdev (active (.exec .setdev) (holding [0x42#8] tc)) (fun t => (t.desc, t.txLog)) =
      some (some .B, [0x4F#8, 0x4B#8, 0x0A#8]) := by decide
theorem test_S2_setdev_unknown_code :
    after .setdev (active (.exec .setdev) (holding [0x5A#8] tc)) (fun t => (t.desc, t.txLog)) =
      some (some .A, Config.setDevFailLine) := by decide
theorem test_select_a : after .selectA { tc with desc := some .B } (fun t => t.desc) = some (some .A) := by decide
theorem test_select_b : after .selectB tc (fun t => t.desc) = some (some .B) := by decide
theorem test_reserved_select_refused :
    refusal (exec .reservedSelect0 tc) = some .reservedSelect ∧
      refusal (exec .reservedSelect3 tc) = some .reservedSelect := by decide

/-! ## Engine (vectors E1, E4, E6, E8, E9, E10, S9) -/

theorem test_E2_read_last_byte :
    after .read (active (.exec (.read .check)) { tc with desc := some .B, addr := 3#16, dev := .sim [(3, 0xEF#8)] })
      (fun t => (t.txLog, t.dstate, t.busA)) =
      some ([0x20#8, 0x45#8, 0x46#8, 0x0A#8], .cleanup, 3#16) := by decide
theorem test_E10_read_abort_closes_the_row :
    after .read { tc with dstate := .exec (.read .check), addr := 3#16 } (fun t => t.txLog) =
      some (0x0A#8 :: Config.abortLine) := by decide
theorem test_E4_blank_mismatch :
    after .blank (active (.exec (.blank .check)) { tc with addr := 5#16, dev := .sim [(5, 0xFE#8)] })
      (fun t => (t.txLog, t.dstate)) =
      some ([0x30#8, 0x78#8, 0x30#8, 0x30#8, 0x30#8, 0x35#8, 0x20#8, 0x3D#8, 0x20#8, 0x30#8, 0x78#8, 0x66#8, 0x65#8,
        0x0A#8], .cleanup) := by decide
theorem test_S9_no_device :
    after .blank (active (.exec (.blank .entry)) { tc with desc := none }) (fun t => (t.txLog, t.dstate)) =
      some (Config.noDeviceLine, .cleanup) := by decide
theorem test_E6_write_pair :
    after .write (active (.exec (.write .w2)) (holding [0x35#8] { tc with desc := some .B, hiCh := 0x41#8 }))
      (fun t => (t.dev, t.addr, t.dstate, t.wdata)) =
      some (.sim [(0, 0xA5#8)], 1#16, .exec (.write .check), 0xA5#8) := by decide
theorem test_E8_write_bad_digit :
    after .write (active (.exec (.write .w2)) (holding [0x31#8] { tc with hiCh := 0x47#8 }))
      (fun t => (t.txLog, t.dev)) = some (Config.badHexLine, .sim []) := by decide

/-! ## Bus (vectors B2, B4 to B6, B8) and formats (X1 to X6) -/

theorem test_B4_latch :
    after (.busLatch 0#16) tc (fun t => (t.result, t.actLatch, t.actEnable, t.actProgram)) =
      some (some .ok, false, false, false) := by decide
theorem test_bus_read : after (.busRead 0x13#16) { tc with dev := .sim [(0x13, 0x3C#8)] } (fun t => (t.result, t.busA)) =
    some (some (.byte 0x3C#8), 0x13#16) := by decide
theorem test_B2_prog_begins_at_the_signal_level :
    after (.busProg 3#16 0xA5#8) (signal { tc with desc := some .B }) (fun t => (t.busA, t.busD, t.busOE, t.dev)) =
      some (3#16, 0xA5#8, true, .sim []) := by decide
theorem test_bus_prog :
    after (.busProg 3#16 0xA5#8) { tc with desc := some .B } (fun t => (t.dev, t.busOE, t.result)) =
      some (.sim [(3, 0xA5#8)], false, some .ok) := by decide
theorem test_B5_B6_refused :
    refusal (exec (.busRead 0#16) { tc with desc := none }) = some .busPrecondition ∧
      refusal (exec (.busRead 4#16) { tc with desc := some .B }) = some .busPrecondition := by decide
theorem test_reserved_bus_refused : refusal (exec (.reservedBusPort 0#16 0#8) tc) = some .reservedBusPort := by decide

/-- B8: `hold(A, LATCH_ASSERT)` = 2 and `LATCH_ASSERT` started at 1: at time 2 nothing, at time 3 the next phase. -/
def latchHeld (now : Nat) : State :=
  let cfg := { Config.tc with descA := { Config.tc.descA with hold := ⟨1, 2, 1, 1, 1, 1, 1⟩ } }
  { tc with cfg := cfg, level := .signal, now := now, actLatch := true,
            bphase := .active ⟨.A, .read, 0x13#16, 0#8⟩ .latchAssert 1 }

theorem test_B8_not_before_the_hold :
    stepped (latchHeld 2) (fun t => t.bphase) = some (.active ⟨.A, .read, 0x13#16, 0#8⟩ .latchAssert 1) := by decide
theorem test_B8_after_the_hold :
    stepped (latchHeld 3) (fun t => (t.bphase, t.actLatch)) =
      some (.active ⟨.A, .read, 0x13#16, 0#8⟩ .latchDeassert 3, false) := by decide
theorem test_X1_hex : hex4U 0x00AB#16 = [0x30#8, 0x30#8, 0x41#8, 0x42#8] ∧ hex2U 0x3C#8 = [0x33#8, 0x43#8] := by decide
theorem test_X2_fmtAV :
    fmtAV 0x0123#16 0x7F#8 = [0x30#8, 0x78#8, 0x30#8, 0x31#8, 0x32#8, 0x33#8, 0x20#8, 0x3D#8, 0x20#8, 0x30#8, 0x78#8,
      0x37#8, 0x66#8, 0x0A#8] := by decide
theorem test_X4_X5_hexval :
    [0x30#8, 0x39#8, 0x41#8, 0x46#8, 0x61#8, 0x66#8].map hexval = [some 0, some 9, some 10, some 15, some 10, some 15] ∧
      [0x2F#8, 0x3A#8, 0x40#8, 0x47#8, 0x60#8, 0x67#8, 0x20#8, 0x0A#8].map hexval = List.replicate 8 none := by decide
theorem test_X6_nibble_order :
    payloadByte .highFirst 0x41#8 0x35#8 = some 0xA5#8 ∧ payloadByte .lowFirst 0x41#8 0x35#8 = some 0x5A#8 := by decide

/-- R62, for a device of 4 bytes. -/
theorem test_command_lengths :
    commandLength 4 0x32#8 = 10 ∧ commandLength 4 0x35#8 = 3 ∧ commandLength 4 0x31#8 = 2 ∧
      commandLength 4 0x75#8 = 2 := by decide

/-! ## Witnesses: the hypotheses of each obligation can be met, clause by clause

Each theorem `witness_<obligation>` (or `_<clause>`) shows concrete values for which all the hypotheses hold together. -/

/-- MAIN next, with one more input behind. -/
def turn (s : State) : State := { s with inputs := [.main, .tick 1] }

/-- A byte, a port word or time next. -/
def given (i : Input) (s : State) : State := { s with inputs := [i] }

/-- The B device of TC is selected. -/
def onB (s : State) : State := { s with desc := some .B }

/-- A transaction of `kind` on B in phase `p`, at the signal level. -/
def inPhase (kind : TxnKind) (p : Phase) (s : State) : State :=
  { signal (onB s) with bphase := .active ⟨.B, kind, 3#16, 0xA5#8⟩ p 0 }

/-- Whether a meaning answers a next state. -/
def completes (i : Instr) (s : State) : Bool := (nextState (exec i s)).isSome

theorem witness_DecodeInvertsEncode :
    Instr.wf (.unknownOpcode 0x00#8) = true ∧ Instr.wf (.unknownOpcode 0xFF#8) = true ∧
      Instr.wf (.reservedFifoPort 6#3 0xFF#8) = true ∧ Instr.wf (.reservedFifoPort 7#3 0x00#8) = true ∧
      Instr.wf (.busProg 0xFFFF#16 0xFF#8) = true := by decide
theorem witness_EncodeInvertsDecode :
    decode (.port (.bus 0x3FFFFFF#26)) = .ok (.reservedBusPort 0xFFFF#16 0xFF#8) ∧
      decode (.port (.fifo 0x7FF#11)) = .ok (.reservedFifoPort 7#3 0xFF#8) := by decide
theorem witness_DecoderRejectsExactly :
    decode (.envelope 0x23FF#16) = .error .notAMarker ∧ decode (.envelope 0x2500#16) = .error .notAMarker ∧
      decode (.port (.fifo 0x0FF#11)) = .ok (.push 0xFF#8) ∧ decode (.port (.fifo 0x101#11)) = .error .nonzeroData ∧
      decode (.port (.fifo 0x5FF#11)) = .error .nonzeroData ∧
      decode (.port (.fifo 0x601#11)) = .ok (.reservedFifoPort 6#3 1#8) ∧
      decode (.port (.bus 0x0000001#26)) = .error .nonzeroD ∧ decode (.port (.bus 0x1FFFFFF#26)) = .error .nonzeroD ∧
      decode (.port (.bus 0x2000001#26)) = .ok (.busProg 0#16 1#8) := by decide

theorem witness_StepRunsTheRequest_byte :
    tc.mfault = none ∧ (given (.recv 0x24#8 true) tc).inputs = [.recv 0x24#8 true] := by decide
theorem witness_StepRunsTheRequest_port :
    (given (.port (.fifo 0x100#11)) tc).inputs = [.port (.fifo 0x100#11)] ∧
      decode (.port (.fifo 0x100#11)) = .ok .pop ∧ tc.bphase = .idle ∧ tc.dstate.onBus = false ∧ tc.held = [] := by
  decide
theorem witness_StepRunsTheRequest_busy :
    decode (.port (.fifo 0x100#11)) = .ok .pop ∧ issuedByMain .pop = true ∧
      ({ tc with held := [.popw] } : State).held ≠ [] ∧ (inPhase .read .addrSetup tc).bphase ≠ .idle ∧
      (active (.exec (.read .bus)) tc).dstate.onBus = true := by decide
theorem witness_StepRunsTheRequest_rejected : decode (.port (.fifo 0x141#11)) = .error .nonzeroData := by decide
theorem witness_StepRunsTheCommand_opcode :
    (turn (active .disp1 (holding [0x34#8] tc))).mainNext [.tick 1] ∧ 0 < (holding [0x34#8] tc).occ ∧
      decode (.envelope (0x24#8 ++ (holding [0x34#8] tc).ringAt 0#10)) = .ok .ident := by decide
theorem witness_StepRunsTheCommand_exec :
    (turn (active (.exec .ident) tc)).mainNext [.tick 1] ∧ (active (.exec .ident) tc).dstate = .exec .ident := by decide
theorem witness_StepRunsTheCommand_held :
    let s : State := turn { tc with held := [.popw, .size] }
    s.mfault = none ∧ s.bphase = .idle ∧ s.dstate.onBus = false ∧ s.held = [.popw, .size] ∧
      s.inputs = [.main, .tick 1] := by decide
theorem witness_StepRunsTheCommand_empty : tc.inputs = [] := by decide

theorem witness_IdleHoldsAndCleanupResets :
    (turn tc).mainNext [.tick 1] ∧ (turn tc).dstate = .idle ∧ (turn (active .cleanup tc)).mainNext [.tick 1] ∧
      (turn (active .cleanup tc)).dstate = .cleanup := by decide
theorem witness_MarkerIsPopped :
    let s := turn (active .disp0 (holding [0x24#8, 0x31#8] tc))
    s.mainNext [.tick 1] ∧ s.dstate = .disp0 ∧ 0 < s.occ ∧ s.ringAt s.head = 0x24#8 := by decide
theorem witness_MarkerIsPopped_fault :
    (turn (active .disp0 tc)).mainNext [.tick 1] ∧ (turn (active .disp0 tc)).occ = 0 ∧
      (turn (active .disp0 (holding [0x58#8] tc))).mainNext [.tick 1] ∧
      (turn (active .disp0 (holding [0x58#8] tc))).ringAt 0#10 ≠ 0x24#8 := by decide
theorem witness_MarkerIsPopped_opcode :
    let s := turn (active .disp1 tc)
    s.mainNext [.tick 1] ∧ s.dstate = .disp1 ∧ s.occ = 0 := by decide
theorem witness_DispatchGoesToTheEntry : (active .disp1 tc).dstate = .disp1 := by decide
theorem witness_CommandsStepOnlyInTheirStates :
    tc.dstate ≠ .disp1 ∧ (active (.exec .ident) tc).dstate = .exec .ident ∧ Exec.instr .ident ≠ .read := by decide

theorem witness_FlowControlEvaluation :
    fcEval 993 false = true ∧ fcEval 992 false = false ∧ fcEval 992 true = true ∧ fcEval 32 true = true ∧
      fcEval 32 false = false ∧ fcEval 31 true = false := by decide
theorem witness_PopwHoldsAbortsOrRemoves :
    tc.opActive = false ∧ (active .idle tc).opActive = true ∧ (active .idle tc).occ = 0 ∧
      0 < (active .idle (holding [0x46#8] tc)).occ := by decide
theorem witness_RingBytesOfTheFifoPort :
    tc.memoryOk ∧ completes (.push 0x41#8) tc = true ∧ tc.occ ≠ 1023 ∧
      ({ tc with tail := 1022#10 } : State).memoryOk ∧ ({ tc with tail := 1022#10 } : State).occ = 1023 ∧
      completes (.push 0x41#8) { tc with tail := 1022#10 } = true ∧
      [Instr.pop, .popw, .peek, .size, .clear].all (fun i => completes i tc) = true := by decide
theorem witness_FifoKeepsTheOrder :
    let s := active .idle (holding [0x10#8, 0x20#8] tc)
    s.memoryOk ∧ s.occ ≠ 1023 ∧ 0 < s.occ ∧ s.opActive = true ∧
      [Instr.push 0x30#8, .pop, .popw, .clear].all (fun i => completes i s) = true := by decide
theorem witness_ReceivePath :
    tc.memoryOk ∧ 0x03#8 = tc.cfg.cancelChar ∧ 0x24#8 ≠ tc.cfg.cancelChar ∧ tc.occ ≠ 1023 ∧
      ({ tc with tail := 1022#10 } : State).memoryOk ∧ ({ tc with tail := 1022#10 } : State).occ = 1023 := by decide
theorem witness_CommandsWithoutADevice :
    (active .disp1 tc).dstate = .disp1 ∧ (active (.exec .reset) tc).dstate = .exec .reset ∧
      (active (.exec .baud) tc).dstate = .exec .baud := by decide
theorem witness_IdentNamesTheVariant :
    (active (.exec .ident) tc).dstate = .exec .ident ∧ tc.desc = some .A ∧ (onB tc).desc = some .B ∧
      ({ tc with desc := none } : State).desc = none := by decide
theorem witness_SetDeviceSelectsByCode :
    let s := active (.exec .setdev) (holding [0x42#8] tc)
    s.dstate = .exec .setdev ∧ s.cfg.wf = true ∧ s.opActive = true ∧ 0 < s.occ ∧
      (s.cfg.descriptor .B).devCode = s.ringAt s.head ∧ (active (.exec .setdev) tc).occ = 0 ∧
      ({ s with opActive := false } : State).opActive = false := by decide
theorem witness_SetDeviceSelectsByCode_unknown :
    let s := active (.exec .setdev) (holding [0x5A#8] tc)
    0 < s.occ ∧ (s.cfg.descriptor .A).devCode ≠ s.ringAt s.head ∧ (s.cfg.descriptor .B).devCode ≠ s.ringAt s.head := by
  decide
theorem witness_SelectReplacesTheDescriptor : tc.busOk ∧ tc.bphase = .idle := by decide
theorem witness_EngineEntry :
    (Instr.read, (active (.exec (.read .entry)) tc).dstate, Exec.read .check) ∈
      [(Instr.read, DState.exec (.read .entry), Exec.read .check),
        (.blank, .exec (.blank .entry), .blank .check), (.write, .exec (.write .entry), .write .check)] ∧
      ({ tc with desc := none } : State).desc = none ∧ tc.desc = some .A := by decide
theorem witness_CancelledCheckAborts :
    tc.opActive = false ∧ ({ tc with dstate := .exec (.read .check) } : State).dstate = .exec (.read .check) ∧
      ({ tc with dstate := .exec (.blank .check) } : State).dstate = .exec (.blank .check) ∧
      ({ tc with dstate := .exec (.write .check) } : State).dstate = .exec (.write .check) ∧
      ({ tc with dstate := .exec (.write .w1) } : State).dstate = .exec (.write .w1) ∧
      ({ tc with dstate := .exec (.write .w2) } : State).dstate = .exec (.write .w2) ∧ tc.bphase = .idle := by decide
theorem witness_ReadIteration :
    let s := active (.exec (.read .check)) { tc with addr := 19#16 }
    s.dstate = .exec (.read .check) ∧ s.opActive = true ∧ s.level = .transaction ∧ s.bphase = .idle ∧ s.busOk ∧
      s.desc = some .A ∧ s.addr.toNat < (s.cfg.descriptor .A).size := by decide
theorem witness_BlankIteration :
    let s := active (.exec (.blank .check)) tc
    s.dstate = .exec (.blank .check) ∧ s.opActive = true ∧ s.level = .transaction ∧ s.bphase = .idle ∧ s.busOk ∧
      s.desc = some .A ∧ s.addr.toNat < (s.cfg.descriptor .A).size := by decide
theorem witness_WritePopsThePair :
    let s := active (.exec (.write .w2)) (holding [0x47#8] tc)
    s.opActive = true ∧ s.dstate = .exec (.write .w2) ∧ s.bphase = .idle ∧ 0 < s.occ ∧
      hexval (s.ringAt s.head) = none ∧ (active (.exec (.write .w1)) tc).dstate = .exec (.write .w1) ∧
      (active (.exec (.write .w1)) tc).occ = 0 ∧ (active (.exec (.write .check)) tc).dstate = .exec (.write .check) := by
  decide
theorem witness_WriteProgramsAndVerifies :
    let s := active (.exec (.write .w2)) (holding [0x35#8] { tc with hiCh := 0x41#8 })
    s.dstate = .exec (.write .w2) ∧ s.opActive = true ∧ 0 < s.occ ∧ s.level = .transaction ∧ s.bphase = .idle ∧
      s.busOk ∧ s.desc = some .A ∧ s.addr.toNat < (s.cfg.descriptor .A).size ∧ hexval s.hiCh = some 10 ∧
      hexval (s.ringAt s.head) = some 5 := by decide
theorem witness_RowFormat :
    (16 % 16 = 0 ∧ 1 ≤ 4 ∧ 4 ≤ 16 ∧ 16 + 4 ≤ 20 ∧ 20 ≤ 65536 ∧ (4 = 16 ∨ 16 + 4 = 20)) ∧
      (65520 % 16 = 0 ∧ 1 ≤ 16 ∧ 16 ≤ 16 ∧ 65520 + 16 ≤ 65536 ∧ 65536 ≤ 65536 ∧ (16 = 16 ∨ 65520 + 16 = 65536)) := by
  decide

theorem witness_BusTransactions :
    tc.level = .transaction ∧ tc.bphase = .idle ∧ tc.busOk ∧ tc.desc = some .A ∧
      (19#16).toNat < (tc.cfg.descriptor .A).size := by decide
theorem witness_BusPrecondition :
    ({ tc with desc := none } : State).desc = none ∧ tc.desc = some .A ∧ tc.cfg.wf = true ∧
      (tc.cfg.descriptor .A).size ≤ (20#16).toNat := by decide
theorem witness_TransactionBegins :
    (signal tc).level = .signal ∧ (signal tc).bphase = .idle ∧ (signal tc).busOk ∧ (signal tc).desc = some .A ∧
      (0#16).toNat < ((signal tc).cfg.descriptor .A).size := by decide
theorem witness_HoldsAreMinimums :
    let s := { inPhase .read .addrSetup tc with inputs := [.main] }
    s.bphase = .active ⟨.B, .read, 3#16, 0xA5#8⟩ .addrSetup 0 ∧
      s.now < 0 + (s.cfg.descriptor .B).hold.of .addrSetup ∧ (nextState (step s)).isSome = true ∧
      stepped { s with now := 1 } (fun t => t.bphase) ≠ some s.bphase ∧
      stepped { s with now := 1, inputs := [] } (fun t => t.bphase) ≠ some s.bphase := by decide

/-- Every phase of TC holds 1, so these durations are long enough. -/
theorem witness_SignalLevelRefinesTransactions :
    (signal tc).level = .signal ∧ tc.mfault = none ∧ tc.bphase = .idle ∧ tc.busOk ∧ tc.held = [] ∧
      tc.dstate.onBus = false ∧ tc.desc = some .A ∧ completes (.busLatch 3#16) tc = true ∧
      completes (.busRead 3#16) tc = true ∧ completes (.busProg 3#16 9#8) tc = true ∧
      ((seq (tc.cfg.descriptor .A) ⟨.A, .latch, 3#16, 0#8⟩).zip [1, 5, 2]).all (fun x => decide (x.1.hold ≤ x.2)) = true ∧
      (seq (tc.cfg.descriptor .A) ⟨.A, .latch, 3#16, 0#8⟩).length = [1, 5, 2].length := by decide
theorem witness_SignalLevelRefinesTheScan :
    let s := active (.exec (.read .check)) (signal tc)
    let b := active (.exec (.blank .check)) (signal tc)
    s.level = .signal ∧ s.mfault = none ∧ s.bphase = .idle ∧ s.busOk ∧ s.held = [] ∧ s.opActive = true ∧
      s.desc = some .A ∧ completes .read { s with level := .transaction } = true ∧
      completes .blank { b with level := .transaction } = true ∧
      (seq (s.cfg.descriptor .A) ⟨.A, .read, s.addr, 0#8⟩).map PhaseStep.hold = [1, 1, 1, 1, 1] := by decide
theorem witness_SignalLevelRefinesTheWrite :
    let s := active (.exec (.write .w2)) (holding [0x35#8] (signal { tc with hiCh := 0x41#8 }))
    s.dstate = .exec (.write .w2) ∧ s.level = .signal ∧ s.mfault = none ∧ s.bphase = .idle ∧ s.busOk ∧ s.held = [] ∧
      s.opActive = true ∧ 0 < s.occ ∧ s.desc = some .A ∧
      payloadByte .highFirst s.hiCh (s.ringAt s.head) = some 0xA5#8 ∧
      completes .write { s with level := .transaction } = true ∧
      (seq (s.cfg.descriptor .A) ⟨.A, .prog, s.addr, 0xA5#8⟩).map PhaseStep.hold = [1, 1, 1, 1, 1] := by decide
theorem witness_BytesOfTheSimulatedDevice :
    tc.memoryOk ∧ completes (.busProg 3#16 9#8) tc = true ∧ tc.level = .transaction ∧ tc.bphase = .idle ∧
      tc.dev = .sim [] ∧ completes .pop tc = true ∧
      completes .write (active (.exec (.write .w2)) (holding [0x35#8] { tc with hiCh := 0x41#8 })) = true := by decide
theorem witness_ControlPins :
    let s : State := { inPhase .read .enAssert tc with actEnable := true }
    s.busOk ∧ s.desc = some .B ∧ s.act .enable = true ∧ s.pinLevel 1 = some .high ∧
      (s.act .latch = false ∧ s.act .program = false ∧ ((s.cfg.descriptor .B).role.of .enable).pin ≠ 0 ∧
        s.pinLevel 0 = some .low) ∧
      tc.busOk ∧ tc.act .latch = false ∧ tc.act .enable = false ∧ tc.act .program = false := by decide
theorem witness_OutputLines :
    tc.held = [] ∧ tc.dstate = .idle ∧ tc.ind = .idleInd ∧
      (active (.exec .setdev) tc).ind = .waitInd ∧ (active (.exec .setdev) (holding [0x42#8] tc)).ind = .busyInd ∧
      (active (.exec (.write .w1)) tc).dstate ≠ .idle ∧ (active .disp0 tc).ind = .busyInd := by decide
theorem witness_OutputLines_popw :
    let s : State := { tc with held := [.popw, .size] }
    s.held = .popw :: [.size] ∧ s.ind = .idleInd ∧ ({ s with opActive := true } : State).ind = .waitInd ∧
      (active .cleanup (holding [0x42#8] s)).ind = .busyInd := by decide

theorem witness_FlowControlInvariant :
    tc.flowOk ∧ ({ tc with tail := 992#10, stop := true } : State).flowOk ∧ (nextState (step tc)).isSome = true := by
  decide
theorem witness_StopEdges :
    let s : State := given (.recv 0x41#8 true) { tc with tail := 991#10 }
    let r : State := given (.port (.fifo 0x100#11)) { tc with tail := 31#10, stop := true }
    s.flowOk ∧ s.stop = false ∧ stepped s (fun t => t.stop) = some true ∧
      r.flowOk ∧ r.stop = true ∧ stepped r (fun t => t.stop) = some false := by decide
theorem witness_MemoryInvariant :
    (holding [1#8, 2#8] { tc with dev := .sim [(3, 1#8)] }).memoryOk ∧ (nextState (step tc)).isSome = true := by decide
theorem witness_BusLinesInvariant :
    tc.busOk ∧ ({ inPhase .prog .pgmAssert tc with actProgram := true, busOE := true } : State).busOk ∧
      (nextState (step { inPhase .prog .pgmAssert tc with actProgram := true, busOE := true })).isSome = true := by
  decide
theorem witness_LogsOnlyGrow :
    (nextState (step tc)).isSome = true ∧ (given .power tc).inputs = [.power] ∧
      (nextState (step (given .power tc))).isSome = true := by decide
theorem witness_FlagRisesOnlyOnAnEnvelope :
    let s := given (.recv 0x31#8 true) (holding [0x24#8] tc)
    s.heldOk ∧ s.opActive = false ∧ stepped s (fun t => t.opActive) = some true := by decide
theorem witness_DescriptorChangesOnlyBySetdev :
    let s := turn (active (.exec .setdev) (holding [0x42#8] tc))
    s.wireOnly ∧ stepped s (fun t => t.desc) = some (some .B) ∧ (given .power (onB tc)).wireOnly ∧
      stepped (given .power (onB tc)) (fun t => t.desc) = some (some .A) := by decide
theorem witness_MainLeavesTheWriteSide :
    let s := turn (active .disp0 (holding [0x24#8, 0x31#8] tc))
    s.wireOnly ∧ s.inputs = [.main, .tick 1] ∧ s.dstate ≠ .cleanup ∧ (nextState (step s)).isSome = true := by decide
theorem witness_StrayByteBlocks :
    let s := given (.recv 0x24#8 true) (holding [0x0A#8] tc)
    s.wireOnly ∧ s.memoryOk ∧ s.bphase = .idle ∧ s.dstate = .idle ∧ s.opActive = false ∧ 0 < s.occ ∧
      s.ringAt s.head ≠ 0x24#8 ∧ s.inputs = [.recv 0x24#8 true] ∧ (nextState (step s)).isSome = true := by decide

/-- The properties of a session hold in a state whose parts are decided one by one. -/
theorem session_of {s : State} (h : s.cfg.wf = true ∧ s.memoryOk ∧ s.flowOk ∧ s.busOk)
    (h' : s.dispatchOk ∧ s.engineOk ∧ s.sequencerOk ∧ s.wireOnly ∧ s.mfault = none) : Session s :=
  ⟨h.1, h.2.1, h.2.2.1, h.2.2.2, h'.1, h'.2.1, h'.2.2.1, h'.2.2.2.1, h'.2.2.2.2⟩

theorem witness_SessionNeverStops : Session tc := by
  refine session_of (by decide) ⟨?_, ?_, ?_, by decide, by decide⟩
  · show false = true → _
    decide
  · show false = true → _
    decide
  · exact .inl rfl
theorem witness_EnvelopeRunsToIdle :
    let s := active .idle (holding [0x24#8, 0x34#8] tc)
    Session s ∧ s.dstate = .idle ∧ s.opActive = true ∧ s.ringAt (s.head + 1#10) = 0x34#8 ∧ 0x75#8 ∉ knownOpcodes := by
  refine ⟨session_of (by decide) ⟨?_, ?_, .inl rfl, by decide, by decide⟩, by decide⟩
  · show true = true → _
    decide
  · show false = true → _
    decide
theorem witness_CancellationReturnsToIdle :
    let s : State := { tc with dstate := .exec (.read .check), addr := 3#16 }
    Session s ∧ s.opActive = false ∧
      s.dstate ∈ [DState.exec (.read .check), .exec (.blank .check), .exec (.write .check), .exec (.write .w1),
        .exec (.write .w2)] := by
  refine ⟨session_of (by decide) ⟨trivial, ?_, .inl rfl, by decide, by decide⟩, by decide⟩
  show true = true → _
  decide
theorem witness_ReadEmitsTheDevice :
    let s := active (.exec (.read .entry)) tc
    Session s ∧ s.dstate = .exec (.read .entry) ∧ s.opActive = true ∧ s.level = .transaction ∧ s.desc = some .A ∧
      s.dev = .sim [] := by
  refine ⟨session_of (by decide) ⟨trivial, ?_, .inl rfl, by decide, by decide⟩, by decide⟩
  show false = true → _
  decide
theorem witness_BlankCheckVerdict :
    let s := active (.exec (.blank .entry)) { tc with dev := .sim [(19, 0#8)] }
    Session s ∧ s.dstate = .exec (.blank .entry) ∧ s.opActive = true ∧ s.level = .transaction ∧ s.desc = some .A ∧
      s.dev = .sim [(19, 0#8)] ∧ 19 < (s.cfg.descriptor .A).size ∧
      (∀ j < 19, Memory.read 0xFF#8 [(19, 0#8)] j = 0xFF#8) ∧ Memory.read 0xFF#8 [(19, 0#8)] 19 ≠ 0xFF#8 ∧
      (∀ k < 20, Memory.read 0xFF#8 [] k = 0xFF#8) := by
  refine ⟨session_of (by decide) ⟨trivial, ?_, .inl rfl, by decide, by decide⟩, by decide⟩
  show false = true → _
  decide
theorem witness_WriteRoundTrip :
    let pairs : List (Byte × Byte) := [(0x41#8, 0x35#8), (0x35#8, 0x41#8), (0x30#8, 0x30#8), (0x66#8, 0x46#8)]
    let s := active (.exec (.write .entry)) (holding (pairs.flatMap (fun p => [p.1, p.2]) ++ [0x0A#8]) (onB tc))
    Session s ∧ s.dstate = .exec (.write .entry) ∧ s.opActive = true ∧ s.level = .transaction ∧ s.desc = some .B ∧
      s.dev = .sim [] ∧ pairs.length = (s.cfg.descriptor .B).size ∧
      (∀ p ∈ pairs, hexval p.1 ≠ none ∧ hexval p.2 ≠ none) ∧
      s.contents = pairs.flatMap (fun p => [p.1, p.2]) ++ [0x0A#8] := by
  refine ⟨session_of (by decide) ⟨trivial, ?_, .inl rfl, by decide, by decide⟩,
    rfl, rfl, rfl, rfl, rfl, rfl, ?_, ?_⟩
  · show false = true → _
    decide
  · intro p hp
    fin_cases hp <;> decide
  · rfl

end Sys2Proof.Tests
end

section
/-! # The logs, the clock and the configuration (R35, R36, R21, R147)

Every step but a loss of power is a chain of elementary effects (Laws/Effects), so what each of those grows, the step
grows. -/

namespace Sys2Proof.Machine

/-- `t` is later than `s` in one run without a loss of power: the same configuration and level, longer logs, a later
clock. -/
structure Grows (s t : State) : Prop where
  cfg : t.cfg = s.cfg
  level : t.level = s.level
  txLog : s.txLog <+: t.txLog
  evLog : s.evLog <+: t.evLog
  now : s.now ≤ t.now

theorem Grows.refl (s : State) : Grows s s :=
  ⟨rfl, rfl, List.prefix_rfl, List.prefix_rfl, Nat.le_refl _⟩

theorem Grows.trans {s t u : State} (h : Grows s t) (h' : Grows t u) : Grows s u :=
  ⟨h'.cfg.trans h.cfg, h'.level.trans h.level, h.txLog.trans h'.txLog, h.evLog.trans h'.evLog, h.now.trans h'.now⟩

/-- No elementary effect shortens a log, sets the clock back or writes the configuration. -/
theorem Effect.grows {s t : State} (h : Effect s t) : Grows s t := by
  induction h with
  | control s x hn => exact { Grows.refl s with now := hn }
  | emit s str => exact { Grows.refl s with txLog := List.prefix_append .. }
  | event s e => exact { Grows.refl s with evLog := List.prefix_append .. }
  | bus s x a => rw [perform_frame]; exact ⟨rfl, rfl, List.prefix_rfl, List.prefix_rfl, Nat.le_refl _⟩
  | chain _ _ _ _ _ h h' => exact h.trans h'
  | same | append | remove | clear | evaluate | phase =>
    exact ⟨rfl, rfl, List.prefix_rfl, List.prefix_rfl, Nat.le_refl _⟩

/-- R147: an input `power` gives the power-cycled state and nothing else. -/
theorem step_power {s t : State} {rest : List Input} (hi : s.inputs = .power :: rest) (h : step s = .next t) :
    t = ({ s with inputs := rest } : State).powerCycle := by
  rcases step_cases s with ⟨f, _, e⟩ | ⟨_, hn, _⟩ | ⟨i, rest', _, hi', e⟩
  · rw [e] at h; cases h
  · rw [hi] at hn; cases hn
  · rw [hi] at hi'; cases hi'
    rw [e] at h; cases h; rfl

/-- Settles O49: a step is a chain of effects, each of which only grows the logs, or it is the loss of power. -/
theorem logsOnlyGrow : Obligations.LogsOnlyGrow := by
  intro s t h
  rcases step_effect h with he | ⟨rest, hi, rfl⟩
  · obtain ⟨hc, hl, ⟨x, hx⟩, ⟨y, hy⟩, hn⟩ := he.grows
    exact ⟨hc, hl, fun _ => ⟨⟨x, hx.symm⟩, ⟨y, hy.symm⟩, hn⟩, fun _ hi => step_power hi h⟩
  · exact ⟨rfl, rfl, fun hp => absurd hi (hp rest), fun _ hi => step_power hi h⟩

end Sys2Proof.Machine
end

section
/-! # What a meaning leaves alone

Beside the block proper a state holds what the run fixes (the configuration, the level), the time, who moves next, the
fault mark and the requests MAIN has outstanding. A meaning writes none of them, except that a port request which has
no step now goes back to the front of MAIN's requests. -/

namespace Sys2Proof.Machine

/-- Everything that no command, port operation or receive event writes; only `State.wait` changes it. -/
def State.ambient (s : State) : Config × ModelLevel × Nat × List Input × Option ModelFault × List Instr :=
  (s.cfg, s.level, s.now, s.inputs, s.mfault, s.held)

/-- Any next state has the ambient elements of `s`. -/
def Keeps (s : State) : Result → Prop
  | .next t => t.ambient = s.ambient
  | .fault _ => True
  | .refused _ => True

variable {s u : State}

theorem ambient_held (h : u.ambient = s.ambient) : u.held = s.held := by
  simp only [State.ambient, Prod.mk.injEq] at h
  exact h.2.2.2.2.2

/-! ## The bus -/

@[simp] theorem runTxn_ambient (x : Txn) (s : State) : (runTxn x s).ambient = s.ambient := by
  rw [runTxn_frame]; rfl

@[simp] theorem beginTxn_ambient (x : Txn) (s : State) : (beginTxn x s).ambient = s.ambient := by
  rw [beginTxn_eq]; rfl

@[simp] theorem performAll_ambient (x : Txn) (as : List BusAction) (s : State) :
    (performAll x as s).ambient = s.ambient := by
  rw [performAll_frame]; rfl

@[simp] theorem endTxn_ambient (x : Txn) (s : State) : (endTxn x s).ambient = s.ambient := by
  simp only [endTxn]
  split <;> exact performAll_ambient x (endActions x) s

@[simp] theorem advanceTxn_ambient (x : Txn) (p : Phase) (t0 : Nat) (s : State) :
    (advanceTxn x p t0 s).ambient = s.ambient := by
  rcases advanceTxn_cases x p t0 s with ⟨_, e⟩ | ⟨_, _, e⟩ | ⟨ph, _, _, _, e⟩ <;> rw [e]
  · exact endTxn_ambient x s
  · exact performAll_ambient x ph.actions s

theorem engineBus_keeps {k : TxnKind} {d : Byte} {w : DState} {c : Byte → State → Result}
    (hc : ∀ q v, v.ambient = s.ambient → Keeps s (c q v)) (hu : u.ambient = s.ambient) :
    Keeps s (engineBus k d w c u) := by
  rcases engineBus_cases k d w c u with ⟨_, e⟩ | ⟨_, _, _, e⟩ | ⟨x, _, _, _, e⟩ | ⟨x, _, _, _, e⟩ <;> rw [e]
  · trivial
  · exact hu
  · exact hc _ _ ((runTxn_ambient x u).trans hu)
  · exact (beginTxn_ambient x u).trans hu

theorem afterBus_keeps {c : Byte → State → Result} (hc : ∀ q v, v.ambient = s.ambient → Keeps s (c q v))
    (hu : u.ambient = s.ambient) : Keeps s (afterBus c u) := by
  unfold afterBus
  split
  · exact hu
  · exact hc _ _ hu

/-! ## The engine -/

theorem engineEntry_ambient (c : DState) (s : State) : (engineEntry c s).ambient = s.ambient := by
  rcases engineEntry_cases c s with ⟨_, e⟩ | ⟨_, _, e⟩ <;> rw [e] <;> rfl

theorem engineNext_keeps (c : DState) (l : Str) (hu : u.ambient = s.ambient) : Keeps s (engineNext c l u) := by
  rcases engineNext_cases c l u with ⟨_, e⟩ | ⟨_, _, _, e⟩ | ⟨_, _, _, e⟩ <;> rw [e]
  · trivial
  · exact hu
  · exact hu

theorem readBody_keeps (q : Byte) (hu : u.ambient = s.ambient) : Keeps s (readBody q u) := by
  unfold readBody
  split
  · trivial
  · exact engineNext_keeps _ _ hu

theorem blankBody_keeps (q : Byte) (hu : u.ambient = s.ambient) : Keeps s (blankBody q u) := by
  unfold blankBody
  split
  · exact hu
  · exact engineNext_keeps _ _ hu

theorem writeCompare_keeps (q : Byte) (hu : u.ambient = s.ambient) : Keeps s (writeCompare q u) := by
  unfold writeCompare
  split
  · exact hu
  · exact engineNext_keeps _ _ hu

theorem writeVerify_keeps (hu : u.ambient = s.ambient) : Keeps s (writeVerify u) :=
  engineBus_keeps (fun q _ => writeCompare_keeps q) hu

theorem writeProgram_keeps (c : Byte) (hu : u.ambient = s.ambient) : Keeps s (writeProgram c u) := by
  unfold writeProgram
  split
  · exact hu
  · exact engineBus_keeps (fun _ _ => writeVerify_keeps) hu

theorem writeW1_keeps (s : State) : Keeps s (writeW1 s) := by
  rcases popw_cases s with ⟨_, e⟩ | ⟨_, _, e⟩ | ⟨_, _, e⟩ <;> simp only [writeW1, e] <;> rfl

theorem writeW2_keeps (s : State) : Keeps s (writeW2 s) := by
  rcases popw_cases s with ⟨_, e⟩ | ⟨_, _, e⟩ | ⟨_, _, e⟩ <;> simp only [writeW2, e]
  · rfl
  · rfl
  · exact writeProgram_keeps _ rfl

/-! ## The commands -/

theorem execRead_keeps (s : State) : Keeps s (execRead s) := by
  unfold execRead
  split
  · rfl
  · exact engineEntry_ambient _ s
  · split
    · rfl
    · exact engineBus_keeps (fun q _ => readBody_keeps q) rfl
  · exact afterBus_keeps (fun q _ => readBody_keeps q) rfl
  · trivial

theorem execBlank_keeps (s : State) : Keeps s (execBlank s) := by
  unfold execBlank
  split
  · rfl
  · exact engineEntry_ambient _ s
  · split
    · rfl
    · exact engineBus_keeps (fun q _ => blankBody_keeps q) rfl
  · exact afterBus_keeps (fun q _ => blankBody_keeps q) rfl
  · trivial

theorem execWrite_keeps (s : State) : Keeps s (execWrite s) := by
  unfold execWrite
  split
  · rfl
  · exact engineEntry_ambient _ s
  · split <;> rfl
  · exact writeW1_keeps s
  · split
    · rfl
    · exact writeW2_keeps s
  · exact afterBus_keeps (fun _ _ => writeVerify_keeps) rfl
  · exact afterBus_keeps (fun q _ => writeCompare_keeps q) rfl
  · trivial

theorem execSetdev_keeps (s : State) : Keeps s (execSetdev s) := by
  unfold execSetdev
  split
  · rfl
  · rcases popw_cases s with ⟨_, e⟩ | ⟨_, _, e⟩ | ⟨_, _, e⟩ <;> simp only [e]
    · rfl
    · rfl
    · rcases setDevice_cases (s.ringAt s.head) s.removed with ⟨_, _, _, e⟩ | ⟨_, _, e⟩ <;> rw [e] <;> rfl
  · trivial

theorem recognize_ambient (s : State) : s.recognize.ambient = s.ambient := by
  rcases recognize_cases s with ⟨_, _, e⟩ | ⟨_, e⟩
  · rw [e]; rfl
  · rw [e]

theorem receive_ambient (b : Byte) (ok : Bool) (s : State) : (s.receive b ok).ambient = s.ambient := by
  rcases receive_cases s b ok with ⟨_, e⟩ | ⟨_, _, e⟩ | ⟨_, _, _, e⟩ | ⟨_, _, _, e⟩ <;> rw [e]
  · rfl
  · rfl
  · rfl
  · exact recognize_ambient (s.appended b)

/-! ## Every meaning -/

/-- A bus port request leaves the ambient elements, or waits, in front of MAIN's other requests. -/
theorem portBus_ambient {i : Instr} {k : TxnKind} {a : Addr} {d : Byte} (h : portBus i k a d s = .next u) :
    u.ambient = s.ambient ∨ u.ambient = (s.wait i).ambient := by
  rcases portBus_cases i k a d s with ⟨_, e⟩ | ⟨_, _, _, e⟩ | ⟨x, _, _, _, e⟩ | ⟨x, _, _, _, e⟩ <;> rw [e] at h <;>
    cases h
  · exact .inr rfl
  · exact .inl (runTxn_ambient x s)
  · exact .inl (beginTxn_ambient x s)

/-- R16 `hold`: a meaning leaves the ambient elements, or it is a port request of MAIN's that waits. -/
theorem exec_ambient {i : Instr} (h : exec i s = .next u) :
    u.ambient = s.ambient ∨ (issuedByMain i = true ∧ u.ambient = (s.wait i).ambient) := by
  have of_keeps : Keeps s (exec i s) → u.ambient = s.ambient := fun hk => by rwa [h] at hk
  cases i with
  | read => exact .inl (of_keeps (execRead_keeps s))
  | write => exact .inl (of_keeps (execWrite_keeps s))
  | blank => exact .inl (of_keeps (execBlank_keeps s))
  | setdev => exact .inl (of_keeps (execSetdev_keeps s))
  | ident | reset | baud | unknownOpcode =>
    refine .inl (of_keeps ?_)
    simp only [exec, execIdent, execReset, execBaud, execUnknownOpcode]
    split <;> trivial
  | recv b ok => exact .inl (of_keeps (receive_ambient b ok s))
  | recognize => exact .inl (of_keeps (recognize_ambient s))
  | push b =>
    rcases push_cases s b with ⟨_, e⟩ | ⟨_, e⟩ <;> simp only [exec, execPush, e] at h <;> cases h <;> exact .inl rfl
  | pop =>
    rcases pop_cases s with ⟨_, e⟩ | ⟨_, e⟩ <;> simp only [exec, execPop, e] at h <;> cases h <;> exact .inl rfl
  | popw =>
    rcases popw_cases s with ⟨_, e⟩ | ⟨_, _, e⟩ | ⟨_, _, e⟩ <;> simp only [exec, execPopw, e] at h <;> cases h
    · exact .inl rfl
    · exact .inr ⟨rfl, rfl⟩
    · exact .inl rfl
  | clear => simp only [exec, execClear, clear_eq] at h; cases h; exact .inl rfl
  | busLatch | busRead | busProg => exact (portBus_ambient h).imp_right (.intro rfl)
  | peek | size | selectA | selectB => cases h; exact .inl rfl
  | reservedFifoPort | reservedBusPort | reservedSelect0 | reservedSelect3 => cases h

end Sys2Proof.Machine
end

section
/-! # MAIN's outstanding requests (log 7)

They stay requests of MAIN's: a meaning adds none but itself, and only when it is one of those. -/

namespace Sys2Proof.Machine

variable {s t : State}

theorem heldOk_of_ambient {u : State} (hs : s.heldOk) (h : u.ambient = s.ambient) : u.heldOk := by
  rwa [State.heldOk, ambient_held h]

theorem exec_heldOk {i : Instr} (hs : s.heldOk) (h : exec i s = .next t) : t.heldOk := by
  rcases exec_ambient h with ha | ⟨hm, ha⟩
  · exact heldOk_of_ambient hs ha
  · have hw : (s.wait i).heldOk := by
      simp only [State.heldOk, State.wait, List.all_cons, hm, Bool.true_and]
      exact hs
    exact heldOk_of_ambient hw ha

theorem dispatchMarker_held (s : State) : (dispatchMarker s).held = s.held := by
  rcases pop_cases s with ⟨_, e⟩ | ⟨_, e⟩ <;> simp only [dispatchMarker, e]
  · rfl
  · split <;> rfl

theorem controllerStep_heldOk (hs : s.heldOk) (h : controllerStep s = .next t) : t.heldOk := by
  cases hd : s.dstate with
  | idle =>
    rw [controllerStep_idle hd] at h
    cases h
    split <;> exact hs
  | disp0 =>
    rw [controllerStep_disp0 hd] at h
    cases h
    rwa [State.heldOk, dispatchMarker_held]
  | disp1 =>
    rw [controllerStep_disp1 hd] at h
    rcases pop_cases s with ⟨_, e⟩ | ⟨_, e⟩ <;> simp only [dispatchOpcode, e] at h
    · cases h; exact hs
    · exact exec_heldOk (s := s.removed) hs h
  | exec e =>
    rw [controllerStep_exec hd] at h
    exact exec_heldOk hs h
  | cleanup =>
    rw [controllerStep_cleanup hd, cleanup_eq] at h
    cases h
    exact hs

theorem mainTurn_heldOk (hs : s.heldOk) (h : mainTurn s = .next t) : t.heldOk := by
  rcases mainTurn_cases s with ⟨x, p, t0, _, e⟩ | ⟨_, _, e⟩ | ⟨i, rest, _, _, hh, e⟩ <;> rw [e] at h
  · cases h
    exact heldOk_of_ambient hs (advanceTxn_ambient x p t0 s)
  · exact controllerStep_heldOk hs h
  · rw [State.heldOk, hh, List.all_cons, Bool.and_eq_true] at hs
    exact exec_heldOk (s := { s with held := rest }) hs.2 h

theorem portStep_heldOk {p : PortWord} (hs : s.heldOk) (h : portStep p s = .next t) : t.heldOk := by
  rcases portStep_cases p s with ⟨_, _, e⟩ | ⟨i, _, hm, _, e⟩ | ⟨i, _, _, e⟩ <;> rw [e] at h
  · cases h
  · cases h
    simp only [State.heldOk, List.all_append, List.all_cons, List.all_nil, hm, Bool.and_true]
    exact hs
  · exact exec_heldOk hs h

theorem inputStep_heldOk {i : Input} (hs : s.heldOk) (h : inputStep i s = .next t) : t.heldOk := by
  cases i with
  | recv b ok => exact exec_heldOk (i := .recv b ok) hs h
  | port p => exact portStep_heldOk hs h
  | main => exact mainTurn_heldOk hs h
  | tick dt => cases h; exact hs
  | power => cases h; rfl

theorem step_heldOk (hs : s.heldOk) (h : step s = .next t) : t.heldOk := by
  rcases step_cases s with ⟨_, _, e⟩ | ⟨_, _, e⟩ | ⟨i, rest, _, _, e⟩ <;> rw [e] at h
  · cases h
  · exact mainTurn_heldOk hs h
  · exact inputStep_heldOk (s := { s with inputs := rest }) hs h

end Sys2Proof.Machine
end

section
/-! # Where the Operation-Active Flag rises (R28, R92, R94)

Only the recognizer sets the flag, so only a receive event or the internal recognizer event can; of the two, none but
the receive event is an instruction that a step runs. -/

namespace Sys2Proof.Machine

variable {s t : State}

theorem shared_opActive (h : t.shared = s.shared) : t.opActive = s.opActive := by
  obtain ⟨_, _, _, _, _, hop, _⟩ := shared_eq h
  exact hop

/-- A state with the flag set does not share it with one that has it clear. -/
theorem shared_ne_of_flag (ht : t.opActive = true) (hs : s.opActive = false) : t.shared ≠ s.shared := fun h => by
  rw [shared_opActive h, hs] at ht
  cases ht

/-- What the recognizer saw when it set the flag is still there (R92). -/
theorem recognize_rises (h : t.shared = s.recognize.shared) (hs : s.opActive = false) (ht : t.opActive = true) :
    t.ringAt t.head = Config.MARKER ∧ 1 < t.occ := by
  rcases recognize_cases s with ⟨hr, ho, e⟩ | ⟨_, e⟩ <;> rw [e] at h
  · obtain ⟨_, hhead, _⟩ := shared_eq h
    rw [shared_ringAt h, shared_occ h, hhead]
    exact ⟨hr, ho⟩
  · exact absurd h (shared_ne_of_flag ht hs)

/-- A meaning that raises the flag is an event of the receive path. -/
theorem exec_flag_rises {i : Instr} (h : exec i s = .next t) (hs : s.opActive = false) (ht : t.opActive = true) :
    (i = .recognize ∨ ∃ b, i = .recv b true) ∧ t.ringAt t.head = Config.MARKER ∧ 1 < t.occ := by
  cases exec_shared h with
  | receive b hi _ _ h => exact ⟨.inr ⟨b, hi⟩, recognize_rises h hs ht⟩
  | recognize hi h => exact ⟨.inl hi, recognize_rises h hs ht⟩
  | setdev v _ _ ha => rw [hs] at ha; cases ha
  | cancel b _ _ h | clear _ h => exact absurd h (shared_ne_of_flag ht rfl)
  | none h | push b _ _ h | take _ _ h | size _ h | select v _ h => exact absurd h (shared_ne_of_flag ht hs)

/-- With only MAIN's requests outstanding, a receive event comes from a received byte alone, and no step runs the
internal recognizer event. -/
theorem origin_receive {i : Instr} (hh : s.heldOk) (ho : Origin i s) (hi : i = .recognize ∨ ∃ b, i = .recv b true) :
    ∃ b rest, s.inputs = .recv b true :: rest := by
  cases ho with
  | byte b ok rest hs he =>
    rcases hi with rfl | ⟨b', rfl⟩ <;> cases he
    exact ⟨b, rest, hs⟩
  | port p rest _ hp =>
    obtain ⟨hb, hr, _⟩ := decodePort_kind hp
    rcases hi with rfl | ⟨b, rfl⟩
    · exact absurd rfl hr
    · exact absurd rfl (hb b true)
  | held hm =>
    have := List.all_eq_true.1 hh i hm
    rcases hi with rfl | ⟨b, rfl⟩ <;> cases this
  | command e _ he =>
    rcases hi with rfl | ⟨b, rfl⟩ <;> cases e <;> cases he

end Sys2Proof.Machine
end

section
/-! # The flag and MAIN's requests over a whole step (log 7) -/

namespace Sys2Proof.Machine

/-- Settles O50: a step that raises the flag runs a meaning that does, and that is a receive event. -/
theorem flagRisesOnlyOnAnEnvelope : Obligations.FlagRisesOnlyOnAnEnvelope := by
  intro s t hh h
  refine ⟨step_heldOk hh h, fun hs ht => ?_⟩
  cases step_change h with
  | power rest _ h => rw [h] at ht; cases ht
  | runs i u ho hx hu =>
    obtain ⟨hi, hm⟩ := exec_flag_rises hx ((shared_opActive hu).trans hs) ht
    exact ⟨origin_receive hh ho hi, hm⟩
  | quiet h | popped _ _ h => exact absurd h (shared_ne_of_flag ht hs)
  | cleanup _ h => exact absurd h (shared_ne_of_flag ht rfl)

end Sys2Proof.Machine
end

section
/-! # The write side of the buffer (R54, R27)

RX's part of the shared state: MAIN's commands and the pops of Dispatching move `head` and the flags alone, so on the
wire only a receive step and the Cleanup step reach it. -/

namespace Sys2Proof.Machine

/-- R54: what the receive path writes: the byte statistic, `tail` and the ring. -/
def State.writeSide (s : State) : BitVec 32 × Index × Memory := (s.rxCount, s.tail, s.ring)

variable {s t : State}

theorem shared_writeSide (h : t.shared = s.shared) : t.writeSide = s.writeSide := by
  obtain ⟨hring, _, htail, _, hcount, _⟩ := shared_eq h
  simp only [State.writeSide, hring, htail, hcount]

theorem writeSide_eq (h : t.writeSide = s.writeSide) :
    t.rxCount = s.rxCount ∧ t.tail = s.tail ∧ ∀ i, t.ringAt i = s.ringAt i := by
  simp only [State.writeSide, Prod.mk.injEq] at h
  obtain ⟨hcount, htail, hring⟩ := h
  exact ⟨hcount, htail, fun i => by rw [State.ringAt, hring, State.ringAt]⟩

/-- No command writes the write side: of the shared state it changes at most `head`, the stop flag and the
descriptor. -/
theorem exec_command_writeSide {e : Exec} (h : exec e.instr s = .next t) : t.writeSide = s.writeSide := by
  cases exec_shared h with
  | none h => exact shared_writeSide h
  | take _ _ h => exact (shared_writeSide h).trans rfl
  | setdev v _ _ _ _ _ h => exact (shared_writeSide h).trans rfl
  | push _ hi | receive _ hi | cancel _ hi | recognize hi | size hi | clear hi => cases e <;> cases hi
  | select _ hi => rcases hi with hi | hi <;> cases e <;> cases hi

/-- On the wire a step keeps the write side, or it is a receive step, the Cleanup step or the loss of power. -/
theorem step_writeSide (hw : s.wireOnly) (h : step s = .next t)
    (hr : ∀ b ok rest, s.inputs ≠ .recv b ok :: rest) (hp : ∀ rest, s.inputs ≠ .power :: rest) :
    t.writeSide = s.writeSide ∨ (s.dstate = .cleanup ∧ t.shared = s.cleared.shared) := by
  cases step_change h with
  | power rest hs _ => exact absurd hs (hp rest)
  | runs i u ho hx hu =>
    rcases origin_wire hw ho with ⟨b, ok, rest, hs, _⟩ | ⟨e, _, rfl⟩
    · exact absurd hs (hr b ok rest)
    · exact .inl ((exec_command_writeSide hx).trans (shared_writeSide hu))
  | quiet h => exact .inl (shared_writeSide h)
  | popped _ _ h => exact .inl ((shared_writeSide h).trans rfl)
  | cleanup hd h => exact .inr ⟨hd, h⟩

/-- Settles O52: a step that is no receive step and no loss of power keeps the whole write side, or it is the Cleanup
step, whose `CLEAR` keeps the statistic. -/
theorem mainLeavesTheWriteSide : Obligations.MainLeavesTheWriteSide := by
  intro s t hw h hr hp
  rcases step_writeSide hw h hr hp with hk | ⟨hd, hc⟩
  · obtain ⟨hcount, hside⟩ := writeSide_eq hk
    exact ⟨hcount, fun _ => hside⟩
  · obtain ⟨hcount, _⟩ := writeSide_eq (shared_writeSide hc)
    exact ⟨hcount, fun hn => absurd hd hn⟩

end Sys2Proof.Machine
end

section
/-! # Words and their fields (R60, R74, R75)

Every word is the join of its fields, and its number is made of theirs. -/

namespace Sys2Proof

theorem envelope_split (w : BitVec 16) : ∃ m op : Byte, w = (m ++ op : BitVec 16) :=
  ⟨_, _, (join_cut (n := 8) (m := 8) w).symm⟩

theorem fifo_split (w : BitVec 11) : ∃ (op : BitVec 3) (d : Byte), w = (op ++ d : BitVec 11) :=
  ⟨_, _, (join_cut (n := 3) (m := 8) w).symm⟩

theorem bus_split (w : BitVec 26) : ∃ (op : BitVec 2) (a : Addr) (d : Byte), w = (op ++ a ++ d : BitVec 26) :=
  ⟨_, _, _, (bus_join w).symm⟩

/-- A word with a low byte, cut there, gives the numbers of its two parts. -/
theorem join_byte_toNat {n : Nat} (x : BitVec n) (d : Byte) :
    (x ++ d).toNat / 256 = x.toNat ∧ (x ++ d).toNat % 256 = d.toNat := by
  have := toNat_join x d
  have := d.isLt
  omega

/-- R75: the numbers of the select code and of the `d` field. -/
theorem bus_toNat_fields (op : BitVec 2) (a : Addr) (d : Byte) :
    (op ++ a ++ d : BitVec 26).toNat / 2 ^ 24 = op.toNat ∧ (op ++ a ++ d : BitVec 26).toNat % 256 = d.toNat := by
  have := bus_toNat op a d
  have := a.isLt
  have := d.isLt
  omega

end Sys2Proof
end

section
/-! # The decoder on the encoder's words (R61, R71, R74, R75, R76) -/

namespace Sys2Proof

theorem decode_encodeEnvelope (op : Byte) : decode (encodeEnvelope op) = .ok (decodeOpcode op) :=
  decodeEnvelope_join op

theorem decode_encodeFifo (op : BitVec 3) (d : Byte) :
    decode (encodeFifo op d) =
      if op = 0#3 then .ok (.push d) else if 6 ≤ op.toNat then .ok (.reservedFifoPort op d)
      else if d ≠ 0#8 then .error .nonzeroData else if op = 1#3 then .ok .pop
      else if op = 2#3 then .ok .popw else if op = 3#3 then .ok .peek
      else if op = 4#3 then .ok .size else .ok .clear :=
  decodeFifo_join op d

theorem decode_encodeBus (op : BitVec 2) (a : Addr) (d : Byte) :
    decode (encodeBus op a d) =
      if op = 3#2 then .ok (.reservedBusPort a d) else if op = 2#2 then .ok (.busProg a d)
      else if d ≠ 0#8 then .error .nonzeroD else if op = 1#2 then .ok (.busRead a)
      else .ok (.busLatch a) :=
  decodeBus_join op a d

/-- R71: a byte that is none of the seven opcodes. -/
theorem decodeOpcode_unknown {op : Byte} (h : op ∉ knownOpcodes) : decodeOpcode op = .unknownOpcode op := by
  simp only [knownOpcodes, List.mem_cons, List.not_mem_nil, or_false, not_or] at h
  simp [decodeOpcode, h]

/-- The round trip of every well-formed instruction, by the form of its word. -/
theorem decode_encode {i : Instr} (hw : i.wf = true) : decode (encode i) = .ok i := by
  cases i with
  | read | write | blank | ident | setdev | reset | baud => exact decode_encodeEnvelope _
  | unknownOpcode op =>
    have h : op ∉ knownOpcodes := by simpa [Instr.wf] using hw
    exact (decode_encodeEnvelope op).trans (congrArg Except.ok (decodeOpcode_unknown h))
  | push | pop | popw | peek | size | clear => exact decode_encodeFifo _ _
  | reservedFifoPort op d =>
    have h6 : 6 ≤ op.toNat := by simpa [Instr.wf] using hw
    have h0 : op ≠ 0#3 := by rintro rfl; cases h6
    rw [encode, decode_encodeFifo, if_neg h0, if_pos h6]
  | busLatch | busRead | busProg | reservedBusPort => exact decode_encodeBus _ _ _
  | selectA | selectB | reservedSelect0 | reservedSelect3 | recv | recognize => rfl

/-- Settles O1: the round trip, which goes by the form of the word. -/
theorem decodeInvertsEncode : Obligations.DecodeInvertsEncode := fun _ => decode_encode

end Sys2Proof
end

section
/-! # Every word is encoded or rejected (R60, R71, R74, R75)

What both directions of "one meaning per word" come down to: a word outside the rejected ones is the encoding of a
well-formed instruction, and `decode_encode` then says what the decoder answers. -/

namespace Sys2Proof

/-- Request `r` is rejected as `e` if `P` holds, and else it is the encoding of a well-formed instruction. -/
inductive EncodedUnless (P : Prop) (e : Reject) (r : Request) : Prop
  | rejected (hP : P) (hd : decode r = .error e)
  | encoded (i : Instr) (hP : ¬P) (hw : i.wf = true) (he : encode i = r)

variable {P : Prop} {e : Reject} {r : Request}

theorem EncodedUnless.decode_error_iff (h : EncodedUnless P e r) : decode r = .error e ↔ P := by
  cases h with
  | rejected hP hd => simp [hP, hd]
  | encoded i hP hw he => simp [hP, ← he, decode_encode hw]

theorem EncodedUnless.of_decode_ok (h : EncodedUnless P e r) {i : Instr} (hi : decode r = .ok i) :
    i.wf = true ∧ encode i = r := by
  cases h with
  | rejected _ hd => rw [hd] at hi; cases hi
  | encoded j _ hw he =>
    subst he
    rw [decode_encode hw] at hi
    cases hi
    exact ⟨hw, rfl⟩

/-! ## The envelope -/

/-- R61, R71: every opcode byte has an instruction. -/
theorem encodeEnvelope_encoded (op : Byte) : ∃ i : Instr, i.wf = true ∧ encode i = encodeEnvelope op := by
  by_cases h : op ∈ knownOpcodes
  · simp only [knownOpcodes, List.mem_cons, List.not_mem_nil, or_false] at h
    rcases h with rfl | rfl | rfl | rfl | rfl | rfl | rfl
    · exact ⟨.read, rfl, rfl⟩
    · exact ⟨.write, rfl, rfl⟩
    · exact ⟨.blank, rfl, rfl⟩
    · exact ⟨.ident, rfl, rfl⟩
    · exact ⟨.setdev, rfl, rfl⟩
    · exact ⟨.reset, rfl, rfl⟩
    · exact ⟨.baud, rfl, rfl⟩
  · exact ⟨.unknownOpcode op, by simpa [Instr.wf] using h, rfl⟩

/-- R60: an envelope without the marker. -/
theorem decode_envelope_of_ne_marker {m op : Byte} (h : m ≠ Config.MARKER) :
    decode (.envelope (m ++ op : BitVec 16)) = .error .notAMarker :=
  if_neg fun hm => h ((envelope_fields m op).1.symm.trans hm)

theorem envelope_encodedUnless (w : BitVec 16) :
    EncodedUnless (w.toNat / 256 ≠ 0x24) .notAMarker (.envelope w) := by
  obtain ⟨m, op, rfl⟩ := envelope_split w
  rw [show (m ++ op : BitVec 16).toNat / 256 = m.toNat from (join_byte_toNat m op).1]
  by_cases h : m = Config.MARKER
  · subst h
    obtain ⟨i, hw, he⟩ := encodeEnvelope_encoded op
    exact .encoded i (not_not.2 rfl) hw he
  · have hne : m.toNat ≠ Config.MARKER.toNat := BitVec.toNat_ne_iff_ne.2 h
    exact .rejected hne (decode_envelope_of_ne_marker h)

/-! ## The FIFO word -/

/-- R74: the six operations and the two reserved codes. -/
theorem fifoSelect_cases (op : BitVec 3) :
    op = 0#3 ∨ op = 1#3 ∨ op = 2#3 ∨ op = 3#3 ∨ op = 4#3 ∨ op = 5#3 ∨ 6 ≤ op.toNat := by
  revert op
  decide

/-- R74: a code whose `data` field is unused. -/
theorem fifo_without_data {op : BitVec 3} (hop : 1 ≤ op.toNat ∧ op.toNat ≤ 5) (d : Byte) (i : Instr)
    (hw : i.wf = true) (he : encode i = encodeFifo op 0#8) :
    EncodedUnless (1 ≤ op.toNat ∧ op.toNat ≤ 5 ∧ d.toNat ≠ 0) .nonzeroData (encodeFifo op d) := by
  obtain ⟨h1, h5⟩ := hop
  by_cases hd : d = 0#8
  · subst hd
    exact .encoded i (fun ⟨_, _, h⟩ => h rfl) hw he
  · have hne : d.toNat ≠ (0#8).toNat := BitVec.toNat_ne_iff_ne.2 hd
    refine .rejected ⟨h1, h5, hne⟩ ?_
    have h0 : op ≠ 0#3 := by rintro rfl; cases h1
    rw [decode_encodeFifo, if_neg h0, if_neg (by omega), if_pos hd]

theorem encodeFifo_encodedUnless (op : BitVec 3) (d : Byte) :
    EncodedUnless (1 ≤ op.toNat ∧ op.toNat ≤ 5 ∧ d.toNat ≠ 0) .nonzeroData (encodeFifo op d) := by
  rcases fifoSelect_cases op with rfl | rfl | rfl | rfl | rfl | rfl | h6
  · exact .encoded (.push d) (by simp) rfl rfl
  · exact fifo_without_data (by decide) d .pop rfl rfl
  · exact fifo_without_data (by decide) d .popw rfl rfl
  · exact fifo_without_data (by decide) d .peek rfl rfl
  · exact fifo_without_data (by decide) d .size rfl rfl
  · exact fifo_without_data (by decide) d .clear rfl rfl
  · exact .encoded (.reservedFifoPort op d) (by omega) (decide_eq_true h6) rfl

theorem fifo_encodedUnless (w : BitVec 11) :
    EncodedUnless (1 ≤ w.toNat / 256 ∧ w.toNat / 256 ≤ 5 ∧ w.toNat % 256 ≠ 0) .nonzeroData (.port (.fifo w)) := by
  obtain ⟨op, d, rfl⟩ := fifo_split w
  obtain ⟨hop, hd⟩ : (op ++ d : BitVec 11).toNat / 256 = op.toNat ∧ (op ++ d : BitVec 11).toNat % 256 = d.toNat :=
    join_byte_toNat op d
  rw [hop, hd]
  exact encodeFifo_encodedUnless op d

/-! ## The bus word -/

/-- R75: the three transactions and the reserved code. -/
theorem busSelect_cases (op : BitVec 2) : op = 0#2 ∨ op = 1#2 ∨ op = 2#2 ∨ op = 3#2 := by
  revert op
  decide

/-- R75: a code whose `d` field is unused. -/
theorem bus_without_d {op : BitVec 2} (hop : op.toNat ≤ 1) (a : Addr) (d : Byte) (i : Instr)
    (hw : i.wf = true) (he : encode i = encodeBus op a 0#8) :
    EncodedUnless (op.toNat ≤ 1 ∧ d.toNat ≠ 0) .nonzeroD (encodeBus op a d) := by
  by_cases hd : d = 0#8
  · subst hd
    exact .encoded i (fun ⟨_, h⟩ => h rfl) hw he
  · have hne : d.toNat ≠ (0#8).toNat := BitVec.toNat_ne_iff_ne.2 hd
    refine .rejected ⟨hop, hne⟩ ?_
    have h3 : op ≠ 3#2 := by rintro rfl; exact absurd hop (by decide)
    have h2 : op ≠ 2#2 := by rintro rfl; exact absurd hop (by decide)
    rw [decode_encodeBus, if_neg h3, if_neg h2, if_pos hd]

theorem encodeBus_encodedUnless (op : BitVec 2) (a : Addr) (d : Byte) :
    EncodedUnless (op.toNat ≤ 1 ∧ d.toNat ≠ 0) .nonzeroD (encodeBus op a d) := by
  rcases busSelect_cases op with rfl | rfl | rfl | rfl
  · exact bus_without_d (by decide) a d (.busLatch a) rfl rfl
  · exact bus_without_d (by decide) a d (.busRead a) rfl rfl
  · exact .encoded (.busProg a d) (by simp) rfl rfl
  · exact .encoded (.reservedBusPort a d) (by simp) rfl rfl

theorem bus_encodedUnless (w : BitVec 26) :
    EncodedUnless (w.toNat / 2 ^ 24 ≤ 1 ∧ w.toNat % 256 ≠ 0) .nonzeroD (.port (.bus w)) := by
  obtain ⟨op, a, d, rfl⟩ := bus_split w
  obtain ⟨hop, hd⟩ := bus_toNat_fields op a d
  rw [hop, hd]
  exact encodeBus_encodedUnless op a d

/-! ## The descriptor word -/

/-- R76: every descriptor word has an instruction, the reserved ones included. -/
theorem select_encoded (w : BitVec 2) : ∃ i : Instr, i.wf = true ∧ encode i = .port (.select w) := by
  rcases busSelect_cases w with rfl | rfl | rfl | rfl
  · exact ⟨.reservedSelect0, rfl, rfl⟩
  · exact ⟨.selectA, rfl, rfl⟩
  · exact ⟨.selectB, rfl, rfl⟩
  · exact ⟨.reservedSelect3, rfl, rfl⟩

end Sys2Proof
end

section
/-! # One meaning per word, and which words have none (R60, R71, R74, R75, R76) -/

namespace Sys2Proof

/-- Settles O2, by the form of the request. -/
theorem encodeInvertsDecode : Obligations.EncodeInvertsDecode := by
  intro r i h
  match r with
  | .envelope w => exact (envelope_encodedUnless w).of_decode_ok h
  | .port (.fifo w) => exact (fifo_encodedUnless w).of_decode_ok h
  | .port (.bus w) => exact (bus_encodedUnless w).of_decode_ok h
  | .port (.select w) =>
    obtain ⟨j, hw, he⟩ := select_encoded w
    rw [← he, decode_encode hw] at h
    cases h
    exact ⟨hw, he⟩
  | .recv b ok => cases h; exact ⟨rfl, rfl⟩
  | .recognize => cases h; exact ⟨rfl, rfl⟩

/-- Settles O3: every form is encoded unless its field condition holds, and no descriptor word is rejected. -/
theorem decoderRejectsExactly : Obligations.DecoderRejectsExactly :=
  ⟨fun w => (envelope_encodedUnless w).decode_error_iff, fun w => (fifo_encodedUnless w).decode_error_iff,
    fun w => (bus_encodedUnless w).decode_error_iff, fun w => ⟨decodeSelect w, rfl⟩⟩

/-- Settles O4: closed words, evaluated. -/
theorem wordsOfTheSpecDecode : Obligations.WordsOfTheSpecDecode := by
  unfold Obligations.WordsOfTheSpecDecode
  decide

end Sys2Proof
end

section
/-! # Ring indices as numbers (R24, R25, R79, R80)

An index advances modulo `N`, so the conditions on indices are the document's equations on numbers. -/

namespace Sys2Proof.Machine

variable (s : State)

theorem index_add_one_toNat (i : Index) : (i + 1#10).toNat = (i.toNat + 1) % 1024 := BitVec.toNat_add i 1#10

theorem index_add_two_toNat (i : Index) : (i + 2#10).toNat = (i.toNat + 2) % 1024 := BitVec.toNat_add i 2#10

/-- R79: the empty condition. -/
theorem occ_eq_zero_iff_toNat : s.occ = 0 ↔ (s.tail.toNat + 1) % 1024 = s.head.toNat := by
  rw [occ_eq_zero_iff, ← index_add_one_toNat, BitVec.toNat_inj]

/-- R79: the full condition. -/
theorem occ_eq_1023_iff_toNat : s.occ = 1023 ↔ (s.tail.toNat + 2) % 1024 = s.head.toNat := by
  rw [← full_iff, State.full, beq_iff_eq, ← index_add_two_toNat, BitVec.toNat_inj]

/-- Settles O11: the document's formula, and its two conditions as equations of indices. -/
theorem occupancyOfTheIndices : Obligations.OccupancyOfTheIndices := fun s =>
  ⟨occupancy_eq s.head s.tail, occ_le s, occ_eq_zero_iff_toNat s, occ_eq_1023_iff_toNat s, full_iff s⟩

theorem fcEval_above {o : Nat} (ho : 993 ≤ o) (stop : Bool) : fcEval o stop = true := by
  rw [fcEval_eq, if_pos (by omega)]

theorem fcEval_below {o : Nat} (ho : o ≤ 31) (stop : Bool) : fcEval o stop = false := by
  rw [fcEval_eq, if_neg (by omega), if_pos (by omega)]

/-- R80: the hysteresis band. -/
theorem fcEval_band {o : Nat} (hl : 32 ≤ o) (hh : o ≤ 992) (stop : Bool) : fcEval o stop = stop := by
  rw [fcEval_eq, if_neg (by omega), if_neg (by omega)]

/-- Settles O12, range by range. -/
theorem flowControlEvaluation : Obligations.FlowControlEvaluation := fun o stop =>
  ⟨fun ho => fcEval_above ho stop, fun ho => fcEval_below ho stop, fun hl hh => fcEval_band hl hh stop,
    fcEval_idem o stop⟩

end Sys2Proof.Machine
end

section
/-! # The FIFO port (R84, R87, R88, R89): the state after each operation -/

namespace Sys2Proof.Machine

variable {s : State}

theorem exec_push_full (b : Byte) (h : s.occ = 1023) :
    exec (.push b) s = .next (s.answer (.err .bufferOverflow)) := by
  simp only [exec, execPush, push_full b h, PortResult.ofUnit]

theorem exec_push_room (b : Byte) (h : s.occ ≠ 1023) : exec (.push b) s = .next ((s.appended b).answer .ok) := by
  simp only [exec, execPush, push_room b h, PortResult.ofUnit]

theorem exec_clear (s : State) : exec .clear s = .next (s.cleared.answer .ok) := by
  simp only [exec, execClear, clear_eq]

/-- R84, R80: an append with the write address as a number and the evaluation of flow control written out. -/
theorem appended_eq (b : Byte) (s : State) :
    s.appended b =
      { s with tail := s.tail + 1#10
               ring := Memory.write 0x00#8 s.ring ((s.tail.toNat + 1) % 1024) b
               rxCount := s.rxCount + 1#32
               stop := if 992 < s.occ + 1 then true else if s.occ + 1 < 32 then false else s.stop } := by
  rw [State.appended, index_add_one_toNat, fcEval_eq]

/-- Settles O13: the full buffer and the buffer with room. -/
theorem pushAppendsOrOverflows : Obligations.PushAppendsOrOverflows := by
  intro b s
  by_cases h : s.occ = 1023
  · rw [exec_push_full b h, if_pos h, State.answer]
  · rw [exec_push_room b h, if_neg h, appended_eq, State.answer]

/-- R87: the answer of `PEEK`. -/
theorem ofByte_peek (s : State) :
    PortResult.ofByte s.peek = if s.occ = 0 then .err .bufferUnderflow else .byte (s.ringAt s.head) := by
  rw [State.peek]
  split <;> rfl

theorem exec_peek (s : State) : exec .peek s = .next (s.answer (PortResult.ofByte s.peek)) := rfl

theorem exec_size (s : State) : exec .size s = .next (s.flowControl.answer (.count s.occ)) := rfl

/-- Settles O16, operation by operation. -/
theorem peekSizeClear : Obligations.PeekSizeClear := by
  intro s
  refine ⟨?_, ?_, ?_⟩
  · rw [exec_peek, ofByte_peek, State.answer]
  · rw [exec_size, State.answer, State.flowControl, fcEval_eq]
  · rw [exec_clear, State.answer, State.cleared]

end Sys2Proof.Machine
end

section
/-! # The bytes of the ring (R23, R84 to R89) -/

namespace Sys2Proof.Machine

variable {s t : State}

/-- R85 to R88: the operations that only remove or look keep the write side. -/
theorem exec_look_writeSide {o : Instr} (ho : o ∈ [Instr.pop, .popw, .peek, .size]) (h : exec o s = .next t) :
    t.writeSide = s.writeSide := by
  cases exec_shared h with
  | none h => exact shared_writeSide h
  | take _ _ h => exact (shared_writeSide h).trans rfl
  | size _ h => exact (shared_writeSide h).trans rfl
  | push _ hi | receive _ hi | cancel _ hi | recognize hi | setdev _ hi | clear hi => subst hi; simp at ho
  | select _ hi => rcases hi with rfl | rfl <;> simp at ho

/-- Settles O17: an append writes one byte, a look and a removal none, `CLEAR` all. -/
theorem ringBytesOfTheFifoPort : Obligations.RingBytesOfTheFifoPort := by
  intro s t hm
  obtain ⟨hring, -, -⟩ := hm
  refine ⟨fun b h hr i => ?_, fun b h hf i => ?_, fun o ho h i => ?_, fun h i => ?_⟩
  · rw [exec_push_room b hr] at h
    cases h
    exact appended_ringAt hring b i
  · rw [exec_push_full b hf] at h
    cases h
    rfl
  · obtain ⟨-, -, hbytes⟩ := writeSide_eq (exec_look_writeSide ho h)
    exact hbytes i
  · rw [exec_clear] at h
    cases h
    rfl

end Sys2Proof.Machine
end

section
/-! # The receive path (R83, R92) -/

namespace Sys2Proof.Machine

variable {s : State}

/-- R92 after an append, seen from before it: the head byte is the marker and the new byte follows it. -/
theorem appended_recognize (hm : Memory.wf 0x00#8 s.ring = true) (b : Byte) (hr : s.occ ≠ 1023) :
    (s.appended b).recognize =
      { s.appended b with
        opActive := if 0 < s.occ ∧ s.ringAt s.head = Config.MARKER then true else s.opActive } := by
  have hiff : ((s.appended b).ringAt s.head = Config.MARKER ∧ 1 < (s.appended b).occ) ↔
      (0 < s.occ ∧ s.ringAt s.head = Config.MARKER) := by
    rw [appended_occ b hr, and_comm, Nat.succ_lt_succ_iff]
    exact and_congr_right fun h0 => by rw [appended_head hm b h0.ne']
  rcases recognize_cases (s.appended b) with ⟨hh, ho, e⟩ | ⟨hn, e⟩ <;> rw [e]
  · rw [if_pos (hiff.1 ⟨hh, ho⟩)]
  · rw [if_neg (mt hiff.2 hn)]
    rfl

theorem receive_cancel {b : Byte} (hb : b = s.cfg.cancelChar) : s.receive b true = { s with opActive := false } := by
  simp [State.receive, hb]

theorem receive_overflow {b : Byte} (hb : b ≠ s.cfg.cancelChar) (hf : s.occ = 1023) :
    s.receive b true = s.event (.rxOverflow b) := by
  simp [State.receive, hb, push_full b hf]

theorem receive_append {b : Byte} (hb : b ≠ s.cfg.cancelChar) (hr : s.occ ≠ 1023) :
    s.receive b true = (s.appended b).recognize := by
  simp [State.receive, hb, push_room b hr]

theorem exec_recv (b : Byte) (ok : Bool) (s : State) : exec (.recv b ok) s = .next (s.receive b ok) := rfl

/-- Settles O20: the four ways of a receive step. -/
theorem receivePath : Obligations.ReceivePath := by
  intro b s hm
  obtain ⟨hring, -, -⟩ := hm
  refine ⟨rfl, fun hb => ?_, fun hb hf => ?_, fun hb hr => ?_⟩
  · rw [exec_recv, receive_cancel hb]
  · rw [exec_recv, receive_overflow hb hf, State.event]
  · rw [exec_recv, receive_append hb hr, appended_recognize hring b hr, appended_eq]

end Sys2Proof.Machine
end

section
/-! # The command recognizer (R92) -/

namespace Sys2Proof.Machine

theorem exec_recognize (s : State) : exec .recognize s = .next s.recognize := rfl

/-- Settles O21: the recognizer's two cases, an envelope at the head or none. -/
theorem recognizerSetsTheFlag : Obligations.RecognizerSetsTheFlag := by
  intro s
  rw [exec_recognize]
  rcases recognize_cases s with ⟨hmarker, hocc, e⟩ | ⟨hnone, e⟩
  · rw [e, if_pos ⟨hmarker, hocc⟩]
  · rw [e, if_neg hnone]

end Sys2Proof.Machine
end

section
/-! # Commands outside their states (R98, log 16)

A command is dispatched at `Disp1` and steps in its own `Exec` states; everywhere else its match comes to the last arm,
the refusal: the hypotheses exclude the arms before it. -/

namespace Sys2Proof.Machine

variable {s : State}

theorem execRead_refused (hd : s.dstate ≠ .disp1) (he : ∀ sub, s.dstate ≠ .exec (.read sub)) :
    execRead s = .refused .commandNotDispatched := by
  simp [execRead, he]

theorem execWrite_refused (hd : s.dstate ≠ .disp1) (he : ∀ sub, s.dstate ≠ .exec (.write sub)) :
    execWrite s = .refused .commandNotDispatched := by
  simp [execWrite, he]

theorem execBlank_refused (hd : s.dstate ≠ .disp1) (he : ∀ sub, s.dstate ≠ .exec (.blank sub)) :
    execBlank s = .refused .commandNotDispatched := by
  simp [execBlank, he]

theorem execIdent_refused (hd : s.dstate ≠ .disp1) (he : s.dstate ≠ .exec .ident) :
    execIdent s = .refused .commandNotDispatched := by
  simp [execIdent]

theorem execSetdev_refused (hd : s.dstate ≠ .disp1) (he : s.dstate ≠ .exec .setdev) :
    execSetdev s = .refused .commandNotDispatched := by
  simp [execSetdev]

theorem execReset_refused (hd : s.dstate ≠ .disp1) (he : s.dstate ≠ .exec .reset) :
    execReset s = .refused .commandNotDispatched := by
  simp [execReset]

theorem execBaud_refused (hd : s.dstate ≠ .disp1) (he : s.dstate ≠ .exec .baud) :
    execBaud s = .refused .commandNotDispatched := by
  simp [execBaud]

theorem execUnknownOpcode_refused (op : Byte) (hd : s.dstate ≠ .disp1) :
    execUnknownOpcode op s = .refused .commandNotDispatched := by
  simp [execUnknownOpcode]

/-- Settles O10, command by command. -/
theorem commandsStepOnlyInTheirStates : Obligations.CommandsStepOnlyInTheirStates := by
  intro s hd
  refine ⟨fun c hc he => ?_, fun op => execUnknownOpcode_refused op hd⟩
  have own : ∀ e : Exec, e.instr = c → s.dstate ≠ .exec e := fun e hi hs => he e hs hi
  simp only [List.mem_cons, List.not_mem_nil, or_false] at hc
  rcases hc with rfl | rfl | rfl | rfl | rfl | rfl | rfl
  · exact execRead_refused hd fun sub => own (.read sub) rfl
  · exact execWrite_refused hd fun sub => own (.write sub) rfl
  · exact execBlank_refused hd fun sub => own (.blank sub) rfl
  · exact execIdent_refused hd (own .ident rfl)
  · exact execSetdev_refused hd (own .setdev rfl)
  · exact execReset_refused hd (own .reset rfl)
  · exact execBaud_refused hd (own .baud rfl)

end Sys2Proof.Machine
end

section
/-! # The dispatched command and the commands without an iteration (R98, R101, R104, R105) -/

namespace Sys2Proof.Machine

/-- Settles O9: each command at its dispatch. -/
theorem dispatchGoesToTheEntry : Obligations.DispatchGoesToTheEntry := fun _ h =>
  ⟨execRead_disp1 h, execWrite_disp1 h, execBlank_disp1 h, execIdent_disp1 h, execSetdev_disp1 h, execReset_disp1 h,
    execBaud_disp1 h⟩

/-- Settles O22: the report of an unknown opcode, and the one step of `$RESET` and of `$BAUD`. -/
theorem commandsWithoutADevice : Obligations.CommandsWithoutADevice := fun _ =>
  ⟨fun op h => execUnknownOpcode_disp1 op h, fun h => execReset_exec h, fun h => execBaud_exec h⟩

end Sys2Proof.Machine
end

section
/-! # MAIN's turn (R98 to R103, log 6, log 7) -/

namespace Sys2Proof.Machine

variable {s : State}

/-- R86: MAIN's oldest outstanding request comes before the controller. -/
theorem mainTurn_held {i : Instr} {others : List Instr} (hb : s.bphase = .idle) (hd : s.dstate.onBus = false)
    (hh : s.held = i :: others) : mainTurn s = exec i { s with held := others } := by
  simp [mainTurn, hb, hd, hh]

theorem inputs_self {l : List Input} (h : s.inputs = l) : { s with inputs := l } = s := by
  rw [← h]

theorem dstate_self {d : DState} (h : s.dstate = d) : { s with dstate := d } = s := by
  rw [← h]

/-- R101: the instruction of an opcode byte is what its envelope decodes to. -/
theorem decodeOpcode_of_envelope {op : Byte} {i : Instr} (h : decode (.envelope (0x24#8 ++ op)) = .ok i) :
    decodeOpcode op = i := by
  have he : decode (.envelope (0x24#8 ++ op)) = .ok (decodeOpcode op) := decode_encodeEnvelope op
  rw [he] at h
  exact Except.ok.inj h

/-- R136: with no input left MAIN has the turn. -/
theorem step_no_input (h : s.inputs = []) : step s = step { s with inputs := [.main] } := by
  rcases Option.eq_none_or_eq_some s.mfault with hf | ⟨f, hf⟩
  · rw [step_nil hf h, step_cons (s := { s with inputs := [.main] }) hf rfl]
    exact congrArg mainTurn (inputs_self h).symm
  · rw [step_marked hf, step_marked (s := { s with inputs := [.main] }) hf]

/-- Settles O6: the controller's step at `Disp1` and in an `Exec` state, the oldest request, and MAIN's turn without an
input. -/
theorem stepRunsTheCommand : Obligations.StepRunsTheCommand := by
  refine ⟨fun s rest hm => ⟨fun i hd h0 hi => ?_, fun e hd => ?_⟩,
    fun s rest i others hf hb hd hh hi => ?_, fun s h => step_no_input h⟩
  · rw [step_mainNext hm, controllerStep_disp1 (s := { s with inputs := rest }) hd,
      dispatchOpcode_some (s := { s with inputs := rest }) (Nat.ne_of_gt h0)]
    exact congrArg (exec · _) (decodeOpcode_of_envelope hi)
  · rw [step_mainNext hm, controllerStep_exec (s := { s with inputs := rest }) hd]
  · rw [step_cons hf hi]
    exact mainTurn_held hb hd hh

/-- Settles O7: the controller's step in `Idle` and at Cleanup. -/
theorem idleHoldsAndCleanupResets : Obligations.IdleHoldsAndCleanupResets := by
  intro s rest hm
  refine ⟨fun hd => ?_, fun hd => ?_⟩
  · rw [step_mainNext hm, controllerStep_idle (s := { s with inputs := rest }) hd]
    by_cases ha : s.opActive
    · rw [if_pos ha, if_pos ha]
      rfl
    · rw [if_neg ha, if_neg ha]
      exact congrArg _ (dstate_self (s := { s with inputs := rest }) hd).symm
  · rw [step_mainNext hm, controllerStep_cleanup (s := { s with inputs := rest }) hd, cleanup_eq]
    rfl

/-- R100, R101: a Dispatching pop that does not find what the recognizer saw leaves the fault mark. -/
theorem controllerStep_dispatch_fault (hf : s.mfault = none)
    (h : s.dstate = .disp0 ∧ (s.occ = 0 ∨ s.ringAt s.head ≠ Config.MARKER) ∨ s.dstate = .disp1 ∧ s.occ = 0) :
    ∃ t, controllerStep s = .next t ∧ t.mfault = some .dispatchInvariant := by
  rcases h with ⟨hd, hbad⟩ | ⟨hd, h0⟩
  · exact ⟨_, controllerStep_disp0 hd, dispatchMarker_fault hbad hf⟩
  · rw [controllerStep_disp1 hd, dispatchOpcode_empty h0]
    exact ⟨_, rfl, by simp [hf]⟩

/-- Settles O8: the marker at the head, and the three ways to the fault mark. -/
theorem markerIsPopped : Obligations.MarkerIsPopped := by
  intro s rest hm
  rw [step_mainNext hm]
  refine ⟨fun hd h0 hr => ?_, fun h => ?_⟩
  · rw [controllerStep_disp0 (s := { s with inputs := rest }) hd,
      dispatchMarker_marker (s := { s with inputs := rest }) (Nat.ne_of_gt h0) hr]
    rfl
  · obtain ⟨hf, -⟩ := hm
    obtain ⟨t, ht, hmark⟩ := controllerStep_dispatch_fault (s := { s with inputs := rest }) hf h
    exact ⟨t, ht, hmark, step_marked hmark⟩

end Sys2Proof.Machine
end

section
/-! # A command from the envelope back to `Idle` (R98, R167) -/

namespace Sys2Proof.Machine

variable {s t : State}

/-- Nothing stands before the controller's own step when MAIN has the turn: `State.mainNext` without the inputs. -/
def State.controllerNext (s : State) : Prop := s.mfault = none ∧ s.bphase = .idle ∧ s.held = []

/-- On the wire only a transaction under way stands before the controller. -/
theorem Session.controllerNext (hs : Session s) (hd : s.dstate.onBus = false) : s.controllerNext := by
  have hb : s.bphase = .idle := hs.sequencer.resolve_right (by simp [hd])
  exact ⟨hs.noFault, hb, hs.wire.1⟩

/-- A turn of MAIN that is the controller's. -/
theorem mainRun_controllerStep (hc : s.controllerNext) (h : controllerStep s = .next t) (n : Nat) :
    mainRun (n + 1) s = mainRun n t := by
  obtain ⟨hf, hb, hh⟩ := hc
  rw [mainRun_succ, stepWith_main hf hb hh, h]
  rfl

/-- R103: the last turn of every command. -/
theorem mainRun_cleanup (hc : t.controllerNext) (hd : t.dstate = .cleanup) :
    mainRun 1 t = some { t.cleared with dstate := .idle } := by
  rw [mainRun_controllerStep hc (controllerStep_cleanup hd), cleanup_eq]
  rfl

/-- The state at `Disp1` with the envelope's two bytes popped, which the dispatched command starts from (R101). -/
def State.dispatching (s : State) : State := { s.removed.removed with dstate := .disp1 }

/-- R99 to R101: from a recognized envelope in `Idle` the third turn of MAIN runs the opcode's instruction. -/
theorem mainRun_envelope (hs : Session s) (hd : s.dstate = .idle) (ha : s.opActive = true)
    (hx : exec (decodeOpcode (s.ringAt (s.head + 1#10))) s.dispatching = .next t) (n : Nat) :
    mainRun (n + 3) s = mainRun n t := by
  have hc : s.controllerNext := hs.controllerNext (by rw [hd]; rfl)
  obtain ⟨hocc, hmarker⟩ : 2 ≤ s.occ ∧ s.ringAt s.head = Config.MARKER := by
    have hdisp := hs.dispatch
    rw [State.dispatchOk, hd] at hdisp
    exact hdisp ha
  have h0 : s.occ ≠ 0 := by omega
  have h1 : s.removed.occ ≠ 0 := by rw [removed_occ h0]; omega
  have hidle : controllerStep s = .next (s.goto .disp0) := by rw [controllerStep_idle hd, if_pos ha]
  have hdisp0 : controllerStep (s.goto .disp0) = .next (s.removed.goto .disp1) := by
    rw [controllerStep_disp0 rfl, dispatchMarker_marker (s := s.goto .disp0) h0 hmarker]
    rfl
  have hdisp1 : controllerStep (s.removed.goto .disp1) = .next t := by
    rw [controllerStep_disp1 rfl, dispatchOpcode_some (s := s.removed.goto .disp1) h1]
    exact hx
  rw [mainRun_controllerStep hc hidle, mainRun_controllerStep (s := s.goto .disp0) hc hdisp0,
    mainRun_controllerStep (s := s.removed.goto .disp1) hc hdisp1]

/-- The end of a command at Cleanup, with its output and its events. -/
def State.spent (str : Str) (evs : List Event) (s : State) : State :=
  { s.dispatching with dstate := .cleanup, txLog := s.txLog ++ str, evLog := s.evLog ++ evs }

/-- The same back in `Idle`, after `CLEAR`. -/
def State.done (str : Str) (evs : List Event) (s : State) : State :=
  { s with head := 0#10, tail := 1023#10, ring := [], opActive := false, stop := false
           dstate := .idle, txLog := s.txLog ++ str, evLog := s.evLog ++ evs }

theorem ended_spent (d : DState) (str : Str) (s : State) : (s.dispatching.goto d).ended str = s.spent str [] := by
  simp only [State.ended, State.goto, State.spent, State.dispatching, State.removed, List.append_nil]

theorem goto_spent (d : DState) (s : State) : (s.dispatching.goto d).goto .cleanup = s.spent [] [] := by
  simp only [State.goto, State.spent, State.dispatching, State.removed, List.append_nil]

theorem event_spent (d : DState) (e : Event) (s : State) :
    ((s.dispatching.goto d).event e).goto .cleanup = s.spent [] [e] := by
  simp only [State.event, State.goto, State.spent, State.dispatching, State.removed, List.append_nil]

theorem dispatching_controllerNext (hc : s.controllerNext) (d : DState) : (s.dispatching.goto d).controllerNext := by
  simpa only [State.controllerNext, State.goto, State.dispatching, State.removed] using hc

theorem spent_controllerNext (hc : s.controllerNext) (str : Str) (evs : List Event) :
    (s.spent str evs).controllerNext := by
  simpa only [State.controllerNext, State.spent, State.dispatching, State.removed] using hc

/-- R103: the Cleanup turn of a command from an envelope. -/
theorem mainRun_spent (hc : s.controllerNext) (str : Str) (evs : List Event) :
    mainRun 1 (s.spent str evs) = some (s.done str evs) := by
  rw [mainRun_cleanup (spent_controllerNext hc str evs) rfl]
  simp only [State.cleared, State.spent, State.dispatching, State.removed, State.done]

/-- R102, R103: a command that goes from its entry to Cleanup in one turn is back in `Idle` after five. -/
theorem mainRun_command {e : Exec} {str : Str} {evs : List Event} (hs : Session s) (hd : s.dstate = .idle)
    (ha : s.opActive = true) (hop : decodeOpcode (s.ringAt (s.head + 1#10)) = e.instr)
    (hentry : exec e.instr s.dispatching = .next (s.dispatching.goto (.exec e)))
    (hx : exec e.instr (s.dispatching.goto (.exec e)) = .next (s.spent str evs)) :
    mainRun 5 s = some (s.done str evs) := by
  have hc : s.controllerNext := hs.controllerNext (by rw [hd]; rfl)
  rw [← hop] at hentry
  rw [mainRun_envelope hs hd ha hentry,
    mainRun_controllerStep (dispatching_controllerNext hc (.exec e)) ((controllerStep_exec rfl).trans hx),
    mainRun_spent hc]

/-- R101, R103: an unknown opcode is back in `Idle` after four turns. -/
theorem mainRun_unknown (hs : Session s) (hd : s.dstate = .idle) (ha : s.opActive = true)
    (hop : s.ringAt (s.head + 1#10) ∉ knownOpcodes) : mainRun 4 s = some (s.done Config.unknownLine []) := by
  have hc : s.controllerNext := hs.controllerNext (by rw [hd]; rfl)
  have hx : exec (decodeOpcode (s.ringAt (s.head + 1#10))) s.dispatching = .next (s.spent Config.unknownLine []) := by
    rw [decodeOpcode_unknown hop, ← ended_spent .disp1]
    exact execUnknownOpcode_disp1 (s := s.dispatching) (s.ringAt (s.head + 1#10)) rfl
  rw [mainRun_envelope hs hd ha hx, mainRun_spent hc]

theorem execIdent_spent (s : State) :
    execIdent (s.dispatching.goto (.exec .ident)) = .next (s.spent (s.cfg.identLine s.desc) []) := by
  rw [execIdent_exec (s := s.dispatching.goto (.exec .ident)) rfl, ended_spent]
  rfl

theorem execReset_spent (s : State) : execReset (s.dispatching.goto (.exec .reset)) = .next (s.spent [] []) := by
  rw [execReset_exec (s := s.dispatching.goto (.exec .reset)) rfl, goto_spent]

theorem execBaud_spent (s : State) :
    execBaud (s.dispatching.goto (.exec .baud)) = .next (s.spent [] [.serialInit 0]) := by
  rw [execBaud_exec (s := s.dispatching.goto (.exec .baud)) rfl, event_spent]

/-- Settles O56: the three commands of one turn, and the unknown opcode, which has none. -/
theorem envelopeRunsToIdle : Obligations.EnvelopeRunsToIdle := by
  intro s op hs hd ha hop
  subst hop
  refine ⟨fun h => ?_, fun h => ?_, fun h => ?_, fun h => mainRun_unknown hs hd ha h⟩
  · exact mainRun_command (e := .ident) hs hd ha (by rw [h]; rfl) (execIdent_disp1 (s := s.dispatching) rfl)
      (execIdent_spent s)
  · exact mainRun_command (e := .reset) hs hd ha (by rw [h]; rfl) (execReset_disp1 (s := s.dispatching) rfl)
      (execReset_spent s)
  · exact mainRun_command (e := .baud) hs hd ha (by rw [h]; rfl) (execBaud_disp1 (s := s.dispatching) rfl)
      (execBaud_spent s)

end Sys2Proof.Machine
end

section
/-! # What writes the Device Descriptor (R108)

Of the meanings only `$SETDEV` with a known code and the two SELECT requests write it, and no SELECT comes over the
wire. -/

namespace Sys2Proof.Machine

variable {s t : State}

/-- R110: `$SETDEV` is about to take a code byte, which is the code of `v`. -/
def State.takesCodeOf (v : Variant) (s : State) : Prop :=
  s.dstate = .exec .setdev ∧ 0 < s.occ ∧ s.opActive = true ∧ (s.cfg.descriptor v).devCode = s.ringAt s.head

theorem shared_desc (h : t.shared = s.shared) : t.desc = s.desc := by
  obtain ⟨_, _, _, _, _, _, hdesc⟩ := shared_eq h
  exact hdesc

@[simp] theorem recognize_desc (s : State) : s.recognize.desc = s.desc := by
  rcases recognize_cases s with ⟨_, _, e⟩ | ⟨_, e⟩ <;> rw [e]

/-- Whether `$SETDEV` takes a known code is read from the shared state, the controller state and the configuration. -/
theorem takesCodeOf_of_shared {v : Variant} (hu : t.shared = s.shared) (hc : t.cfg = s.cfg) (hd : t.dstate = s.dstate)
    (h : t.takesCodeOf v) : s.takesCodeOf v := by
  obtain ⟨_, hhead, _⟩ := shared_eq hu
  rwa [State.takesCodeOf, hd, hc, shared_occ hu, shared_opActive hu, shared_ringAt hu, hhead] at h

/-- A meaning keeps the descriptor, or it is `$SETDEV` taking a known code, or a SELECT request. -/
theorem exec_desc {i : Instr} (h : exec i s = .next t) :
    t.desc = s.desc ∨ (∃ v, t.desc = some v ∧ s.takesCodeOf v) ∨ i = .selectA ∨ i = .selectB := by
  cases exec_shared h with
  | setdev v _ hd ha h0 hv h => exact .inr (.inl ⟨v, shared_desc h, hd, Nat.pos_of_ne_zero h0, ha, hv⟩)
  | select v hi _ => exact .inr (.inr hi)
  | receive b _ _ _ h => exact .inl ((shared_desc h).trans (recognize_desc (s.appended b)))
  | recognize _ h => exact .inl ((shared_desc h).trans (recognize_desc s))
  | none h | push _ _ _ h | cancel _ _ _ h | take _ _ h | size _ h | clear _ h => exact .inl ((shared_desc h).trans rfl)

/-- On the wire no step runs a SELECT request (R141). -/
theorem origin_wire_ne_select {i : Instr} (hw : s.wireOnly) (ho : Origin i s) : ¬ (i = .selectA ∨ i = .selectB) := by
  rcases origin_wire hw ho with ⟨b, ok, _, _, rfl⟩ | ⟨e, _, rfl⟩
  · simp
  · cases e <;> simp [Exec.instr]

/-- On the wire a step keeps the descriptor, or `$SETDEV` takes a known code, or power comes back. -/
theorem step_desc (hw : s.wireOnly) (h : step s = .next t) :
    t.desc = s.desc ∨ (∃ v, t.desc = some v ∧ s.takesCodeOf v) ∨
      ∃ rest, s.inputs = .power :: rest ∧ t.desc = s.cfg.boot := by
  cases step_change h with
  | power rest hs h => exact .inr (.inr ⟨rest, hs, congrArg State.desc h⟩)
  | runs i u ho hx hu hc hd =>
    rcases exec_desc hx with hk | ⟨v, hv, hcode⟩ | hi
    · exact .inl (hk.trans (shared_desc hu))
    · exact .inr (.inl ⟨v, hv, takesCodeOf_of_shared hu hc hd hcode⟩)
    · exact absurd hi (origin_wire_ne_select hw ho)
  | quiet h | popped _ _ h | cleanup _ h => exact .inl ((shared_desc h).trans rfl)

/-- Settles O51: of the three things a step can do to the descriptor, one keeps it. -/
theorem descriptorChangesOnlyBySetdev : Obligations.DescriptorChangesOnlyBySetdev := by
  intro s t hw h hne
  rcases step_desc hw h with hk | ⟨v, hv, hd, h0, ha, hcode⟩ | hp
  · exact absurd hk hne
  · exact .inr ⟨hd, h0, ha, v, hv, hcode⟩
  · exact .inl hp

end Sys2Proof.Machine
end

section
/-! # The control pins with no role asserted (R120, R129) -/

namespace Sys2Proof.Machine

variable {s : State}

theorem roleOn_none (h : ∀ r, s.act r = false) (x : Roles) (p : Nat) : s.roleOn x p = none := by
  simp [State.roleOn, h]

/-- R129: a pin without an asserted role stands at its idle level. -/
theorem pinLevel_of_roleOn_none {v : Variant} {p : Nat} (hv : s.desc = some v)
    (h : s.roleOn (s.cfg.descriptor v).role p = none) : s.pinLevel p = (s.cfg.descriptor v).idle[p]? := by
  simp [State.pinLevel, descriptor_of_desc hv, h]

/-- R129: between transactions no role is asserted. -/
theorem act_idle (hb : s.bphase = .idle) (hk : s.busOk) (r : Role) : s.act r = false := by
  obtain ⟨hlatch, henable, hprogram, _⟩ := (busOk_idle hb).1 hk
  cases r
  · exact hlatch
  · exact henable
  · exact hprogram

/-- R129: between transactions every pin stands at the selected variant's idle level. -/
theorem pinLevel_idle {v : Variant} (hb : s.bphase = .idle) (hk : s.busOk) (hv : s.desc = some v) (p : Nat) :
    s.pinLevel p = (s.cfg.descriptor v).idle[p]? :=
  pinLevel_of_roleOn_none hv (roleOn_none (act_idle hb hk) _ p)

end Sys2Proof.Machine
end

section
/-! # The descriptor port and `$IDENT` (R109, R111) -/

namespace Sys2Proof.Machine

theorem exec_selectA (s : State) : exec .selectA s = .next ((s.select .A).answer .ok) := rfl

theorem exec_selectB (s : State) : exec .selectB s = .next ((s.select .B).answer .ok) := rfl

/-- R111, R69: what `$IDENT` does in its `Exec` state, for every selection. -/
theorem exec_ident_line {s : State} {sel : Option Variant} (hd : s.dstate = .exec .ident) (hsel : s.desc = sel) :
    exec .ident s = .next { s with txLog := s.txLog ++ s.cfg.identLine sel, dstate := .cleanup } := by
  subst hsel
  exact execIdent_exec hd

/-- Settles O23: the one step of `$IDENT`, at each value of the descriptor. -/
theorem identNamesTheVariant : Obligations.IdentNamesTheVariant := fun _ hd =>
  ⟨exec_ident_line hd, exec_ident_line hd, exec_ident_line hd⟩

/-- R109: a SELECT between transactions moves no role, so every pin goes to the new variant's idle level. -/
theorem pinLevel_select {s : State} (hb : s.bphase = .idle) (hk : s.busOk) (v : Variant) (p : Nat) :
    ((s.select v).answer .ok).pinLevel p = (s.cfg.descriptor v).idle[p]? :=
  pinLevel_idle (s := (s.select v).answer .ok) hb hk rfl p

/-- Settles O25: the two SELECT requests write the descriptor and the answer, and the pins follow. -/
theorem selectReplacesTheDescriptor : Obligations.SelectReplacesTheDescriptor := fun s =>
  ⟨exec_selectA s, exec_selectB s, fun hk hb p => ⟨pinLevel_select hb hk .A p, pinLevel_select hb hk .B p⟩⟩

end Sys2Proof.Machine
end

section
/-! # The engine's checks and the waits of `$WRITE` (R114 to R117) -/

namespace Sys2Proof.Machine

/-- Settles O27: the three checks and the two waits, with the flag clear. -/
theorem cancelledCheckAborts : Obligations.CancelledCheckAborts := by
  intro s ha
  refine ⟨fun hd => execRead_aborted hd ha, fun hd => execBlank_aborted hd ha, fun hd => ?_⟩
  rcases hd with hd | hd | ⟨hd, hb⟩
  · exact execWrite_aborted hd ha
  · exact execWrite_w1_aborted hd ha
  · exact execWrite_w2_aborted hd hb ha

/-- Settles O30: the check, then W1 and W2 on an empty buffer and on a popped character. -/
theorem writePopsThePair : Obligations.WritePopsThePair := by
  intro s ha
  refine ⟨fun hd => execWrite_check hd ha, fun hd ho => execWrite_w1_hold hd ha ho,
    fun hd h0 => execWrite_w1_some hd ha h0.ne', fun hd hb ho => execWrite_w2_hold hd hb ha ho,
    fun hd hb h0 hbad => ?_⟩
  refine (execWrite_w2_some hd hb ha h0.ne').trans ?_
  exact writeProgram_bad (s := s.removed) (payloadByte_none Config.nibbleOrder hbad)

end Sys2Proof.Machine
end

section
/-! # The state after a bus transaction of the engine (R127, R128) -/

namespace Sys2Proof.Machine

variable {s : State} {v : Variant}

@[simp] theorem afterRead_cfg (d : Descriptor) (s : State) : (s.afterRead d).cfg = s.cfg := by rw [afterRead_frame]

@[simp] theorem afterRead_desc (d : Descriptor) (s : State) : (s.afterRead d).desc = s.desc := by rw [afterRead_frame]

@[simp] theorem afterRead_addr (d : Descriptor) (s : State) : (s.afterRead d).addr = s.addr := by rw [afterRead_frame]

@[simp] theorem afterRead_dstate (d : Descriptor) (s : State) : (s.afterRead d).dstate = s.dstate := by
  rw [afterRead_frame]

@[simp] theorem afterRead_dev (d : Descriptor) (s : State) : (s.afterRead d).dev = s.dev := by rw [afterRead_frame]

@[simp] theorem afterRead_txLog (d : Descriptor) (s : State) : (s.afterRead d).txLog = s.txLog := by
  rw [afterRead_frame]

@[simp] theorem afterRead_wdata (d : Descriptor) (s : State) : (s.afterRead d).wdata = s.wdata := by
  rw [afterRead_frame]

@[simp] theorem afterRead_busQ (d : Descriptor) (s : State) : (s.afterRead d).busQ = s.deviceByte s.addr := by
  rw [afterRead_frame]

@[simp] theorem afterRead_contents (d : Descriptor) (s : State) : (s.afterRead d).contents = s.contents := by
  rw [afterRead_frame]; rfl

/-- A read drives the address lines itself, so it does not matter what they carried before. -/
theorem afterRead_of_lines (d : Descriptor) (lines : Addr) (s : State) :
    ({ s with busA := lines } : State).afterRead d = s.afterRead d := by
  cases hdev : s.dev <;> simp [State.afterRead, State.sample, State.deviceByte, hdev]

/-- R117: step W2 after its program transaction, but for the address lines: the second character popped, the data byte
`w` driven and given to the DEVICE. -/
def State.programmed (w : Byte) (s : State) : State :=
  { s.removed with wdata := w, busD := w, dev := s.dev.pulse s.addr w }

end Sys2Proof.Machine
end

section
/-! # An iteration of the engine at the transaction level (R113 to R117) -/

namespace Sys2Proof.Machine

variable {s : State} {v : Variant} {e : Exec}

/-- The engine stands at sub-state `e` of an iteration over the device of variant `v`: the flag set, the transaction
level, no transaction under way, the Address Counter in the device (R113, R114). -/
structure Iterating (e : Exec) (v : Variant) (s : State) : Prop where
  dstate : s.dstate = .exec e
  active : s.opActive = true
  level : s.level = .transaction
  bphase : s.bphase = .idle
  bus : s.busOk
  desc : s.desc = some v
  inDevice : s.addr.toNat < (s.cfg.descriptor v).size

/-- R115: the check of `$READ` reads the byte at the Address Counter. -/
theorem exec_read_check (h : Iterating (.read .check) v s) :
    exec .read s = readBody (s.deviceByte s.addr) (s.afterRead (s.cfg.descriptor v)) :=
  (execRead_check h.dstate h.active).trans (engineBus_read _ _ h.level h.bphase h.bus h.desc h.inDevice)

/-- R116: the check of `$BLANK` reads the byte at the Address Counter. -/
theorem exec_blank_check (h : Iterating (.blank .check) v s) :
    exec .blank s = blankBody (s.deviceByte s.addr) (s.afterRead (s.cfg.descriptor v)) :=
  (execBlank_check h.dstate h.active).trans (engineBus_read _ _ h.level h.bphase h.bus h.desc h.inDevice)

/-- R117: step W2 on a pair that decodes to `w` programs the byte at the Address Counter and reads it back. -/
theorem exec_write_w2 {w : Byte} (h : Iterating (.write .w2) v s) (h0 : s.occ ≠ 0)
    (hw : payloadByte .highFirst s.hiCh (s.ringAt s.head) = some w) :
    exec .write s =
      writeCompare ((s.programmed w).deviceByte s.addr) ((s.programmed w).afterRead (s.cfg.descriptor v)) := by
  have hprog : writeProgram (s.ringAt s.head) s.removed =
      writeVerify { s.programmed w with busA := addressLines (s.cfg.descriptor v).aw s.addr } :=
    (writeProgram_some (s := s.removed) hw).trans
      (engineBus_prog (s := { s.removed with wdata := w }) w _ _ h.level h.bphase h.bus h.desc h.inDevice)
  have hread : writeVerify { s.programmed w with busA := addressLines (s.cfg.descriptor v).aw s.addr } = _ :=
    engineBus_read _ writeCompare h.level h.bphase h.bus h.desc h.inDevice
  refine (execWrite_w2_some h.dstate h.bphase h.active h0).trans (hprog.trans (hread.trans ?_))
  rw [afterRead_of_lines]
  rfl

/-- R114: the next address and the next check. -/
def State.advanced (check : Exec) (s : State) : State := { s with addr := s.addr + 1#16, dstate := .exec check }

theorem readBody_last (q : Byte) (hv : s.desc = some v) (hl : s.addr.toNat + 1 = (s.cfg.descriptor v).size) :
    readBody q s = .next (s.ended (readChunk (s.cfg.descriptor v).size s.addr q)) := by
  rw [readBody_eq q hv, engineNext_last (s := s.emit _) _ _ hv hl]
  simp [State.ended, State.emit]

theorem readBody_more (q : Byte) (hv : s.desc = some v) (hl : s.addr.toNat + 1 ≠ (s.cfg.descriptor v).size) :
    readBody q s = .next ((s.emit (readChunk (s.cfg.descriptor v).size s.addr q)).advanced (.read .check)) := by
  rw [readBody_eq q hv]
  exact engineNext_more (s := s.emit _) _ _ hv hl

theorem blankBody_mismatch {q : Byte} (hq : q ≠ Config.ERASED) (s : State) :
    blankBody q s = .next (s.ended (fmtAV s.addr q)) := if_pos hq

theorem blankBody_last (hv : s.desc = some v) (hl : s.addr.toNat + 1 = (s.cfg.descriptor v).size) :
    blankBody Config.ERASED s = .next (s.ended Config.okLine) := engineNext_last _ _ hv hl

theorem blankBody_more (hv : s.desc = some v) (hl : s.addr.toNat + 1 ≠ (s.cfg.descriptor v).size) :
    blankBody Config.ERASED s = .next (s.advanced (.blank .check)) := engineNext_more _ _ hv hl

theorem writeCompare_mismatch {q : Byte} (hq : q ≠ s.wdata) :
    writeCompare q s = .next (s.ended (fmtAV s.addr q)) := if_pos hq

theorem writeCompare_last {q : Byte} (hq : q = s.wdata) (hv : s.desc = some v)
    (hl : s.addr.toNat + 1 = (s.cfg.descriptor v).size) : writeCompare q s = .next (s.ended Config.okLine) :=
  (if_neg (not_not.2 hq)).trans (engineNext_last _ _ hv hl)

theorem writeCompare_more {q : Byte} (hq : q = s.wdata) (hv : s.desc = some v)
    (hl : s.addr.toNat + 1 ≠ (s.cfg.descriptor v).size) :
    writeCompare q s = .next (s.advanced (.write .check)) :=
  (if_neg (not_not.2 hq)).trans (engineNext_more _ _ hv hl)

/-- A command's end right after its read. -/
theorem afterRead_ended (d : Descriptor) (str : Str) (s : State) :
    (s.afterRead d).ended str = { s.afterRead d with txLog := s.txLog ++ str, dstate := .cleanup } := by
  rw [State.ended, afterRead_txLog]

/-- The next address right after the read and its output. -/
theorem afterRead_emit_advanced (d : Descriptor) (str : Str) (check : Exec) (s : State) :
    ((s.afterRead d).emit str).advanced check =
      { s.afterRead d with txLog := s.txLog ++ str, addr := s.addr + 1#16, dstate := .exec check } := by
  simp only [State.advanced, State.emit, afterRead_txLog, afterRead_addr]

theorem afterRead_advanced (d : Descriptor) (check : Exec) (s : State) :
    (s.afterRead d).advanced check = { s.afterRead d with addr := s.addr + 1#16, dstate := .exec check } := by
  rw [State.advanced, afterRead_addr]

/-- A check of `$READ` at the last address of the device. -/
theorem exec_read_last (h : Iterating (.read .check) v s) (hl : s.addr.toNat + 1 = (s.cfg.descriptor v).size) :
    exec .read s = .next ((s.afterRead (s.cfg.descriptor v)).ended
      (readChunk (s.cfg.descriptor v).size s.addr (s.deviceByte s.addr))) := by
  rw [exec_read_check h, readBody_last _ ((afterRead_desc _ s).trans h.desc) (by simpa using hl), afterRead_cfg,
    afterRead_addr]

/-- A check of `$READ` at any other address. -/
theorem exec_read_more (h : Iterating (.read .check) v s) (hl : s.addr.toNat + 1 ≠ (s.cfg.descriptor v).size) :
    exec .read s = .next (((s.afterRead (s.cfg.descriptor v)).emit
      (readChunk (s.cfg.descriptor v).size s.addr (s.deviceByte s.addr))).advanced (.read .check)) := by
  rw [exec_read_check h, readBody_more _ ((afterRead_desc _ s).trans h.desc) (by simpa using hl), afterRead_cfg,
    afterRead_addr]

/-- Settles O28: the last address and the others. -/
theorem readIteration : Obligations.ReadIteration := by
  intro s v hd ha hl hb hk hv hin
  have h : Iterating (.read .check) v s := ⟨hd, ha, hl, hb, hk, hv, hin⟩
  by_cases hlast : s.addr.toNat + 1 = (s.cfg.descriptor v).size
  · rw [exec_read_last h hlast, afterRead_ended, if_pos hlast, if_pos hlast, readChunk]
    simp only [← afterRead_addr (s.cfg.descriptor v) s]
  · rw [exec_read_more h hlast, afterRead_emit_advanced, if_neg hlast, if_neg hlast, readChunk]

/-- A check of `$BLANK` that finds a programmed byte. -/
theorem exec_blank_mismatch (h : Iterating (.blank .check) v s) (hq : s.deviceByte s.addr ≠ Config.ERASED) :
    exec .blank s = .next ((s.afterRead (s.cfg.descriptor v)).ended (fmtAV s.addr (s.deviceByte s.addr))) := by
  rw [exec_blank_check h, blankBody_mismatch hq, afterRead_addr]

/-- A check of `$BLANK` that finds the last byte erased. -/
theorem exec_blank_last (h : Iterating (.blank .check) v s) (hq : s.deviceByte s.addr = Config.ERASED)
    (hl : s.addr.toNat + 1 = (s.cfg.descriptor v).size) :
    exec .blank s = .next ((s.afterRead (s.cfg.descriptor v)).ended Config.okLine) := by
  rw [exec_blank_check h, hq, blankBody_last ((afterRead_desc _ s).trans h.desc) (by simpa using hl)]

/-- A check of `$BLANK` that finds another byte erased. -/
theorem exec_blank_more (h : Iterating (.blank .check) v s) (hq : s.deviceByte s.addr = Config.ERASED)
    (hl : s.addr.toNat + 1 ≠ (s.cfg.descriptor v).size) :
    exec .blank s = .next ((s.afterRead (s.cfg.descriptor v)).advanced (.blank .check)) := by
  rw [exec_blank_check h, hq, blankBody_more ((afterRead_desc _ s).trans h.desc) (by simpa using hl)]

/-- Settles O29: a programmed byte, the last address, the others. -/
theorem blankIteration : Obligations.BlankIteration := by
  intro s v hd ha hl hb hk hv hin
  have h : Iterating (.blank .check) v s := ⟨hd, ha, hl, hb, hk, hv, hin⟩
  by_cases hq : s.deviceByte s.addr = 0xFF#8
  · by_cases hlast : s.addr.toNat + 1 = (s.cfg.descriptor v).size
    · rw [exec_blank_last h hq hlast, afterRead_ended, if_neg (not_not.2 hq), if_pos hlast, Config.okLine]
    · rw [exec_blank_more h hq hlast, afterRead_advanced, if_neg (not_not.2 hq), if_neg hlast, ← hd, ← afterRead_dstate]
  · rw [exec_blank_mismatch h hq, afterRead_ended, if_pos hq]

section

variable {w : Byte}

/-- Step W2 on a device that gives back another byte than the one programmed. -/
theorem exec_write_mismatch (h : Iterating (.write .w2) v s) (h0 : s.occ ≠ 0)
    (hw : payloadByte .highFirst s.hiCh (s.ringAt s.head) = some w) (hq : (s.programmed w).deviceByte s.addr ≠ w) :
    exec .write s = .next (((s.programmed w).afterRead (s.cfg.descriptor v)).ended
      (fmtAV s.addr ((s.programmed w).deviceByte s.addr))) := by
  rw [exec_write_w2 h h0 hw, writeCompare_mismatch (by rw [afterRead_wdata]; exact hq), afterRead_addr]
  rfl

/-- Step W2 on a device that gives back the byte programmed, at the last address. -/
theorem exec_write_last (h : Iterating (.write .w2) v s) (h0 : s.occ ≠ 0)
    (hw : payloadByte .highFirst s.hiCh (s.ringAt s.head) = some w) (hq : (s.programmed w).deviceByte s.addr = w)
    (hl : s.addr.toNat + 1 = (s.cfg.descriptor v).size) :
    exec .write s = .next (((s.programmed w).afterRead (s.cfg.descriptor v)).ended Config.okLine) := by
  rw [exec_write_w2 h h0 hw, hq]
  exact writeCompare_last (afterRead_wdata _ (s.programmed w)).symm ((afterRead_desc _ _).trans h.desc)
    (by rw [afterRead_addr, afterRead_cfg]; exact hl)

/-- The same at any other address. -/
theorem exec_write_more (h : Iterating (.write .w2) v s) (h0 : s.occ ≠ 0)
    (hw : payloadByte .highFirst s.hiCh (s.ringAt s.head) = some w) (hq : (s.programmed w).deviceByte s.addr = w)
    (hl : s.addr.toNat + 1 ≠ (s.cfg.descriptor v).size) :
    exec .write s = .next (((s.programmed w).afterRead (s.cfg.descriptor v)).advanced (.write .check)) := by
  rw [exec_write_w2 h h0 hw, hq]
  exact writeCompare_more (afterRead_wdata _ (s.programmed w)).symm ((afterRead_desc _ _).trans h.desc)
    (by rw [afterRead_addr, afterRead_cfg]; exact hl)

end

/-- Settles O31: a byte read back that differs, the last address, the others. -/
theorem writeProgramsAndVerifies : Obligations.WriteProgramsAndVerifies := by
  intro s v x y hd ha h0 hl hb hk hv hin hx hy
  have h : Iterating (.write .w2) v s := ⟨hd, ha, hl, hb, hk, hv, hin⟩
  have hw := payloadByte_digits .highFirst hx hy
  by_cases hq : (s.programmed (BitVec.ofNat 8 (x * 16 + y))).deviceByte s.addr = BitVec.ofNat 8 (x * 16 + y)
  · by_cases hlast : s.addr.toNat + 1 = (s.cfg.descriptor v).size
    · rw [exec_write_last h h0.ne' hw hq hlast, afterRead_ended]
      exact congrArg _ ((if_neg (not_not.2 hq)).trans (if_pos hlast)).symm
    · rw [exec_write_more h h0.ne' hw hq hlast, afterRead_advanced]
      exact congrArg _ ((if_neg (not_not.2 hq)).trans (if_neg hlast)).symm
  · rw [exec_write_mismatch h h0.ne' hw hq, afterRead_ended]
    exact congrArg _ (if_pos hq).symm

end Sys2Proof.Machine
end

section
/-! # Runs of the engine over the simulated device, MAIN alone moving (R113, R114, R167) -/

namespace Sys2Proof.Machine

variable {c : Config} {e : Exec} {v : Variant} {m : Memory} {s t : State}

/-- R12: the bounds on a device's size. -/
theorem size_bounds (h : c.wf = true) (v : Variant) : 1 ≤ (c.descriptor v).size ∧ (c.descriptor v).size ≤ 65536 := by
  simp only [Config.wf, Descriptor.wf, Bool.and_eq_true, decide_eq_true_eq] at h
  cases v <;> simp only [Config.descriptor] <;> tauto

/-- The engine at sub-state `e` of an iteration over the simulated device `m` of variant `v`, in configuration `c`, with
nothing before the controller's own step. -/
structure Running (c : Config) (e : Exec) (v : Variant) (m : Memory) (s : State) : Prop extends Iterating e v s where
  cfg : s.cfg = c
  config : c.wf = true
  noFault : s.mfault = none
  held : s.held = []
  dev : s.dev = .sim m

theorem Running.deviceByte (h : Running c e v m s) : s.deviceByte s.addr = Memory.read 0xFF#8 m s.addr.toNat :=
  deviceByte_sim h.dev s.addr

/-- A turn of MAIN inside an iteration runs the command. -/
theorem Running.mainRun_succ (h : Running c e v m s) (hx : exec e.instr s = .next t) (n : Nat) :
    mainRun (n + 1) s = mainRun n t :=
  mainRun_controllerStep ⟨h.noFault, h.bphase, h.held⟩ ((controllerStep_exec h.dstate).trans hx) n

theorem Running.afterRead (h : Running c e v m s) (d : Descriptor) : Running c e v m (s.afterRead d) := by
  rw [afterRead_frame]
  exact { h with }

theorem Running.emit (h : Running c e v m s) (str : Str) : Running c e v m (s.emit str) := { h with }

/-- R114: below the last address the next one lies in the device. -/
theorem Running.advanced_addr (h : Running c e v m s) (hl : s.addr.toNat + 1 < (c.descriptor v).size) (check : Exec) :
    (s.advanced check).addr.toNat = s.addr.toNat + 1 := by
  have hsize := (size_bounds h.config v).2
  rw [State.advanced, BitVec.toNat_add]
  exact Nat.mod_eq_of_lt (by simp; omega)

theorem Running.advanced (h : Running c e v m s) (hl : s.addr.toNat + 1 < (c.descriptor v).size) (check : Exec) :
    Running c check v m (s.advanced check) :=
  { h with
    dstate := rfl
    inDevice := by rw [h.advanced_addr hl check]; exact h.cfg ▸ hl }

/-! ## What a command's end and its next address leave -/

@[simp] theorem ended_txLog (str : Str) (s : State) : (s.ended str).txLog = s.txLog ++ str := rfl
@[simp] theorem ended_addr (str : Str) (s : State) : (s.ended str).addr = s.addr := rfl
@[simp] theorem ended_busQ (str : Str) (s : State) : (s.ended str).busQ = s.busQ := rfl
@[simp] theorem ended_dev (str : Str) (s : State) : (s.ended str).dev = s.dev := rfl
@[simp] theorem ended_desc (str : Str) (s : State) : (s.ended str).desc = s.desc := rfl
@[simp] theorem ended_contents (str : Str) (s : State) : (s.ended str).contents = s.contents := rfl
@[simp] theorem advanced_txLog (check : Exec) (s : State) : (s.advanced check).txLog = s.txLog := rfl
@[simp] theorem advanced_contents (check : Exec) (s : State) : (s.advanced check).contents = s.contents := rfl

/-! ## The entry and the scan -/

/-- R113: the first check of a command, at address 0. -/
def State.started (check : Exec) (s : State) : State := { s with addr := 0#16, dstate := .exec check }

/-- R113: the turn at a command's entry, with a variant selected. -/
theorem mainRun_entry {entry check : Exec} (hs : Session s) (hd : s.dstate = .exec entry)
    (hb : (DState.exec entry).onBus = false) (hv : s.desc = some v)
    (hx : exec entry.instr s = .next (engineEntry (.exec check) s)) (n : Nat) :
    mainRun (1 + n) s = mainRun n (s.started check) := by
  have hentry : engineEntry (.exec check) s = s.started check := by
    simp [engineEntry, hv, State.started, State.goto]
  rw [Nat.add_comm, mainRun_controllerStep (hs.controllerNext (by rw [hd, hb])) ((controllerStep_exec hd).trans hx),
    hentry]

theorem Session.started {entry : Exec} (hs : Session s) (hd : s.dstate = .exec entry)
    (hb : (DState.exec entry).onBus = false) (ha : s.opActive = true) (hl : s.level = .transaction)
    (hv : s.desc = some v) (hm : s.dev = .sim m) (check : Exec) : Running s.cfg check v m (s.started check) := by
  obtain ⟨hf, hidle, hh⟩ := hs.controllerNext (by rw [hd, hb])
  exact
    { dstate := rfl, active := ha, level := hl, bphase := hidle, bus := hs.bus, desc := hv
      inDevice := (size_bounds hs.config v).1
      cfg := rfl, config := hs.config, noFault := hf, held := hh, dev := hm }

/-- Runs of MAIN compose at a known state. -/
theorem mainRun_after {k : Nat} (h : mainRun k s = some t) (n : Nat) : mainRun (k + n) s = mainRun n t := by
  rw [mainRun_add, h]
  rfl

/-- A scan from address 0 whose iterations below address `lim` each send their part of the output and go on: after `k`
turns it stands at address `k`. -/
theorem Running.scan {lim : Nat} (hlim : lim < (c.descriptor v).size) (chunk : Nat → Str)
    (hstep : ∀ t, Running c e v m t → t.addr.toNat < lim →
      exec e.instr t = .next (((t.afterRead (c.descriptor v)).emit (chunk t.addr.toNat)).advanced e))
    (h : Running c e v m s) (h0 : s.addr.toNat = 0) (k : Nat) (hk : k ≤ lim) :
    ∃ t, mainRun k s = some t ∧ Running c e v m t ∧ t.addr.toNat = k ∧
      t.txLog = s.txLog ++ (List.range k).flatMap chunk := by
  induction k with
  | zero => exact ⟨s, rfl, h, h0, by simp⟩
  | succ k ih =>
    obtain ⟨t, hrun, ht, haddr, hlog⟩ := ih (by omega)
    have hr : Running c e v m ((t.afterRead (c.descriptor v)).emit (chunk t.addr.toNat)) := (ht.afterRead _).emit _
    have ha : ((t.afterRead (c.descriptor v)).emit (chunk t.addr.toNat)).addr.toNat = k := by simp [haddr]
    refine ⟨_, ?_, hr.advanced (by omega) e, ?_, ?_⟩
    · rw [mainRun_after hrun, ht.mainRun_succ (hstep t ht (by omega))]
      rfl
    · rw [hr.advanced_addr (by omega), ha]
    · rw [advanced_txLog, State.emit_txLog, afterRead_txLog, hlog, haddr, List.range_succ,
        List.flatMap_append, List.append_assoc, List.flatMap_singleton]

end Sys2Proof.Machine
end

section
/-! # `$READ` and `$BLANK` over the whole device (R115, R116, R118, R167) -/

namespace Sys2Proof.Machine

variable {c : Config} {v : Variant} {m : Memory} {s : State}

/-- R115: what `$READ` sends for address `k` of the simulated device. -/
def deviceChunk (size : Nat) (m : Memory) (k : Nat) : Str :=
  readChunk size (BitVec.ofNat 16 k) (Memory.read 0xFF#8 m k)

theorem Running.readChunk (h : Running c e v m s) (size : Nat) :
    Machine.readChunk size s.addr (s.deviceByte s.addr) = deviceChunk size m s.addr.toNat := by
  rw [h.deviceByte, deviceChunk, BitVec.ofNat_toNat, BitVec.setWidth_eq]

theorem Running.exec_read_more (h : Running c (.read .check) v m s) (hl : s.addr.toNat + 1 < (c.descriptor v).size) :
    exec .read s = .next (((s.afterRead (c.descriptor v)).emit
      (deviceChunk (c.descriptor v).size m s.addr.toNat)).advanced (.read .check)) := by
  rw [← h.cfg] at hl ⊢
  rw [Machine.exec_read_more h.toIterating hl.ne, h.readChunk]

/-- The turn of `$READ` at the last address. -/
theorem Running.exec_read_last (h : Running c (.read .check) v m s) (hl : s.addr.toNat + 1 = (c.descriptor v).size) :
    exec .read s = .next ((s.afterRead (c.descriptor v)).ended
      (deviceChunk (c.descriptor v).size m s.addr.toNat)) := by
  rw [← h.cfg] at hl ⊢
  rw [Machine.exec_read_last h.toIterating hl, h.readChunk]

/-- Settles O58: the scan up to the last address, and the turn there. -/
theorem readEmitsTheDevice : Obligations.ReadEmitsTheDevice := by
  intro s v m hs hd ha hl hv hm
  obtain ⟨n, hn⟩ : ∃ n, (s.cfg.descriptor v).size = n + 1 :=
    Nat.exists_eq_add_of_le' (size_bounds hs.config v).1
  have h0 : Running s.cfg (.read .check) v m (s.started (.read .check)) := hs.started hd rfl ha hl hv hm _
  obtain ⟨t, hrun, ht, haddr, hlog⟩ := h0.scan (by omega) (deviceChunk (s.cfg.descriptor v).size m)
    (fun u hu hlt => hu.exec_read_more (by omega)) rfl n le_rfl
  have hlast := ht.exec_read_last (by omega)
  rw [mainRun_entry hs hd rfl hv (execRead_entry hd), show (s.cfg.descriptor v).size = n + 1 from hn,
    mainRun_after hrun, ht.mainRun_succ hlast]
  refine ⟨_, rfl, rfl, by rw [ended_addr, afterRead_addr, haddr], by rw [ended_dev, afterRead_dev, ht.dev],
    by rw [ended_desc, afterRead_desc, ht.desc], ?_⟩
  rw [ended_txLog, afterRead_txLog, hlog, haddr, hn, List.range_succ, List.flatMap_append, List.flatMap_singleton,
    List.append_assoc]
  rfl

/-- The turn of `$BLANK` at an erased byte below the last address. -/
theorem Running.exec_blank_more (h : Running c (.blank .check) v m s) (hl : s.addr.toNat + 1 < (c.descriptor v).size)
    (hq : Memory.read 0xFF#8 m s.addr.toNat = 0xFF#8) :
    exec .blank s = .next (((s.afterRead (c.descriptor v)).emit []).advanced (.blank .check)) := by
  rw [← h.cfg] at hl ⊢
  rw [Machine.exec_blank_more h.toIterating (h.deviceByte.trans hq) hl.ne, State.emit_nil]

/-- `$BLANK` with erased bytes below address `k` comes to it in `1 + k` turns and has sent nothing. -/
theorem blank_reaches (hs : Session s) (hd : s.dstate = .exec (.blank .entry)) (ha : s.opActive = true)
    (hl : s.level = .transaction) (hv : s.desc = some v) (hm : s.dev = .sim m) {k : Nat}
    (hk : k < (s.cfg.descriptor v).size) (herased : ∀ j < k, Memory.read 0xFF#8 m j = 0xFF#8) :
    ∃ t, mainRun (1 + k) s = some t ∧ Running s.cfg (.blank .check) v m t ∧ t.addr.toNat = k ∧ t.txLog = s.txLog := by
  have h0 : Running s.cfg (.blank .check) v m (s.started (.blank .check)) := hs.started hd rfl ha hl hv hm _
  obtain ⟨t, hrun, ht, haddr, hlog⟩ := h0.scan hk (fun _ => [])
    (fun u hu hlt => hu.exec_blank_more (by omega) (herased _ hlt)) rfl k le_rfl
  refine ⟨t, ?_, ht, haddr, by rw [hlog, List.flatMap_eq_nil_iff.2 fun _ _ => rfl, List.append_nil]; rfl⟩
  rw [mainRun_entry hs hd rfl hv (execBlank_entry hd), hrun]

/-- Settles O59: in both cases the scan comes to the deciding address, and the turn there gives the verdict. -/
theorem blankCheckVerdict : Obligations.BlankCheckVerdict := by
  intro s v m hs hd ha hl hv hm
  refine ⟨fun herased => ?_, fun k hk herased hbad => ?_⟩
  · obtain ⟨n, hn⟩ : ∃ n, (s.cfg.descriptor v).size = n + 1 :=
      Nat.exists_eq_add_of_le' (size_bounds hs.config v).1
    obtain ⟨t, hrun, ht, haddr, hlog⟩ := blank_reaches hs hd ha hl hv hm (k := n) (by omega)
      (fun j hj => herased j (by omega))
    have hq : t.deviceByte t.addr = Config.ERASED := ht.deviceByte.trans (herased _ (by omega))
    have hx := exec_blank_last ht.toIterating hq (by rw [ht.cfg, haddr, hn])
    rw [hn, ← Nat.add_assoc, mainRun_after hrun, ht.mainRun_succ hx]
    exact ⟨_, rfl, rfl, by rw [ended_txLog, afterRead_txLog, hlog, Config.okLine]⟩
  · obtain ⟨t, hrun, ht, haddr, hlog⟩ := blank_reaches hs hd ha hl hv hm hk herased
    have hbyte : t.deviceByte t.addr = Memory.read 0xFF#8 m k := by rw [ht.deviceByte, haddr]
    have hx := exec_blank_mismatch ht.toIterating (by rw [hbyte]; exact hbad)
    rw [show 2 + k = (1 + k) + 1 by omega, mainRun_after hrun, ht.mainRun_succ hx]
    refine ⟨_, rfl, rfl, by rw [ended_addr, afterRead_addr, haddr], by rw [ended_busQ, afterRead_busQ, hbyte], ?_⟩
    rw [ended_txLog, afterRead_txLog, hlog, hbyte, ← haddr, BitVec.ofNat_toNat, BitVec.setWidth_eq]

end Sys2Proof.Machine
end

section
/-! # `$WRITE` over the whole device (R117, R118, R167) -/

namespace Sys2Proof.Machine

variable {c : Config} {e : Exec} {v : Variant} {m : Memory} {s t : State} {c0 c1 w : Byte} {rest : Str}

/-- R43: a buffer whose contents begin with a byte has that byte at its head. -/
theorem contents_head (h : s.contents = c0 :: rest) :
    s.occ ≠ 0 ∧ s.ringAt s.head = c0 ∧ s.removed.contents = rest := by
  have h0 : s.occ ≠ 0 := by rw [← contents_length, h]; exact Nat.succ_ne_zero _
  rw [contents_removed h0, List.cons.injEq] at h
  exact ⟨h0, h⟩

/-- R117: at step W2, with the first character popped into `hiCh`. -/
def State.atW2 (s : State) : State := { s.removed with hiCh := s.ringAt s.head, dstate := .exec (.write .w2) }

theorem Running.atW2 (h : Running c e v m s) : Running c (.write .w2) v m s.atW2 := { h with dstate := rfl }

theorem Running.programmed (h : Running c e v m s) (w : Byte) :
    Running c e v (Memory.write 0xFF#8 m s.addr.toNat w) (s.programmed w) :=
  { h with dev := congrArg (Device.pulse s.addr w) h.dev }

/-- R44: the simulated device gives back the byte programmed. -/
theorem Running.programmed_deviceByte (h : Running c e v m s) (hm : Memory.wf 0xFF#8 m = true) (w : Byte) :
    (s.programmed w).deviceByte s.addr = w :=
  (h.programmed w).deviceByte.trans ((Memory.read_write hm _ _ w).trans (if_pos rfl))

/-- R117: from a check with a character in the buffer, two turns of MAIN come to step W2. -/
theorem Running.mainRun_atW2 (h : Running c (.write .check) v m s) (h0 : s.occ ≠ 0) (n : Nat) :
    mainRun (n + 2) s = mainRun n s.atW2 := by
  have hw1 : Running c (.write .w1) v m (s.goto (.exec (.write .w1))) := { h with dstate := rfl }
  rw [h.mainRun_succ (execWrite_check h.dstate h.active),
    hw1.mainRun_succ (execWrite_w1_some (s := s.goto (.exec (.write .w1))) rfl h.active h0)]
  rfl

/-- R117: a pair waiting in the buffer is at step W2 the popped character and the one at the head. -/
theorem atW2_pair (hc : s.contents = c0 :: c1 :: rest) :
    s.atW2.occ ≠ 0 ∧ payloadByte .highFirst s.atW2.hiCh (s.atW2.ringAt s.atW2.head) = payloadByte .highFirst c0 c1 ∧
      s.atW2.removed.contents = rest := by
  obtain ⟨_, hc0, hrest⟩ := contents_head hc
  obtain ⟨h1, hc1, hrest⟩ := contents_head (s := s.atW2) hrest
  exact ⟨h1, congrArg₂ (payloadByte .highFirst) hc0 hc1, hrest⟩

/-- R117: the state in which step W2 compares the byte read back, on a device that gives back what was programmed. -/
def State.readBack (d : Descriptor) (w : Byte) (s : State) : State := (s.atW2.programmed w).afterRead d

theorem Running.readBack (h : Running c e v m s) (d : Descriptor) (w : Byte) :
    Running c (.write .w2) v (Memory.write 0xFF#8 m s.addr.toNat w) (s.readBack d w) :=
  (h.atW2.programmed w).afterRead d

theorem readBack_addr (d : Descriptor) (w : Byte) (s : State) : (s.readBack d w).addr = s.addr := afterRead_addr d _

theorem readBack_txLog (d : Descriptor) (w : Byte) (s : State) : (s.readBack d w).txLog = s.txLog :=
  afterRead_txLog d _

theorem readBack_contents (d : Descriptor) (w : Byte) (hc : s.contents = c0 :: c1 :: rest) :
    (s.readBack d w).contents = rest :=
  (afterRead_contents d _).trans (atW2_pair hc).2.2

section

variable (h : Running c (.write .check) v m s) (hm : Memory.wf 0xFF#8 m = true)
  (hc : s.contents = c0 :: c1 :: rest) (hw : payloadByte .highFirst c0 c1 = some w)

include h hm hc hw

/-- One iteration of `$WRITE` below the last address: three turns. -/
theorem Running.mainRun_pair (hl : s.addr.toNat + 1 < (c.descriptor v).size) :
    mainRun 3 s = some ((s.readBack (c.descriptor v) w).advanced (.write .check)) := by
  obtain ⟨h0, _⟩ := contents_head hc
  obtain ⟨h1, hpair, _⟩ := atW2_pair hc
  rw [← h.cfg] at hl ⊢
  rw [h.mainRun_atW2 h0, h.atW2.mainRun_succ (exec_write_more h.atW2.toIterating h1 (hpair.trans hw)
    (h.atW2.programmed_deviceByte hm w) hl.ne)]
  rfl

/-- The iteration at the last address. -/
theorem Running.mainRun_lastPair (hl : s.addr.toNat + 1 = (c.descriptor v).size) :
    mainRun 3 s = some ((s.readBack (c.descriptor v) w).ended Config.okLine) := by
  obtain ⟨h0, _⟩ := contents_head hc
  obtain ⟨h1, hpair, _⟩ := atW2_pair hc
  rw [← h.cfg] at hl ⊢
  rw [h.mainRun_atW2 h0, h.atW2.mainRun_succ (exec_write_last h.atW2.toIterating h1 (hpair.trans hw)
    (h.atW2.programmed_deviceByte hm w) hl)]
  rfl

end

/-- R63: the characters of the payload of a list of pairs. -/
def payload (pairs : List (Byte × Byte)) : Str := pairs.flatMap fun p => [p.1, p.2]

/-- The device's first `k` bytes are those of the first `k` pairs. -/
def Stored (pairs : List (Byte × Byte)) (m : Memory) (k : Nat) : Prop :=
  ∀ (i : Nat) (h : i < pairs.length), i < k →
    payloadByte .highFirst pairs[i].1 pairs[i].2 = some (Memory.read 0xFF#8 m i)

theorem Stored.write {pairs : List (Byte × Byte)} {k : Nat} (h : Stored pairs m k) (hm : Memory.wf 0xFF#8 m = true)
    (hk : k < pairs.length) (hw : payloadByte .highFirst pairs[k].1 pairs[k].2 = some w) :
    Stored pairs (Memory.write 0xFF#8 m k w) (k + 1) := by
  intro i hi hik
  rw [Memory.read_write hm]
  rcases Nat.lt_succ_iff_lt_or_eq.1 hik with hlt | rfl
  · rw [if_neg hlt.ne', h i hi hlt]
  · rw [if_pos rfl, hw]

/-- Two hex digits decode to a byte (R63). -/
theorem payloadByte_exists (h0 : hexval c0 ≠ none) (h1 : hexval c1 ≠ none) :
    ∃ w, payloadByte .highFirst c0 c1 = some w := by
  obtain ⟨x, hx⟩ := Option.ne_none_iff_exists'.1 h0
  obtain ⟨y, hy⟩ := Option.ne_none_iff_exists'.1 h1
  exact ⟨_, payloadByte_digits .highFirst hx hy⟩

theorem payload_drop {pairs : List (Byte × Byte)} {k : Nat} (hk : k < pairs.length) :
    payload (pairs.drop k) = pairs[k].1 :: pairs[k].2 :: payload (pairs.drop (k + 1)) := by
  rw [List.drop_eq_getElem_cons hk]
  rfl

/-- `$WRITE` at a check with the first `k` pairs written: nothing sent, the rest of the payload in the buffer. -/
structure Written (c : Config) (v : Variant) (pairs : List (Byte × Byte)) (rest log : Str) (k : Nat) (m : Memory)
    (s : State) : Prop extends Running c (.write .check) v m s where
  memory : Memory.wf 0xFF#8 m = true
  addr : s.addr.toNat = k
  log : s.txLog = log
  contents : s.contents = payload (pairs.drop k) ++ rest
  stored : Stored pairs m k

/-- What waits in the buffer at address `k`: its pair first. -/
theorem Written.contents_pair {pairs : List (Byte × Byte)} {log : Str} {k : Nat}
    (h : Written c v pairs rest log k m s) (hk : k < pairs.length) :
    s.contents = pairs[k].1 :: pairs[k].2 :: (payload (pairs.drop (k + 1)) ++ rest) := by
  rw [h.contents, payload_drop hk]
  rfl

/-- Three turns write the next pair. -/
theorem Written.next {pairs : List (Byte × Byte)} {log : Str} {k : Nat} (h : Written c v pairs rest log k m s)
    (hk : k < pairs.length) (hw : payloadByte .highFirst pairs[k].1 pairs[k].2 = some w)
    (hl : k + 1 < (c.descriptor v).size) :
    ∃ t, mainRun 3 s = some t ∧ Written c v pairs rest log (k + 1) (Memory.write 0xFF#8 m k w) t := by
  have hr := h.toRunning.readBack (c.descriptor v) w
  have ha : (s.readBack (c.descriptor v) w).addr.toNat = k := by rw [readBack_addr, h.addr]
  rw [h.addr] at hr
  refine ⟨_, h.toRunning.mainRun_pair h.memory (h.contents_pair hk) hw (by rw [h.addr]; exact hl), ?_⟩
  exact
    { hr.advanced (by rw [ha]; exact hl) (.write .check) with
      memory := Memory.wf_write h.memory k w
      addr := by rw [hr.advanced_addr (by rw [ha]; exact hl), ha]
      log := by rw [advanced_txLog, readBack_txLog, h.log]
      contents := by rw [advanced_contents, readBack_contents _ _ (h.contents_pair hk)]
      stored := h.stored.write h.memory hk hw }

/-- `k` pairs take `3 k` turns. -/
theorem Written.run {pairs : List (Byte × Byte)} {log : Str} (h : Written c v pairs rest log 0 m s)
    (hlen : pairs.length = (c.descriptor v).size) (hhex : ∀ p ∈ pairs, hexval p.1 ≠ none ∧ hexval p.2 ≠ none)
    (k : Nat) (hk : k < pairs.length) :
    ∃ t m', mainRun (3 * k) s = some t ∧ Written c v pairs rest log k m' t := by
  induction k with
  | zero => exact ⟨s, m, rfl, h⟩
  | succ k ih =>
    obtain ⟨t, m', hrun, ht⟩ := ih (by omega)
    obtain ⟨h0, h1⟩ := hhex pairs[k] (List.getElem_mem _)
    obtain ⟨w, hw⟩ := payloadByte_exists h0 h1
    obtain ⟨u, hu, hwritten⟩ := ht.next (by omega) hw (by omega)
    exact ⟨u, _, (mainRun_after hrun 3).trans hu, hwritten⟩

/-- Settles O60: all pairs but the last, and the iteration at the last address. -/
theorem writeRoundTrip : Obligations.WriteRoundTrip := by
  intro s v m pairs rest hs hd ha hl hv hm hlen hhex hc
  obtain ⟨n, hn⟩ : ∃ n, (s.cfg.descriptor v).size = n + 1 :=
    Nat.exists_eq_add_of_le' (size_bounds hs.config v).1
  have hwf : Memory.wf 0xFF#8 m = true := by
    obtain ⟨_, _, hdev⟩ := hs.memory
    rwa [hm] at hdev
  have h0 : Written s.cfg v pairs rest s.txLog 0 m (s.started (.write .check)) :=
    { hs.started hd rfl ha hl hv hm (.write .check) with
      memory := hwf, addr := rfl, log := rfl, contents := hc, stored := fun _ _ hi => absurd hi (Nat.not_lt_zero _) }
  have hlast : n < pairs.length := by omega
  obtain ⟨t, m', hrun, ht⟩ := h0.run hlen hhex n hlast
  obtain ⟨hx, hy⟩ := hhex pairs[n] (List.getElem_mem _)
  obtain ⟨w, hw⟩ := payloadByte_exists hx hy
  have hend := ht.toRunning.mainRun_lastPair ht.memory (ht.contents_pair hlast) hw (by rw [ht.addr, hn])
  have hr := ht.toRunning.readBack (s.cfg.descriptor v) w
  rw [ht.addr] at hr
  rw [mainRun_entry hs hd rfl hv (execWrite_entry hd), hn, Nat.mul_succ, mainRun_after hrun, hend]
  refine ⟨_, _, rfl, rfl, ?_, ?_, hr.dev, fun k hk => ht.stored.write ht.memory hlast hw k hk (by omega)⟩
  · rw [ended_txLog, readBack_txLog, ht.log, Config.okLine]
  · rw [ended_contents, readBack_contents _ _ (ht.contents_pair hlast), List.drop_eq_nil_of_le (by omega)]
    rfl

end Sys2Proof.Machine
end

section
/-! # The signal level: the phases of a transaction, each as long as it takes (R122, R124)

At the signal level a transaction is a run of MAIN's turns with time between them. Its actions look neither at the
level, the controller state and the phase nor at the clock, so their effects add up to those of the transaction level. -/

namespace Sys2Proof.Machine

variable {s : State} {t : Txn} {l : ModelLevel} {d : DState} {p : BPhase} {n : Nat}

/-- The state with the elements in which the two levels differ during a transaction: the level, the controller state,
the bus phase and the time. -/
def State.scheduled (l : ModelLevel) (d : DState) (p : BPhase) (n : Nat) (s : State) : State :=
  { s with level := l, dstate := d, bphase := p, now := n }

theorem scheduled_of_idle (l : ModelLevel) (hb : s.bphase = .idle) :
    s.scheduled l s.dstate .idle s.now = { s with level := l } := by rw [← hb]; rfl

theorem scheduled_self (hl : s.level = l) (hb : s.bphase = .idle) : s.scheduled l s.dstate .idle s.now = s := by
  rw [scheduled_of_idle l hb, ← hl]

/-- R121: an action neither sees nor changes those elements. -/
theorem perform_scheduled (t : Txn) (s : State) (a : BusAction) :
    perform t (s.scheduled l d p n) a = (perform t s a).scheduled l d p n := by
  cases a with
  | role r on => cases r <;> cases on <;> rfl
  | sample => cases hdev : s.dev <;> simp [perform, State.sample, State.scheduled, State.deviceByte, hdev]
  | _ => rfl

theorem performAll_scheduled (t : Txn) (as : List BusAction) (s : State) :
    performAll t as (s.scheduled l d p n) = (performAll t as s).scheduled l d p n := by
  induction as generalizing s with
  | nil => rfl
  | cons a as ih => exact (congrArg (performAll t as) (perform_scheduled t s a)).trans (ih _)

/-- The actions of some phases of transaction `t`, in order. -/
def performPhases (t : Txn) (ps : List PhaseStep) (s : State) : State :=
  ps.foldl (fun s ph => performAll t ph.actions s) s

theorem performPhases_cons (t : Txn) (ph : PhaseStep) (ps : List PhaseStep) (s : State) :
    performPhases t (ph :: ps) s = performPhases t ps (performAll t ph.actions s) := rfl

theorem performPhases_scheduled (t : Txn) (ps : List PhaseStep) (s : State) :
    performPhases t ps (s.scheduled l d p n) = (performPhases t ps s).scheduled l d p n := by
  induction ps generalizing s with
  | nil => rfl
  | cons ph ps ih => rw [performPhases_cons, performAll_scheduled, ih, performPhases_cons]

theorem runTxn_eq_phases (t : Txn) (s : State) :
    runTxn t s = performAll t (endActions t) (performPhases t (seq (t.descriptor s) t) s) := rfl

theorem runTxn_scheduled (t : Txn) (s : State) :
    runTxn t (s.scheduled l d p n) = (runTxn t s).scheduled l d p n := by
  rw [runTxn_eq_phases, performPhases_scheduled, performAll_scheduled]
  rfl

theorem performAll_cfg (t : Txn) (as : List BusAction) (s : State) : (performAll t as s).cfg = s.cfg := by
  rw [performAll_frame]; rfl

theorem performAll_mfault (t : Txn) (as : List BusAction) (s : State) : (performAll t as s).mfault = s.mfault := by
  rw [performAll_frame]; rfl

/-! ## The sequence -/

/-- R123: no phase comes twice in a transaction. -/
theorem seq_nodup (d : Descriptor) (t : Txn) : ((seq d t).map PhaseStep.phase).Nodup := by
  rcases t with ⟨v, k, a, b⟩
  cases k <;> simp [seq, latchPhases]

/-- R121: each phase of a sequence has the hold of the variant's table. -/
theorem seq_hold (d : Descriptor) (t : Txn) : ∀ ph ∈ seq d t, ph.hold = d.hold.of ph.phase := by
  rcases t with ⟨v, k, a, b⟩
  cases k <;> simp [seq, latchPhases]

theorem seq_cons (d : Descriptor) (t : Txn) : ∃ ph rest, seq d t = ph :: rest := by
  rcases t with ⟨v, k, a, b⟩
  cases k <;> exact ⟨_, _, rfl⟩

theorem phasesAfter_append {pre rest : List PhaseStep} {ph : PhaseStep}
    (h : ((pre ++ ph :: rest).map PhaseStep.phase).Nodup) : phasesAfter ph.phase (pre ++ ph :: rest) = rest := by
  induction pre with
  | nil => exact if_pos rfl
  | cons x pre ih =>
    rw [List.cons_append, List.map_cons, List.nodup_cons] at h
    obtain ⟨hx, htail⟩ := h
    have hne : x.phase ≠ ph.phase := fun e => hx (by rw [e]; simp)
    exact (if_neg hne).trans (ih htail)

/-- R121, R123: what comes after a phase of a sequence, and its hold. -/
theorem phase_of_seq {x : Descriptor} {pre rest : List PhaseStep} {ph : PhaseStep}
    (h : seq x t = pre ++ ph :: rest) : phasesAfter ph.phase (seq x t) = rest ∧ ph.hold = x.hold.of ph.phase := by
  refine ⟨?_, seq_hold x t ph (by rw [h]; simp)⟩
  rw [h]
  exact phasesAfter_append (h ▸ seq_nodup x t)

/-! ## The run -/

/-- The durations `times` are not below the holds of the phases `ps`. -/
abbrev LongEnough (ps : List PhaseStep) (times : List Nat) : Prop :=
  List.Forall₂ (fun (ph : PhaseStep) dt => ph.hold ≤ dt) ps times

theorem endTxn_scheduled (t : Txn) (s : State) :
    endTxn t (s.scheduled l d p n) = endTxn t (s.scheduled l d .idle n) := by
  simp only [endTxn, performAll_scheduled]
  rfl

section

variable {q : Phase} {dt : Nat} (hf : s.mfault = none) (hd : (t.descriptor s).hold.of q ≤ dt) (ds : List Nat)

include hf hd

/-- R124: a phase that began at time `n` goes over to the next at its end. -/
theorem timedRun_nextPhase {ph : PhaseStep} {rest : List PhaseStep}
    (hp : phasesAfter q (seq (t.descriptor s) t) = ph :: rest) :
    timedRun (dt :: ds) (s.scheduled l d (.active t q n) n) =
      timedRun ds ((performAll t ph.actions s).scheduled l d (.active t ph.phase (n + dt)) (n + dt)) := by
  have hnext := advanceTxn_next (s := s.scheduled l d (.active t q n) n) dt hd hp
  rw [timedRun_active (s := s.scheduled l d (.active t q n) n) dt ds hf rfl]
  refine congrArg (timedRun ds) (hnext.trans ?_)
  exact congrArg (fun x : State => { x with bphase := .active t ph.phase (n + dt) })
    (performAll_scheduled (p := .active t q n) t ph.actions s)

/-- R124: the last phase ends the transaction. -/
theorem timedRun_lastPhase (hp : phasesAfter q (seq (t.descriptor s) t) = []) :
    timedRun (dt :: ds) (s.scheduled l d (.active t q n) n) =
      timedRun ds (endTxn t (s.scheduled l d .idle (n + dt))) := by
  have hend := advanceTxn_end (s := s.scheduled l d (.active t q n) n) dt hd hp
  rw [timedRun_active (s := s.scheduled l d (.active t q n) n) dt ds hf rfl]
  exact congrArg (timedRun ds) (hend.trans (endTxn_scheduled (p := .active t q n) t s))

end

/-- R122, R124: a transaction in the phase that began at time `n` ends after the rest of its phases, at the sum of the
durations. -/
theorem timedRun_phases {pre rest : List PhaseStep} {ph : PhaseStep} {dt : Nat} {ds : List Nat}
    (hseq : seq (t.descriptor s) t = pre ++ ph :: rest) (hf : s.mfault = none) (hd : ph.hold ≤ dt)
    (hds : LongEnough rest ds) :
    timedRun (dt :: ds) (s.scheduled l d (.active t ph.phase n) n) =
      some (endTxn t ((performPhases t rest s).scheduled l d .idle (n + (dt :: ds).sum))) := by
  induction hds generalizing s pre ph dt n with
  | nil =>
    obtain ⟨hafter, hhold⟩ := phase_of_seq hseq
    rw [timedRun_lastPhase hf (hhold ▸ hd) [] hafter]
    rfl
  | @cons ph' dt' rest ds hd' _ ih =>
    obtain ⟨hafter, hhold⟩ := phase_of_seq hseq
    have hdesc : t.descriptor (performAll t ph'.actions s) = t.descriptor s :=
      congrArg (Config.descriptor · t.v) (performAll_cfg t ph'.actions s)
    rw [timedRun_nextPhase hf (hhold ▸ hd) _ hafter,
      ih (pre := pre ++ [ph]) (by rw [hdesc, hseq, List.append_assoc]; rfl)
        ((performAll_mfault t ph'.actions s).trans hf) hd',
      ← performPhases_cons, List.sum_cons, List.sum_cons, List.sum_cons, Nat.add_assoc]

/-- R124: a transaction that begins ends after its phases, at the sum of the durations. -/
theorem timedRun_beginTxn {times : List Nat} (hf : s.mfault = none)
    (htimes : LongEnough (seq (t.descriptor s) t) times) :
    timedRun times (beginTxn t s) =
      some (endTxn t ((performPhases t (seq (t.descriptor s) t) s).scheduled s.level s.dstate .idle
        (s.now + times.sum))) := by
  obtain ⟨ph, rest, hseq⟩ := seq_cons (t.descriptor s) t
  have hbegin : beginTxn t s =
      (performAll t ph.actions s).scheduled s.level s.dstate (.active t ph.phase s.now) s.now := by
    have hact := performAll_scheduled (l := s.level) (d := s.dstate) (p := s.bphase) (n := s.now) t ph.actions s
    simp only [beginTxn, hseq]
    exact congrArg (fun x : State => { x with bphase := .active t ph.phase s.now }) hact
  have hdesc : t.descriptor (performAll t ph.actions s) = t.descriptor s :=
    congrArg (Config.descriptor · t.v) (performAll_cfg t ph.actions s)
  rw [hseq] at htimes
  cases htimes with
  | cons hd hds =>
    rw [hbegin, timedRun_phases (pre := []) (by rw [hdesc, hseq]; rfl)
      ((performAll_mfault t ph.actions s).trans hf) hd hds, hseq, performPhases_cons]

/-- R124: a transaction the controller waits for leaves its value in `busQ` and nothing in `result`. -/
theorem endTxn_waiting {w : DState} (hw : w.onBus = true) (t : Txn) (s : State) :
    endTxn t (s.scheduled l w .idle n) = (performAll t (endActions t) s).scheduled l w .idle n := by
  rw [endTxn, performAll_scheduled]
  exact if_pos hw

/-- R124: what the controller waits for ends as the whole transaction at the transaction level does, but for the
time. -/
theorem timedRun_waiting {w : DState} {times : List Nat} (hw : w.onBus = true) (hf : s.mfault = none)
    (htimes : LongEnough (seq (t.descriptor s) t) times) :
    timedRun times ((beginTxn t s).goto w) =
      some ((runTxn t s).scheduled s.level w .idle (s.now + times.sum)) := by
  have hbegin : (beginTxn t s).goto w = beginTxn t (s.goto w) := by rw [beginTxn_eq, beginTxn_eq]; rfl
  have hphases := performPhases_scheduled (l := s.level) (d := w) (p := s.bphase) (n := s.now) t
    (seq (t.descriptor s) t) s
  rw [hbegin, timedRun_beginTxn (s := s.goto w) hf htimes, runTxn_eq_phases, ← endTxn_waiting hw]
  exact (congrArg (fun x : State => some (endTxn t (x.scheduled s.level w .idle (s.now + times.sum)))) hphases :)

end Sys2Proof.Machine
end

section
/-! # The signal level refines the transaction level in the engine's steps (R9, R115, R117, R124) -/

namespace Sys2Proof.Machine

variable {s u : State} {v : Variant} {c : Byte → State → Result} {l l' : ModelLevel} {d d' w : DState}
  {p : BPhase} {n n' : Nat}

theorem runTxn_cfg (t : Txn) (s : State) : (runTxn t s).cfg = s.cfg := by rw [runTxn_frame]; rfl

theorem runTxn_desc (t : Txn) (s : State) : (runTxn t s).desc = s.desc := by rw [runTxn_frame]; rfl

theorem runTxn_addr (t : Txn) (s : State) : (runTxn t s).addr = s.addr := by rw [runTxn_frame]; rfl

theorem runTxn_mfault (t : Txn) (s : State) : (runTxn t s).mfault = s.mfault := by rw [runTxn_frame]; rfl

theorem runTxn_held (t : Txn) (s : State) : (runTxn t s).held = s.held := by rw [runTxn_frame]; rfl

/-! ## What the engine does with a byte read depends neither on the level nor on the time -/

/-- What follows an engine's transaction sees nothing of the level, the waiting sub-state and the time, and leaves the
level and the time. -/
def Timeless (f : State → Result) : Prop :=
  ∀ (s u : State) (l l' : ModelLevel) (d d' : DState) (p : BPhase) (n n' : Nat),
    f (s.scheduled l d p n) = .next u → f (s.scheduled l' d' p n') = .next { u with level := l', now := n' }

theorem engineNext_timeless (check : DState) (last : Str) : Timeless (engineNext check last) := by
  intro s u l l' d d' p n n' h
  rcases engineNext_cases check last (s.scheduled l d p n) with ⟨_, e⟩ | ⟨v, hv, hl, e⟩ | ⟨v, hv, hl, e⟩ <;>
    rw [e] at h <;> cases h
  · exact engineNext_last (s := s.scheduled l' d' p n') check last hv hl
  · exact engineNext_more (s := s.scheduled l' d' p n') check last hv hl

theorem ended_timeless (str : Str) : Timeless fun s => .next (s.ended str) := by
  intro s u l l' d d' p n n' h
  cases h
  rfl

theorem readBody_timeless (q : Byte) : Timeless (readBody q) := by
  intro s u l l' d d' p n n' h
  cases hv : s.desc with
  | none =>
    have hnone : readBody q (s.scheduled l d p n) = .refused .busPrecondition := by
      simp [readBody, State.descriptor, State.scheduled, hv]
    rw [hnone] at h
    cases h
  | some v =>
    rw [readBody_eq (s := s.scheduled l d p n) q hv] at h
    rw [readBody_eq (s := s.scheduled l' d' p n') q hv]
    exact engineNext_timeless _ _ (s.emit (readChunk (s.cfg.descriptor v).size s.addr q)) u l l' d d' p n n' h

theorem blankBody_timeless (q : Byte) : Timeless (blankBody q) := by
  intro s u l l' d d' p n n' h
  by_cases hq : q = Config.ERASED
  · subst hq
    exact engineNext_timeless _ _ s u l l' d d' p n n' h
  · rw [blankBody_mismatch hq] at h ⊢
    exact ended_timeless _ s u l l' d d' p n n' h

theorem writeCompare_timeless (q : Byte) : Timeless (writeCompare q) := by
  intro s u l l' d d' p n n' h
  by_cases hq : q = s.wdata
  · have hnext : ∀ l d n, writeCompare q (s.scheduled l d p n) =
        engineNext (.exec (.write .check)) Config.okLine (s.scheduled l d p n) := fun _ _ _ => if_neg (not_not.2 hq)
    rw [hnext] at h ⊢
    exact engineNext_timeless _ _ s u l l' d d' p n n' h
  · rw [writeCompare_mismatch (s := s.scheduled l d p n) hq] at h
    rw [writeCompare_mismatch (s := s.scheduled l' d' p n') hq]
    exact ended_timeless _ s u l l' d d' p n n' h

/-! ## One transaction of the engine, and MAIN's turn after it -/

/-- An engine step that answers a next state at the transaction level has run its transaction. -/
theorem engineBus_runs {k : TxnKind} {b : Byte} (hv : s.desc = some v)
    (h : engineBus k b w c (s.scheduled .transaction d .idle n) = .next u) :
    s.txn k s.addr b = some ⟨v, k, s.addr, b⟩ ∧
      c (runTxn ⟨v, k, s.addr, b⟩ s).busQ ((runTxn ⟨v, k, s.addr, b⟩ s).scheduled .transaction d .idle n) =
        .next u := by
  rcases engineBus_cases k b w c (s.scheduled .transaction d .idle n) with
    ⟨_, e⟩ | ⟨_, _, hb, _⟩ | ⟨t, ht, _, _, e⟩ | ⟨_, _, _, hl, _⟩
  · rw [e] at h; cases h
  · exact absurd rfl hb
  · obtain ⟨v', hv', hin, rfl⟩ := (txn_eq_some_iff s k s.addr b t).1 ht
    obtain rfl : v' = v := Option.some.inj (hv'.symm.trans hv)
    rw [e, runTxn_scheduled] at h
    exact ⟨ht, h⟩
  · cases hl

/-- At the signal level the transaction that the transaction level has run is begun and waited for, and after times not
below its holds it is over in the same state, but for the time. -/
theorem engineBus_refines {k : TxnKind} {b : Byte} {times : List Nat} (hv : s.desc = some v) (hf : s.mfault = none)
    (hw : w.onBus = true) (h : engineBus k b w c (s.scheduled .transaction d .idle n) = .next u)
    (htimes : LongEnough (seq (s.cfg.descriptor v) ⟨v, k, s.addr, b⟩) times) :
    ∃ begun, engineBus k b w c (s.scheduled .signal d' .idle n') = .next begun ∧
      timedRun times begun = some ((runTxn ⟨v, k, s.addr, b⟩ s).scheduled .signal w .idle (n' + times.sum)) := by
  obtain ⟨ht, _⟩ := engineBus_runs hv h
  refine ⟨_, engineBus_begin (s := s.scheduled .signal d' .idle n') w c ht rfl rfl, ?_⟩
  rw [timedRun_waiting (s := s.scheduled .signal d' .idle n') hw hf htimes, runTxn_scheduled]
  rfl

/-- What MAIN's turn gives after a transaction that the controller has waited for. -/
theorem mainRun_waited {e : Exec} {r : State} (hf : s.mfault = none) (hh : s.held = [])
    (hx : exec e.instr (s.scheduled .signal (.exec e) .idle n) = .next r) :
    mainRun 1 (s.scheduled .signal (.exec e) .idle n) = some r :=
  mainRun_controllerStep (s := s.scheduled .signal (.exec e) .idle n) ⟨hf, rfl, hh⟩
    ((controllerStep_exec rfl).trans hx) 0

/-- R115, R117: a step that ends with a transaction: begun, waited for, and ended by MAIN's next turn as the transaction
level ends it. -/
theorem engineBus_refines_end {k : TxnKind} {b : Byte} {times : List Nat} {e : Exec} (hc : ∀ q, Timeless (c q))
    (hv : s.desc = some v) (hf : s.mfault = none) (hh : s.held = []) (hw : (DState.exec e).onBus = true)
    (hbus : ∀ x : State, x.dstate = .exec e → exec e.instr x = afterBus c x)
    (h : engineBus k b (.exec e) c (s.scheduled .transaction d .idle n) = .next u)
    (htimes : LongEnough (seq (s.cfg.descriptor v) ⟨v, k, s.addr, b⟩) times) :
    ∃ begun finished, engineBus k b (.exec e) c (s.scheduled .signal d' .idle n') = .next begun ∧
      timedRun times begun = some finished ∧
      mainRun 1 finished = some { u with level := .signal, now := n' + times.sum } := by
  obtain ⟨begun, hbegun, hover⟩ := engineBus_refines (d' := d') (n' := n') hv hf hw h htimes
  obtain ⟨_, hend⟩ := engineBus_runs hv h
  refine ⟨begun, _, hbegun, hover, mainRun_waited ((runTxn_mfault _ s).trans hf) ((runTxn_held _ s).trans hh) ?_⟩
  rw [hbus _ rfl, afterBus_idle c rfl]
  exact hc _ _ _ _ _ _ _ _ _ _ hend

/-! ## The scan and the write -/

/-- Settles O40: both checks read the Address Counter and go on after the read. -/
theorem signalLevelRefinesTheScan : Obligations.SignalLevelRefinesTheScan := by
  intro s u v i times hi hl hf hb _ hh ha hv hu htimes
  rw [← scheduled_of_idle .transaction hb] at hu
  rw [← scheduled_self hl hb]
  simp only [List.mem_cons, Prod.mk.injEq, List.not_mem_nil, or_false] at hi
  rcases hi with ⟨rfl, hd⟩ | ⟨rfl, hd⟩
  · have hcheck : ∀ l n, exec .read (s.scheduled l s.dstate .idle n) = _ := fun l n => execRead_check hd ha
    rw [hcheck] at hu ⊢
    exact engineBus_refines_end (e := .read .bus) readBody_timeless hv hf hh rfl (fun x => execRead_bus) hu htimes
  · have hcheck : ∀ l n, exec .blank (s.scheduled l s.dstate .idle n) = _ := fun l n => execBlank_check hd ha
    rw [hcheck] at hu ⊢
    exact engineBus_refines_end (e := .blank .bus) blankBody_timeless hv hf hh rfl (fun x => execBlank_bus) hu htimes

/-- R117: after the program transaction MAIN begins the verify read, and its end ends the step. -/
theorem writeVerify_refines {times : List Nat} (hv : s.desc = some v) (hf : s.mfault = none) (hh : s.held = [])
    (h : writeVerify (s.scheduled .transaction d .idle n) = .next u)
    (htimes : LongEnough (seq (s.cfg.descriptor v) ⟨v, .read, s.addr, 0#8⟩) times) :
    ∃ begun finished, mainRun 1 (s.scheduled .signal (.exec (.write .prog)) .idle n') = some begun ∧
      timedRun times begun = some finished ∧
      mainRun 1 finished = some { u with level := .signal, now := n' + times.sum } := by
  obtain ⟨begun, finished, hbegun, hrun, hend⟩ := engineBus_refines_end (e := .write .verify)
    (d' := .exec (.write .prog)) (n' := n') writeCompare_timeless hv hf hh rfl (fun x => execWrite_verify) h htimes
  refine ⟨begun, finished, mainRun_waited hf hh (Eq.trans ?_ hbegun), hrun, hend⟩
  exact (execWrite_prog (s := s.scheduled _ _ _ _) rfl).trans (afterBus_idle (s := s.scheduled _ _ _ _) _ rfl)

/-- R117: step W2 with its pair popped and decoded. -/
def State.decoded (b : Byte) (s : State) : State := { s.removed with wdata := b }

/-- R117: step W2 on a pair that decodes begins with its program transaction, at either level. -/
theorem exec_write_w2_scheduled {b : Byte} (hd : s.dstate = .exec (.write .w2)) (ha : s.opActive = true)
    (h0 : s.occ ≠ 0) (hb : payloadByte .highFirst s.hiCh (s.ringAt s.head) = some b) (l : ModelLevel) :
    exec .write (s.scheduled l s.dstate .idle s.now) =
      engineBus .prog b (.exec (.write .prog)) (fun _ => writeVerify)
        ((s.decoded b).scheduled l s.dstate .idle s.now) :=
  (execWrite_w2_some (s := s.scheduled l s.dstate .idle s.now) hd rfl ha h0).trans
    (writeProgram_some (s := (s.scheduled l s.dstate .idle s.now).removed) hb)

/-- Settles O41: the program transaction and the verify read, one after the other. -/
theorem signalLevelRefinesTheWrite : Obligations.SignalLevelRefinesTheWrite := by
  intro s u v b progTimes readTimes hd hl hf hb _ hh ha h0 hv hpair hu hprog hread
  rw [← scheduled_of_idle .transaction hb, exec_write_w2_scheduled hd ha h0.ne' hpair] at hu
  rw [← scheduled_self hl hb, exec_write_w2_scheduled hd ha h0.ne' hpair]
  have hv' : (s.decoded b).desc = some v := hv
  obtain ⟨begun, hbegun, hover⟩ := engineBus_refines (d' := s.dstate) (n' := s.now) hv' hf rfl hu hprog
  obtain ⟨_, hverify⟩ := engineBus_runs hv' hu
  obtain ⟨f, g, hf', hg, hend⟩ := writeVerify_refines (n' := s.now + progTimes.sum) (times := readTimes)
    ((runTxn_desc _ _).trans hv') ((runTxn_mfault _ _).trans hf) ((runTxn_held _ _).trans hh) hverify
    (by rw [runTxn_cfg, runTxn_addr]; exact hread)
  exact ⟨begun, _, f, g, hbegun, hover, hf', hg, hend⟩

end Sys2Proof.Machine
end

section
/-! # The signal level refines the transaction level in the bus port's requests (R9, R124, R126 to R128) -/

namespace Sys2Proof.Machine

variable {s u : State} {v : Variant}

/-- R124: a transaction the controller does not wait for leaves its value in the `result` of the request's caller. -/
theorem endTxn_requested {l : ModelLevel} {d : DState} {n : Nat} (hd : d.onBus = false) (t : Txn) (s : State) :
    endTxn t (s.scheduled l d .idle n) =
      ((performAll t (endActions t) s).answer (t.answer (performAll t (endActions t) s).busQ)).scheduled l d .idle n := by
  rw [endTxn, performAll_scheduled]
  exact if_neg (Bool.eq_false_iff.1 hd)

/-- R124: a port request ends as the whole transaction at the transaction level does, but for the time. -/
theorem timedRun_requested {t : Txn} {times : List Nat} (hd : s.dstate.onBus = false) (hf : s.mfault = none)
    (htimes : LongEnough (seq (t.descriptor s) t) times) :
    timedRun times (beginTxn t s) =
      some (((runTxn t s).answer (t.answer (runTxn t s).busQ)).scheduled s.level s.dstate .idle
        (s.now + times.sum)) := by
  rw [timedRun_beginTxn hf htimes, endTxn_requested hd, runTxn_eq_phases]

/-- A port request that answers a next state on an idle bus at the transaction level has run its transaction. -/
theorem portBus_runs {i : Instr} {k : TxnKind} {a : Addr} {b : Byte} (hl : s.level = .transaction)
    (hb : s.bphase = .idle) (h : portBus i k a b s = .next u) :
    ∃ t, s.txn k a b = some t ∧ u = (runTxn t s).answer (t.answer (runTxn t s).busQ) := by
  rcases portBus_cases i k a b s with ⟨_, e⟩ | ⟨_, _, hb', _⟩ | ⟨t, ht, _, _, e⟩ | ⟨_, _, _, hl', _⟩
  · rw [e] at h; cases h
  · exact absurd hb hb'
  · rw [e] at h
    cases h
    exact ⟨t, ht, rfl⟩
  · rw [hl] at hl'; cases hl'

/-- At the signal level the transaction that the transaction level has run is begun, and after times not below its
holds it is over in the same state, but for the time. -/
theorem portBus_refines {i : Instr} {k : TxnKind} {a : Addr} {b : Byte} {times : List Nat} (hl : s.level = .signal)
    (hf : s.mfault = none) (hb : s.bphase = .idle) (hd : s.dstate.onBus = false) (hv : s.desc = some v)
    (h : portBus i k a b { s with level := .transaction } = .next u)
    (htimes : LongEnough (seq (s.cfg.descriptor v) ⟨v, k, a, b⟩) times) :
    ∃ begun, portBus i k a b s = .next begun ∧
      timedRun times begun = some { u with level := .signal, now := s.now + times.sum } := by
  rw [← scheduled_of_idle .transaction hb] at h
  obtain ⟨t, ht, rfl⟩ := portBus_runs (s := s.scheduled .transaction s.dstate .idle s.now) rfl rfl h
  obtain ⟨v', hv', _, rfl⟩ := (txn_eq_some_iff s k a b t).1 ht
  obtain rfl : v' = v := Option.some.inj (hv'.symm.trans hv)
  refine ⟨_, portBus_begin i ht hb hl, ?_⟩
  rw [timedRun_requested hd hf htimes, runTxn_scheduled, hl]
  rfl

/-- Settles O39: each of the three requests is its transaction issued on the bus port. -/
theorem signalLevelRefinesTransactions : Obligations.SignalLevelRefinesTransactions := by
  intro s u v i k a b times hi hl hf hb _ _ hd hv hu htimes
  simp only [List.mem_cons, Prod.mk.injEq, List.not_mem_nil, or_false] at hi
  rcases hi with ⟨rfl, rfl⟩ | ⟨rfl, rfl⟩ | ⟨rfl, rfl⟩
  · exact portBus_refines hl hf hb hd hv hu htimes
  · exact portBus_refines hl hf hb hd hv hu htimes
  · exact portBus_refines hl hf hb hd hv hu htimes

end Sys2Proof.Machine
end

section
/-! # The bus port at the transaction level, and the phases of its transactions (R121, R123, R126 to R128) -/

namespace Sys2Proof.Machine

/-- Settles O34: each request runs its transaction, which from an idle bus leaves the lines as R126 to R128 say. -/
theorem busTransactions : Obligations.BusTransactions := by
  intro s v a hl hb hk hv ha
  refine ⟨?_, ?_, fun d => ?_⟩
  · have hrun : execBusLatch a s = _ := portBus_run _ (txn_of_lt .latch 0x00#8 hv ha) hb hl
    rw [runTxn_latch_idle hb hk] at hrun
    exact hrun
  · have hrun : execBusRead a s = _ := portBus_run _ (txn_of_lt .read 0x00#8 hv ha) hb hl
    rw [runTxn_read_idle hb hk] at hrun
    rw [← sample_busQ s a]
    exact hrun
  · have hrun : execBusProg a d s = _ := portBus_run _ (txn_of_lt .prog d hv ha) hb hl
    rw [runTxn_prog_idle hb hk] at hrun
    exact hrun

/-- Settles O36: the address latch pulse, and after it the pulse of ENABLE or of PROGRAM. -/
theorem phaseSequences : Obligations.PhaseSequences := fun _ _ _ _ => ⟨rfl, rfl, rfl⟩

end Sys2Proof.Machine
end

section
/-! # Where a transaction stands, and the DEVICE (R44, R122)

A meaning moves on no transaction that is under way: a request finds the bus busy and waits. And only a program
transaction gives the DEVICE anything, so of the meanings only `BUS.PROG` and `$WRITE` can. -/

namespace Sys2Proof.Machine

variable {s t u : State}

/-- From `s` to `t` the DEVICE has been given nothing, and a transaction under way in `s` stands where it stood. -/
def BusKept (s t : State) : Prop :=
  t.dev = s.dev ∧ (s.bphase ≠ .idle → t.bphase = s.bphase)

theorem BusKept.refl (s : State) : BusKept s s := ⟨rfl, fun _ => rfl⟩

theorem BusKept.trans (h : BusKept s u) (h' : BusKept u t) : BusKept s t := by
  obtain ⟨hdev, hphase⟩ := h
  obtain ⟨hdev', hphase'⟩ := h'
  refine ⟨hdev'.trans hdev, fun hb => ?_⟩
  have hu := hphase hb
  exact (hphase' (hu ▸ hb)).trans hu

/-- The next state of the outcome, if it has one, has property `P`. -/
def Yields (P : State → Prop) : Result → Prop
  | .next t => P t
  | .fault _ => True
  | .refused _ => True

theorem Yields.of_next {P : State → Prop} {r : Result} (h : Yields P r) (hr : r = .next t) : P t := by
  rwa [hr] at h

theorem Yields.mono {P Q : State → Prop} (hPQ : ∀ t, P t → Q t) {r : Result} (h : Yields P r) : Yields Q r := by
  cases r with
  | next t => exact hPQ t h
  | fault | refused => trivial

/-! ## The transactions -/

theorem runTxn_busKept {x : Txn} (hx : x.kind ≠ .prog) (s : State) : BusKept s (runTxn x s) := by
  rcases x with ⟨v, k, a, d⟩
  cases k with
  | latch => exact ⟨rfl, fun _ => rfl⟩
  | read => rw [runTxn_read, sample_frame]; exact ⟨rfl, fun _ => rfl⟩
  | prog => exact absurd rfl hx

theorem beginTxn_busKept (x : Txn) (hb : s.bphase = .idle) : BusKept s (beginTxn x s) := by
  rw [beginTxn_eq]
  exact ⟨rfl, absurd hb⟩

theorem txn_kind {k : TxnKind} {a : Addr} {d : Byte} {x : Txn} (h : s.txn k a d = some x) : x.kind = k := by
  obtain ⟨_, _, _, rfl⟩ := (txn_eq_some_iff s k a d x).1 h
  rfl

theorem portBus_busKept (i : Instr) {k : TxnKind} (hk : k ≠ .prog) (a : Addr) (d : Byte) (s : State) :
    Yields (BusKept s) (portBus i k a d s) := by
  rcases portBus_cases i k a d s with ⟨_, e⟩ | ⟨_, _, _, e⟩ | ⟨x, hx, _, _, e⟩ | ⟨x, _, hb, _, e⟩ <;> rw [e]
  · trivial
  · exact .refl s
  · exact runTxn_busKept (txn_kind hx ▸ hk) s
  · exact beginTxn_busKept x hb

/-- A step of the engine with a transaction that programs nothing keeps what its continuation keeps. -/
theorem engineBus_busKept {k : TxnKind} (hk : k ≠ .prog) (d : Byte) (w : DState) {c : Byte → State → Result}
    (hc : ∀ q v, BusKept s v → Yields (BusKept s) (c q v)) (hu : BusKept s u) :
    Yields (BusKept s) (engineBus k d w c u) := by
  rcases engineBus_cases k d w c u with ⟨_, e⟩ | ⟨_, _, _, e⟩ | ⟨x, hx, _, _, e⟩ | ⟨x, _, hb, _, e⟩ <;> rw [e]
  · trivial
  · exact hu
  · exact hc _ _ (hu.trans (runTxn_busKept (txn_kind hx ▸ hk) u))
  · exact hu.trans (beginTxn_busKept x hb)

theorem afterBus_busKept {c : Byte → State → Result} (hc : ∀ q v, BusKept s v → Yields (BusKept s) (c q v))
    (hu : BusKept s u) : Yields (BusKept s) (afterBus c u) := by
  unfold afterBus
  split
  · exact hu
  · exact hc _ _ hu

/-! ## The engine -/

theorem engineEntry_busKept (c : DState) (s : State) : BusKept s (engineEntry c s) := by
  rcases engineEntry_cases c s with ⟨_, e⟩ | ⟨_, _, e⟩ <;> rw [e] <;> exact .refl s

theorem engineNext_busKept (c : DState) (l : Str) (hu : BusKept s u) : Yields (BusKept s) (engineNext c l u) := by
  rcases engineNext_cases c l u with ⟨_, e⟩ | ⟨_, _, _, e⟩ | ⟨_, _, _, e⟩ <;> rw [e]
  · trivial
  · exact hu
  · exact hu

theorem readBody_busKept (q : Byte) (hu : BusKept s u) : Yields (BusKept s) (readBody q u) := by
  unfold readBody
  split
  · trivial
  · exact engineNext_busKept _ _ hu

theorem blankBody_busKept (q : Byte) (hu : BusKept s u) : Yields (BusKept s) (blankBody q u) := by
  unfold blankBody
  split
  · exact hu
  · exact engineNext_busKept _ _ hu

theorem writeCompare_busKept (q : Byte) (hu : BusKept s u) : Yields (BusKept s) (writeCompare q u) := by
  unfold writeCompare
  split
  · exact hu
  · exact engineNext_busKept _ _ hu

theorem writeVerify_busKept (hu : BusKept s u) : Yields (BusKept s) (writeVerify u) :=
  engineBus_busKept (by decide) _ _ (fun q _ => writeCompare_busKept q) hu

theorem execRead_busKept (s : State) : Yields (BusKept s) (execRead s) := by
  unfold execRead
  split
  · exact .refl s
  · exact engineEntry_busKept _ s
  · split
    · exact .refl s
    · exact engineBus_busKept (by decide) _ _ (fun q _ => readBody_busKept q) (.refl s)
  · exact afterBus_busKept (fun q _ => readBody_busKept q) (.refl s)
  · trivial

theorem execBlank_busKept (s : State) : Yields (BusKept s) (execBlank s) := by
  unfold execBlank
  split
  · exact .refl s
  · exact engineEntry_busKept _ s
  · split
    · exact .refl s
    · exact engineBus_busKept (by decide) _ _ (fun q _ => blankBody_busKept q) (.refl s)
  · exact afterBus_busKept (fun q _ => blankBody_busKept q) (.refl s)
  · trivial

/-! ## The other meanings -/

theorem execSetdev_busKept (s : State) : Yields (BusKept s) (execSetdev s) := by
  unfold execSetdev
  split
  · exact .refl s
  · rcases popw_cases s with ⟨_, e⟩ | ⟨_, _, e⟩ | ⟨_, _, e⟩ <;> simp only [e]
    · exact .refl s
    · exact .refl s
    · rcases setDevice_cases (s.ringAt s.head) s.removed with ⟨_, _, _, e⟩ | ⟨_, _, e⟩ <;> rw [e] <;> exact .refl s
  · trivial

theorem execIdent_busKept (s : State) : Yields (BusKept s) (execIdent s) := by
  unfold execIdent
  split
  · exact .refl s
  · exact .refl s
  · trivial

theorem execReset_busKept (s : State) : Yields (BusKept s) (execReset s) := by
  unfold execReset
  split
  · exact .refl s
  · exact .refl s
  · trivial

theorem execBaud_busKept (s : State) : Yields (BusKept s) (execBaud s) := by
  unfold execBaud
  split
  · exact .refl s
  · exact .refl s
  · trivial

theorem execUnknownOpcode_busKept (op : Byte) (s : State) : Yields (BusKept s) (execUnknownOpcode op s) := by
  unfold execUnknownOpcode
  split
  · exact .refl s
  · trivial

theorem recognize_busKept (s : State) : BusKept s s.recognize := by
  rcases recognize_cases s with ⟨_, _, e⟩ | ⟨_, e⟩ <;> rw [e] <;> exact .refl s

theorem receive_busKept (b : Byte) (ok : Bool) (s : State) : BusKept s (s.receive b ok) := by
  rcases receive_cases s b ok with ⟨_, e⟩ | ⟨_, _, e⟩ | ⟨_, _, _, e⟩ | ⟨_, _, _, e⟩ <;> rw [e]
  · exact .refl s
  · exact .refl s
  · exact .refl s
  · exact recognize_busKept (s.appended b)

/-- No meaning but `BUS.PROG` and `$WRITE` gives the DEVICE anything, and none of the others moves on a transaction
under way. -/
theorem exec_busKept {i : Instr} (hp : ∀ a d, i ≠ .busProg a d) (hw : i ≠ .write) (s : State) :
    Yields (BusKept s) (exec i s) := by
  cases i with
  | read => exact execRead_busKept s
  | blank => exact execBlank_busKept s
  | setdev => exact execSetdev_busKept s
  | ident => exact execIdent_busKept s
  | reset => exact execReset_busKept s
  | baud => exact execBaud_busKept s
  | unknownOpcode op => exact execUnknownOpcode_busKept op s
  | recv b ok => exact receive_busKept b ok s
  | recognize => exact recognize_busKept s
  | push b =>
    rcases push_cases s b with ⟨_, e⟩ | ⟨_, e⟩ <;> simp only [exec, execPush, e] <;> exact .refl s
  | pop =>
    rcases pop_cases s with ⟨_, e⟩ | ⟨_, e⟩ <;> simp only [exec, execPop, e] <;> exact .refl s
  | popw =>
    rcases popw_cases s with ⟨_, e⟩ | ⟨_, _, e⟩ | ⟨_, _, e⟩ <;> simp only [exec, execPopw, e] <;> exact .refl s
  | clear => simp only [exec, execClear, clear_eq]; exact .refl s
  | busLatch a => exact portBus_busKept _ (by decide) a _ s
  | busRead a => exact portBus_busKept _ (by decide) a _ s
  | peek | size | selectA | selectB => exact .refl s
  | reservedFifoPort | reservedBusPort | reservedSelect0 | reservedSelect3 => trivial
  | busProg a d => exact absurd rfl (hp a d)
  | write => exact absurd rfl hw

end Sys2Proof.Machine
end

section
/-! # The minimum holds (R122, R165) -/

namespace Sys2Proof.Machine

variable {s u : State} {t : Txn} {p : Phase} {t0 : Nat}

/-- R122: while the hold of its phase has not elapsed MAIN's turn changes nothing. -/
theorem mainTurn_before_hold (hb : s.bphase = .active t p t0) (hn : s.now < t0 + (s.cfg.descriptor t.v).hold.of p) :
    mainTurn s = .next s := by
  rw [mainTurn_active hb]
  exact congrArg _ (if_pos hn)

/-- R74 to R76: a port request issued during a transaction waits if it is MAIN's own, and no other request's meaning
moves the transaction on. -/
theorem portStep_busKept (q : PortWord) (hb : s.bphase ≠ .idle) : Yields (BusKept s) (portStep q s) := by
  rcases portStep_cases q s with ⟨_, _, e⟩ | ⟨_, _, _, _, e⟩ | ⟨i, hi, hfree, e⟩ <;> rw [e]
  · trivial
  · exact .refl s
  · obtain ⟨_, _, hcommand⟩ := decodePort_kind hi
    have hmain : issuedByMain i = false := hfree.resolve_right fun hm => hb ((mainBusy_eq_false_iff s).1 hm).left
    refine exec_busKept (fun a d hprog => ?_) (hcommand (.write .entry)) s
    rw [hprog] at hmain
    cases hmain

/-- R122, R124: during a transaction no input but MAIN's turn and the loss of power moves it on. -/
theorem inputStep_busKept {i : Input} (hb : s.bphase ≠ .idle) (hm : i ≠ .main) (hp : i ≠ .power) :
    Yields (BusKept s) (inputStep i s) := by
  cases i with
  | recv b ok => exact receive_busKept b ok s
  | port q => exact portStep_busKept q hb
  | tick dt => exact .refl s
  | main => exact absurd rfl hm
  | power => exact absurd rfl hp

/-- What a step that loses no power is during a transaction: MAIN's turn, with no input left or with its own taken, or
an input of another agent's that does not move the transaction on. -/
theorem step_active_cases (hb : s.bphase ≠ .idle) (hp : ∀ rest, s.inputs ≠ .power :: rest) (h : step s = .next u) :
    (s.inputs = [] ∧ mainTurn s = .next u) ∨
    (∃ rest, s.inputs = .main :: rest ∧ mainTurn { s with inputs := rest } = .next u) ∨
    (∃ i rest, s.inputs = i :: rest ∧ i ≠ .main ∧ u.bphase = s.bphase) := by
  rcases step_cases s with ⟨_, _, e⟩ | ⟨_, hi, e⟩ | ⟨i, rest, _, hi, e⟩ <;> rw [e] at h
  · cases h
  · exact .inl ⟨hi, h⟩
  · by_cases hm : i = .main
    · subst hm
      exact .inr (.inl ⟨rest, hi, h⟩)
    · have hpower : i ≠ .power := fun e => hp rest (e ▸ hi)
      obtain ⟨_, hphase⟩ := (inputStep_busKept (s := { s with inputs := rest }) hb hm hpower).of_next h
      exact .inr (.inr ⟨i, rest, hi, hm, hphase hb⟩)

/-- R122: MAIN's turn leaves a phase only once its hold has elapsed, and before that changes nothing. -/
theorem mainTurn_waits (hb : s.bphase = .active t p t0) (h : mainTurn s = .next u) :
    (u.bphase ≠ s.bphase → t0 + (s.cfg.descriptor t.v).hold.of p ≤ s.now) ∧
    (s.now < t0 + (s.cfg.descriptor t.v).hold.of p → u = s) := by
  have hsame : s.now < t0 + (s.cfg.descriptor t.v).hold.of p → u = s := fun hn => by
    rw [mainTurn_before_hold hb hn] at h
    cases h
    rfl
  exact ⟨fun hne => Nat.le_of_not_lt fun hn => hne (congrArg State.bphase (hsame hn)), hsame⟩

/-- Settles O38: a step during a transaction is MAIN's turn, which waits for the hold, or leaves the phase as it is. -/
theorem holdsAreMinimums : Obligations.HoldsAreMinimums := by
  intro s u t p t0 hb hp h
  have hbusy : s.bphase ≠ .idle := by rw [hb]; exact BPhase.noConfusion
  rcases step_active_cases hbusy hp h with ⟨hi, hm⟩ | ⟨rest, hi, hm⟩ | ⟨i, rest, hi, hne, hphase⟩
  · obtain ⟨hleft, hsame⟩ := mainTurn_waits hb hm
    refine ⟨fun hu => ⟨hleft hu, .inl hi⟩, fun hn => ⟨fun _ => hsame hn, fun rest hi' => ?_⟩⟩
    rw [hi] at hi'
    cases hi'
  · obtain ⟨hleft, hsame⟩ := mainTurn_waits (s := { s with inputs := rest }) hb hm
    refine ⟨fun hu => ⟨hleft hu, .inr ⟨rest, hi⟩⟩, fun hn => ⟨fun hi' => ?_, fun rest' hi' => ?_⟩⟩ <;> rw [hi] at hi'
    · cases hi'
    · cases hi'
      exact hsame hn
  · refine ⟨absurd hphase, fun _ => ⟨fun hi' => ?_, fun rest' hi' => ?_⟩⟩ <;> rw [hi] at hi' <;> cases hi'
    exact absurd rfl hne

end Sys2Proof.Machine
end

section
/-! # The bytes of the simulated device (R44, R128) -/

namespace Sys2Proof.Machine

variable {s t u : State}

/-- From `s` to `t` the DEVICE is as it was, or it has been given one byte at the Address Counter of `s`. -/
def ProgramsAtMost (s t : State) : Prop :=
  t.dev = s.dev ∨ ∃ d, t.dev = s.dev.pulse s.addr d

theorem Yields.programsAtMost {r : Result} (h : Yields (BusKept s) r) : Yields (ProgramsAtMost s) r :=
  h.mono fun _ hk => .inl hk.left

theorem runTxn_prog_dev (v : Variant) (a : Addr) (d : Byte) (s : State) :
    (runTxn ⟨v, .prog, a, d⟩ s).dev = s.dev.pulse a d := by rw [runTxn_prog]

/-- R117: a pair that decodes is programmed, at once or by the transaction begun, and the verify read after it gives
the DEVICE nothing. -/
theorem writeProgram_programsAtMost (c : Byte) (s : State) : Yields (ProgramsAtMost s) (writeProgram c s) := by
  cases hd : payloadByte Config.nibbleOrder s.hiCh c with
  | none => rw [writeProgram_bad hd]; exact .inl rfl
  | some d =>
    rw [writeProgram_some hd]
    rcases engineBus_cases .prog d (.exec (.write .prog)) (fun _ => writeVerify) { s with wdata := d } with
      ⟨_, e⟩ | ⟨_, _, _, e⟩ | ⟨x, hx, _, _, e⟩ | ⟨x, _, _, _, e⟩ <;> rw [e]
    · trivial
    · exact .inl rfl
    · obtain ⟨v, _, _, rfl⟩ := (txn_eq_some_iff ..).1 hx
      exact (writeVerify_busKept (.refl _)).mono fun _ hk => .inr ⟨d, hk.left.trans (runTxn_prog_dev ..)⟩
    · rw [beginTxn_eq]; exact .inl rfl

/-- R117: of the states of `$WRITE` only step W2 programs. -/
theorem execWrite_programsAtMost (s : State) : Yields (ProgramsAtMost s) (execWrite s) := by
  unfold execWrite
  split
  · exact .inl rfl
  · exact .inl (engineEntry_busKept _ s).left
  · split <;> exact .inl rfl
  · rcases popw_cases s with ⟨_, e⟩ | ⟨_, _, e⟩ | ⟨_, _, e⟩ <;> simp only [writeW1, e] <;> exact .inl rfl
  · split
    · exact .inl rfl
    · rcases popw_cases s with ⟨_, e⟩ | ⟨_, _, e⟩ | ⟨_, _, e⟩ <;> simp only [writeW2, e]
      · exact .inl rfl
      · exact .inl rfl
      · exact writeProgram_programsAtMost (s.ringAt s.head) s.removed
  · exact (afterBus_busKept (fun _ _ => writeVerify_busKept) (.refl s)).programsAtMost
  · exact (afterBus_busKept (fun q _ => writeCompare_busKept q) (.refl s)).programsAtMost
  · trivial

/-- R128: `BUS.PROG` on an idle bus at the transaction level gives the DEVICE its byte. -/
theorem execBusProg_dev {a : Addr} {d : Byte} (hl : s.level = .transaction) (hb : s.bphase = .idle)
    (h : execBusProg a d s = .next t) : t.dev = s.dev.pulse a d := by
  obtain ⟨x, hx, rfl⟩ := portBus_runs hl hb h
  obtain ⟨v, _, _, rfl⟩ := (txn_eq_some_iff s .prog a d x).1 hx
  exact runTxn_prog_dev v a d s

theorem memoryOk_sim {m : Memory} (hm : s.memoryOk) (hs : s.dev = .sim m) : Memory.wf Config.ERASED m = true := by
  obtain ⟨_, _, hdev⟩ := hm
  rwa [hs] at hdev

/-- R44: a program pulse stores its byte in the simulated device and leaves every other. -/
theorem pulse_sim_read {m : Memory} (hm : Memory.wf Config.ERASED m = true) (a : Addr) (d : Byte) :
    ∃ m', (Device.sim m).pulse a d = .sim m' ∧
      ∀ k, Memory.read Config.ERASED m' k = if k = a.toNat then d else Memory.read Config.ERASED m k := by
  refine ⟨_, rfl, fun k => ?_⟩
  rw [Memory.read_write hm]
  exact if_congr eq_comm rfl rfl

/-- Settles O42: no pulse, the pulse of `BUS.PROG`, and at most one of `$WRITE`. -/
theorem bytesOfTheSimulatedDevice : Obligations.BytesOfTheSimulatedDevice := by
  intro s t i hm h
  refine ⟨fun hp hw => ((exec_busKept hp hw s).of_next h).left, ?_, ?_⟩
  · rintro a d m rfl hl hb hs
    rw [execBusProg_dev hl hb h, hs]
    exact pulse_sim_read (memoryOk_sim hm hs) a d
  · rintro m rfl hs
    rcases (execWrite_programsAtMost s).of_next h with hk | ⟨d, hk⟩ <;> rw [hk, hs]
    · exact ⟨m, rfl, fun _ _ => rfl⟩
    · obtain ⟨m', hm', hread⟩ := pulse_sim_read (memoryOk_sim hm hs) s.addr d
      exact ⟨m', hm', fun k hk => (hread k).trans (if_neg hk)⟩

end Sys2Proof.Machine
end

section
/-! # Flow control and the byte stores over a step (R82, R23, R44)

Each elementary effect keeps both, so a chain of them does (Laws/Effects); after a loss of power they are new. -/

namespace Sys2Proof.Machine

variable {s t : State}

/-- R82: an effect that moves an index evaluates flow control, and no other effect touches what it depends on. -/
theorem Effect.flowOk (h : Effect s t) (hs : s.flowOk) : t.flowOk := by
  induction h with
  | append _ b h0 => exact appended_flowOk b h0
  | remove _ h0 => exact removed_flowOk h0
  | clear s => exact cleared_flowOk s
  | evaluate s => exact flowControl_ok s
  | bus s x a => rw [perform_frame]; exact hs
  | chain _ _ _ _ _ ih ih' => exact ih' (ih hs)
  | same | control | emit | event | phase => exact hs

theorem pulse_memoryOk (a : Addr) (b : Byte) (hs : s.memoryOk) :
    ({ s with dev := s.dev.pulse a b } : State).memoryOk := by
  obtain ⟨hring, hbelow, hdev⟩ := hs
  refine ⟨hring, hbelow, ?_⟩
  cases hd : s.dev with
  | oracle => rfl
  | sim m =>
    rw [hd] at hdev
    exact Memory.wf_write hdev _ _

/-- R44: of the bus actions only the end of a program pulse writes a byte store, the simulated device's. -/
theorem perform_memoryOk (x : Txn) (a : BusAction) (hs : s.memoryOk) : (perform x s a).memoryOk := by
  cases a with
  | role r on =>
    cases r with
    | program =>
      cases on with
      | true => exact hs
      | false => exact pulse_memoryOk x.a x.d hs
    | latch | enable => exact hs
  | sample => rw [perform, sample_frame]; exact hs
  | address | drive | release => exact hs

theorem Effect.memoryOk (h : Effect s t) (hs : s.memoryOk) : t.memoryOk := by
  induction h with
  | append _ b => exact appended_memoryOk b hs
  | clear => exact cleared_memoryOk hs
  | bus _ x a => exact perform_memoryOk x a hs
  | chain _ _ _ _ _ ih ih' => exact ih' (ih hs)
  | same | control | remove | evaluate | emit | event | phase => exact hs

/-- R149: the indices and the signal at power-on are those that `CLEAR` leaves. -/
theorem powerCycle_flowOk (s : State) : s.powerCycle.flowOk := cleared_flowOk s

theorem step_flowOk (hs : s.flowOk) (h : step s = .next t) : t.flowOk := by
  rcases step_effect h with he | ⟨rest, _, rfl⟩
  · exact he.flowOk hs
  · exact powerCycle_flowOk _

theorem step_memoryOk (hs : s.memoryOk) (h : step s = .next t) : t.memoryOk := by
  rcases step_effect h with he | ⟨rest, _, rfl⟩
  · exact he.memoryOk hs
  · obtain ⟨_, _, hdev⟩ := hs
    exact ⟨rfl, rfl, hdev⟩

end Sys2Proof.Machine
end

section
/-! # The bus lines through a transaction (R121, R123, R129)

Each phase's actions take the lines of the phase before it to its own. -/

namespace Sys2Proof.Machine

variable {s : State} {t : Txn} {p q : Phase} {d : Descriptor}

/-- R121: the lines that phase `p` of transaction `t` leaves. -/
abbrev State.linesAt (t : Txn) (p : Phase) (s : State) : Prop :=
  s.linesAre (p == .latchAssert) (p == .enAssert) (p == .pgmAssert) (t.kind == .prog)

theorem busOk_active {t0 : Nat} (hb : s.bphase = .active t p t0) :
    s.busOk ↔ s.linesAt t p ∧ p ∈ (seq (t.descriptor s) t).map PhaseStep.phase := by
  rw [State.busOk, hb, decide_eq_true_iff]

/-- R126 to R128: in a transaction of the kind, phase `q` with its actions comes right after phase `p`. -/
inductive Follows : TxnKind → Phase → Phase → List BusAction → Prop
  | latchAssert (k : TxnKind) : Follows k .addrSetup .latchAssert [.role .latch true]
  | latchDeassert (k : TxnKind) : Follows k .latchAssert .latchDeassert [.role .latch false]
  | enAssert : Follows .read .latchDeassert .enAssert [.release, .role .enable true]
  | enDeassert : Follows .read .enAssert .enDeassert [.sample, .role .enable false]
  | pgmAssert : Follows .prog .latchDeassert .pgmAssert [.role .program true]
  | pgmDeassert : Follows .prog .pgmAssert .pgmDeassert [.role .program false]

/-- R123: the sequences, evaluated for the three kinds and the seven phases. -/
theorem follows_of_phasesAfter {ph : PhaseStep} {rest : List PhaseStep} (h : phasesAfter p (seq d t) = ph :: rest) :
    Follows t.kind p ph.phase ph.actions := by
  obtain ⟨v, k, a, b⟩ := t
  cases k <;> cases p <;> cases h <;> constructor

/-- R121: every transaction ends in a phase that has deasserted its role. -/
theorem last_phase (hp : p ∈ (seq d t).map PhaseStep.phase) (h : phasesAfter p (seq d t) = []) :
    p = .latchDeassert ∨ p = .enDeassert ∨ p = .pgmDeassert := by
  obtain ⟨v, k, a, b⟩ := t
  cases k <;> cases p <;> simp [seq, latchPhases, phasesAfter] at hp h ⊢

theorem Follows.linesAt {as : List BusAction} (h : Follows t.kind p q as) (hs : s.linesAt t p) :
    (performAll t as s).linesAt t q := by
  obtain ⟨hlatch, henable, hprogram, hoe⟩ := hs
  generalize hk : t.kind = k at h
  cases h with
  | latchAssert => exact ⟨rfl, henable, hprogram, hoe⟩
  | latchDeassert => exact ⟨rfl, henable, hprogram, hoe⟩
  | enAssert => exact ⟨hlatch, rfl, hprogram, by rw [hk]; rfl⟩
  | enDeassert =>
    simp only [performAll, List.foldl, perform]
    rw [sample_frame]
    exact ⟨hlatch, rfl, hprogram, hoe⟩
  | pgmAssert => exact ⟨hlatch, henable, rfl, hoe⟩
  | pgmDeassert => exact ⟨hlatch, henable, rfl, hoe⟩

/-- R129: after the last phase the end action releases the data lines, if the transaction drove them. -/
theorem endActions_lines (hp : p = .latchDeassert ∨ p = .enDeassert ∨ p = .pgmDeassert) (hs : s.linesAt t p) :
    (performAll t (endActions t) s).linesAre false false false false := by
  have hroles : s.linesAre false false false (t.kind == .prog) := by
    rcases hp with rfl | rfl | rfl <;> exact hs
  obtain ⟨hlatch, henable, hprogram, hoe⟩ := hroles
  obtain ⟨v, k, a, b⟩ := t
  cases k with
  | latch | read => exact ⟨hlatch, henable, hprogram, hoe⟩
  | prog => exact ⟨hlatch, henable, hprogram, rfl⟩

/-- R129: a transaction run whole from deasserted roles leaves them deasserted and the data lines released. -/
theorem runTxn_lines (t : Txn) (hs : s.linesAre false false false false) :
    (runTxn t s).linesAre false false false false := by
  obtain ⟨hlatch, henable, hprogram, hoe⟩ := hs
  obtain ⟨v, k, a, b⟩ := t
  cases k with
  | latch => rw [runTxn_latch]; exact ⟨rfl, henable, hprogram, rfl⟩
  | read => rw [runTxn_read, sample_frame]; exact ⟨rfl, rfl, hprogram, rfl⟩
  | prog => rw [runTxn_prog]; exact ⟨rfl, henable, rfl, rfl⟩

theorem addrSetup_mem (d : Descriptor) (t : Txn) : .addrSetup ∈ (seq d t).map PhaseStep.phase := by
  obtain ⟨v, k, a, b⟩ := t
  cases k <;> exact List.mem_cons_self

end Sys2Proof.Machine
end

section
/-! # What a step of a session leaves (R95, R113, R121, R125)

A sub-step of MAIN starts between two transactions, from a state that is `Ready`, and leaves one that is `Controlled`:
the session's properties but flow control and the byte stores, which every effect keeps anyway. -/

namespace Sys2Proof.Machine

variable {s t : State}

/-- On the wire, between two bus transactions: what MAIN's operations find and leave, whatever the controller state. -/
structure Ready (s : State) : Prop where
  config : s.cfg.wf = true
  phase : s.bphase = .idle
  bus : s.busOk
  wire : s.wireOnly
  noFault : s.mfault = none

/-- The properties of a session but the byte stores and the flow-control signal. -/
structure Controlled (s : State) : Prop where
  config : s.cfg.wf = true
  bus : s.busOk
  dispatch : s.dispatchOk
  engine : s.engineOk
  sequencer : s.sequencerOk
  wire : s.wireOnly
  noFault : s.mfault = none

/-- The outcome is a next state, and a session's but for the stores and flow control. -/
def Continues (r : Result) : Prop := ∃ t, r = .next t ∧ Controlled t

theorem Controlled.continues (h : Controlled t) : Continues (.next t) := ⟨t, rfl, h⟩

theorem Session.controlled (hs : Session s) : Controlled s := { hs with }

theorem Session.ready (hs : Session s) (hb : s.bphase = .idle) : Ready s := { hs with phase := hb }

/-- R50, R125: some variant is selected and the Address Counter lies in its device. -/
def State.inDevice (s : State) : Prop := ∃ v, s.desc = some v ∧ s.addr.toNat < (s.cfg.descriptor v).size

theorem engineOk_iff (s : State) : s.engineOk ↔ (s.dstate.iterating = true → s.inDevice) := by
  cases hv : s.desc <;> simp [State.engineOk, State.inDevice, State.descriptor, hv]

/-- Every controller state outside an iteration asks nothing of the engine and the sequencer. -/
theorem Ready.controlled (h : Ready s) (hd : s.dispatchOk) (hi : s.dstate.iterating = false) : Controlled s :=
  { h with
    dispatch := hd
    engine := fun he => Bool.noConfusion (hi.symm.trans he)
    sequencer := .inl h.phase }

theorem dispatchOk_exec {e : Exec} (hd : s.dstate = .exec e) : s.dispatchOk := by
  rw [State.dispatchOk, hd]
  trivial

/-- R113, R114: inside an iteration the Address Counter has to lie in the device. -/
theorem Ready.controlled_inDevice {e : Exec} (h : Ready s) (hd : s.dstate = .exec e) (hv : s.inDevice) : Controlled s :=
  { h with
    dispatch := dispatchOk_exec hd
    engine := (engineOk_iff s).2 fun _ => hv
    sequencer := .inl h.phase }

/-! ## The operations -/

theorem Ready.ended_continues (h : Ready s) (str : Str) : Continues (.next (s.ended str)) :=
  (Ready.controlled (s := s.ended str) { h with } trivial rfl).continues

theorem Ready.removed (h : Ready s) : Ready s.removed := { h with }

theorem Ready.runTxn (h : Ready s) (x : Txn) : Ready (runTxn x s) := by
  have hb : (Machine.runTxn x s).bphase = .idle := by rw [runTxn_frame]; exact h.phase
  have hw : (Machine.runTxn x s).wireOnly := by rw [runTxn_frame]; exact h.wire
  exact
    { config := by rw [runTxn_cfg]; exact h.config
      phase := hb
      bus := (busOk_idle hb).2 (runTxn_lines x ((busOk_idle h.phase).1 h.bus))
      wire := hw
      noFault := by rw [runTxn_mfault]; exact h.noFault }

theorem runTxn_inDevice (x : Txn) (hv : s.inDevice) : (runTxn x s).inDevice := by
  rwa [State.inDevice, runTxn_desc, runTxn_addr, runTxn_cfg]

/-- R124: a transaction begun leaves the lines of its first phase, and the controller waits for it. -/
theorem Ready.beginTxn_controlled {e : Exec} (h : Ready s) (hv : s.inDevice) (hw : (DState.exec e).onBus = true)
    (x : Txn) : Controlled ((beginTxn x s).goto (.exec e)) := by
  obtain ⟨hlatch, henable, hprogram, -⟩ := (busOk_idle h.phase).1 h.bus
  rw [beginTxn_eq]
  exact
    { config := h.config
      bus := (busOk_active (p := .addrSetup) rfl).2 ⟨⟨hlatch, henable, hprogram, rfl⟩, addrSetup_mem _ x⟩
      dispatch := trivial
      engine := (engineOk_iff _).2 fun _ => hv
      sequencer := .inr hw
      wire := h.wire
      noFault := h.noFault }

/-- R125: the engine's transaction inside the device is not refused, and its step goes on as the continuation does. -/
theorem Ready.engineBus_continues {e : Exec} {k : TxnKind} {b : Byte} {c : Byte → State → Result} (h : Ready s)
    (hv : s.inDevice) (hw : (DState.exec e).onBus = true) (hc : ∀ q u, Ready u → u.inDevice → Continues (c q u)) :
    Continues (engineBus k b (.exec e) c s) := by
  have ⟨v, hdesc, hlt⟩ := hv
  have hx := txn_of_lt k b hdesc hlt
  cases hl : s.level with
  | transaction =>
    rw [engineBus_run _ c hx h.phase hl]
    exact hc _ _ (h.runTxn _) (runTxn_inDevice _ hv)
  | signal =>
    rw [engineBus_begin _ c hx h.phase hl]
    exact (h.beginTxn_controlled hv hw _).continues

/-! ## The engine (R113, R114) -/

/-- R12, R113: a selected device has an address 0. -/
theorem Ready.engineEntry_continues (h : Ready s) (e : Exec) : Continues (.next (engineEntry (.exec e) s)) := by
  rcases engineEntry_cases (.exec e) s with ⟨_, he⟩ | ⟨v, hv, he⟩ <;> rw [he]
  · exact h.ended_continues _
  · exact (Ready.controlled_inDevice (s := { s with addr := 0#16, dstate := .exec e }) { h with } rfl
      ⟨v, hv, (size_bounds h.config v).1⟩).continues

/-- R12, R114: the next address is the device's, since no device has more addresses than the Address Counter. -/
theorem Ready.engineNext_continues (h : Ready s) (hv : s.inDevice) (e : Exec) (str : Str) :
    Continues (engineNext (.exec e) str s) := by
  obtain ⟨v, hdesc, hlt⟩ := hv
  by_cases hl : s.addr.toNat + 1 = (s.cfg.descriptor v).size
  · rw [engineNext_last _ _ hdesc hl]
    exact h.ended_continues str
  · rw [engineNext_more _ _ hdesc hl]
    have hnext : (s.addr + 1#16).toNat < (s.cfg.descriptor v).size := by
      have := (size_bounds h.config v).2
      rw [BitVec.toNat_add, BitVec.toNat_ofNat]
      omega
    exact (Ready.controlled_inDevice (s := s.advanced e) { h with } rfl ⟨v, hdesc, hnext⟩).continues

theorem Ready.readBody_continues (q : Byte) (h : Ready s) (hv : s.inDevice) : Continues (readBody q s) := by
  obtain ⟨v, hdesc, hlt⟩ := hv
  rw [readBody_eq q hdesc]
  exact Ready.engineNext_continues (s := s.emit _) { h with } ⟨v, hdesc, hlt⟩ _ _

theorem Ready.blankBody_continues (q : Byte) (h : Ready s) (hv : s.inDevice) : Continues (blankBody q s) := by
  unfold blankBody
  split
  · exact h.ended_continues _
  · exact h.engineNext_continues hv _ _

theorem Ready.writeCompare_continues (q : Byte) (h : Ready s) (hv : s.inDevice) : Continues (writeCompare q s) := by
  unfold writeCompare
  split
  · exact h.ended_continues _
  · exact h.engineNext_continues hv _ _

theorem Ready.writeVerify_continues (h : Ready s) (hv : s.inDevice) : Continues (writeVerify s) :=
  h.engineBus_continues hv rfl fun q _ => Ready.writeCompare_continues q

theorem Ready.writeProgram_continues (c : Byte) (h : Ready s) (hv : s.inDevice) : Continues (writeProgram c s) := by
  cases hp : payloadByte Config.nibbleOrder s.hiCh c with
  | none =>
    rw [writeProgram_bad hp]
    exact h.ended_continues _
  | some d =>
    rw [writeProgram_some hp]
    have hd : Ready { s with wdata := d } := { h with }
    exact hd.engineBus_continues hv rfl fun _ _ => Ready.writeVerify_continues

end Sys2Proof.Machine
end

section
/-! # The commands of a session in their own states (R102, R110, R115 to R117) -/

namespace Sys2Proof.Machine

variable {s : State}

theorem Session.inDevice (hs : Session s) {e : Exec} (hd : s.dstate = .exec e)
    (hi : (DState.exec e).iterating = true) : s.inDevice :=
  (engineOk_iff s).1 hs.engine (by rw [hd, hi])

theorem Session.execRead_continues {sub : ScanSub} (hs : Session s) (hb : s.bphase = .idle)
    (hd : s.dstate = .exec (.read sub)) : Continues (execRead s) := by
  have h := hs.ready hb
  cases sub with
  | entry =>
    rw [execRead_entry hd]
    exact h.engineEntry_continues _
  | check =>
    cases ha : s.opActive with
    | false =>
      rw [execRead_aborted hd ha]
      exact Ready.ended_continues (s := s.emit _) { h with } _
    | true =>
      rw [execRead_check hd ha]
      exact h.engineBus_continues (hs.inDevice hd rfl) rfl fun q _ => Ready.readBody_continues q
  | bus =>
    rw [execRead_bus hd, afterBus_idle _ hb]
    exact h.readBody_continues _ (hs.inDevice hd rfl)

theorem Session.execBlank_continues {sub : ScanSub} (hs : Session s) (hb : s.bphase = .idle)
    (hd : s.dstate = .exec (.blank sub)) : Continues (execBlank s) := by
  have h := hs.ready hb
  cases sub with
  | entry =>
    rw [execBlank_entry hd]
    exact h.engineEntry_continues _
  | check =>
    cases ha : s.opActive with
    | false =>
      rw [execBlank_aborted hd ha]
      exact h.ended_continues _
    | true =>
      rw [execBlank_check hd ha]
      exact h.engineBus_continues (hs.inDevice hd rfl) rfl fun q _ => Ready.blankBody_continues q
  | bus =>
    rw [execBlank_bus hd, afterBus_idle _ hb]
    exact h.blankBody_continues _ (hs.inDevice hd rfl)

theorem Session.execWrite_continues {sub : WriteSub} (hs : Session s) (hb : s.bphase = .idle)
    (hd : s.dstate = .exec (.write sub)) : Continues (execWrite s) := by
  have h := hs.ready hb
  cases sub with
  | entry =>
    rw [execWrite_entry hd]
    exact h.engineEntry_continues _
  | check =>
    cases ha : s.opActive with
    | false =>
      rw [execWrite_aborted hd ha]
      exact h.ended_continues _
    | true =>
      rw [execWrite_check hd ha]
      exact (Ready.controlled_inDevice (s := s.goto (.exec (.write .w1))) { h with } rfl (hs.inDevice hd rfl)).continues
  | w1 =>
    rcases popw_cases s with ⟨ha, _⟩ | ⟨ha, h0, _⟩ | ⟨ha, h0, _⟩
    · rw [execWrite_w1_aborted hd ha]
      exact h.ended_continues _
    · rw [execWrite_w1_hold hd ha h0]
      exact hs.controlled.continues
    · rw [execWrite_w1_some hd ha h0]
      exact (Ready.controlled_inDevice (s := s.atW2) { h with } rfl (hs.inDevice hd rfl)).continues
  | w2 =>
    rcases popw_cases s with ⟨ha, _⟩ | ⟨ha, h0, _⟩ | ⟨ha, h0, _⟩
    · rw [execWrite_w2_aborted hd hb ha]
      exact h.ended_continues _
    · rw [execWrite_w2_hold hd hb ha h0]
      exact hs.controlled.continues
    · rw [execWrite_w2_some hd hb ha h0]
      exact h.removed.writeProgram_continues _ (hs.inDevice hd rfl)
  | prog =>
    rw [execWrite_prog hd, afterBus_idle _ hb]
    exact h.writeVerify_continues (hs.inDevice hd rfl)
  | verify =>
    rw [execWrite_verify hd, afterBus_idle _ hb]
    exact h.writeCompare_continues _ (hs.inDevice hd rfl)

theorem Session.execSetdev_continues (hs : Session s) (hb : s.bphase = .idle) (hd : s.dstate = .exec .setdev) :
    Continues (execSetdev s) := by
  have h := hs.ready hb
  rcases popw_cases s with ⟨ha, _⟩ | ⟨ha, h0, _⟩ | ⟨ha, h0, _⟩
  · rw [execSetdev_aborted hd ha]
    exact h.ended_continues _
  · rw [execSetdev_hold hd ha h0]
    exact hs.controlled.continues
  · rw [execSetdev_some hd ha h0]
    rcases setDevice_cases (s.ringAt s.head) s.removed with ⟨v, _, _, e⟩ | ⟨_, _, e⟩ <;> rw [e]
    · exact Ready.ended_continues (s := s.removed.select v) { h with } _
    · exact h.removed.ended_continues _

/-- R102: a command of the wire protocol in a state of its own. -/
theorem Session.execCommand_continues {e : Exec} (hs : Session s) (hb : s.bphase = .idle) (hd : s.dstate = .exec e) :
    Continues (exec e.instr s) := by
  have h := hs.ready hb
  cases e with
  | read sub => exact hs.execRead_continues hb hd
  | write sub => exact hs.execWrite_continues hb hd
  | blank sub => exact hs.execBlank_continues hb hd
  | setdev => exact hs.execSetdev_continues hb hd
  | ident => exact ⟨_, execIdent_exec hd, Ready.controlled (s := s.ended _) { h with } trivial rfl⟩
  | reset => exact ⟨_, execReset_exec hd, Ready.controlled (s := s.goto .cleanup) { h with } trivial rfl⟩
  | baud => exact ⟨_, execBaud_exec hd, Ready.controlled (s := (s.event _).goto .cleanup) { h with } trivial rfl⟩

end Sys2Proof.Machine
end

section
/-! # A step of a session (R95, R98, R134, R136) -/

namespace Sys2Proof.Machine

variable {s t : State}

/-- R92, R95: the marker and one more byte stand at the buffer head. -/
abbrev State.envelopeAhead (s : State) : Prop := 2 ≤ s.occ ∧ s.ringAt s.head = Config.MARKER

theorem dispatchOk_idle (hd : s.dstate = .idle) : s.dispatchOk ↔ (s.opActive = true → s.envelopeAhead) := by
  rw [State.dispatchOk, hd]

theorem dispatchOk_disp0 (hd : s.dstate = .disp0) : s.dispatchOk ↔ s.envelopeAhead := by
  rw [State.dispatchOk, hd]

theorem dispatchOk_disp1 (hd : s.dstate = .disp1) : s.dispatchOk ↔ 1 ≤ s.occ := by
  rw [State.dispatchOk, hd]

/-- R95, R100, R101: Dispatching finds the bytes that the recognizer saw; a dispatched command goes on in its own
states. -/
theorem Session.controllerStep_continues (hs : Session s) (hb : s.bphase = .idle) : Continues (controllerStep s) := by
  have h := hs.ready hb
  cases hd : s.dstate with
  | idle =>
    rw [controllerStep_idle hd]
    cases ha : s.opActive with
    | false => exact hs.controlled.continues
    | true =>
      have hdisp := (dispatchOk_idle hd).1 hs.dispatch ha
      exact (Ready.controlled (s := s.goto .disp0) { h with } hdisp rfl).continues
  | disp0 =>
    obtain ⟨hocc, hmarker⟩ := (dispatchOk_disp0 hd).1 hs.dispatch
    have h0 : s.occ ≠ 0 := by omega
    have hleft : 1 ≤ s.removed.occ := by rw [removed_occ h0]; omega
    rw [controllerStep_disp0 hd, dispatchMarker_marker h0 hmarker]
    exact (Ready.controlled (s := s.removed.goto .disp1) { h with } hleft rfl).continues
  | disp1 =>
    have hocc := (dispatchOk_disp1 hd).1 hs.dispatch
    rw [controllerStep_disp1 hd, dispatchOpcode_some (by omega)]
    rcases exec_dispatched (s := s.removed) (s.ringAt s.head) hd with ⟨e, hi, _, he⟩ | he <;> rw [he]
    · exact (Ready.controlled (s := s.removed.goto (.exec e)) { h with } trivial hi).continues
    · exact h.removed.ended_continues _
  | exec e =>
    rw [controllerStep_exec hd]
    exact hs.execCommand_continues hb hd
  | cleanup =>
    rw [controllerStep_cleanup hd, cleanup_eq]
    exact (Ready.controlled (s := { s.cleared with dstate := .idle }) { h with } nofun rfl).continues

/-- R124: the end of a transaction that the controller waits for leaves its value in `busQ`. -/
theorem endTxn_awaited (hw : s.dstate.onBus = true) (x : Txn) :
    endTxn x s = { performAll x (endActions x) s with bphase := .idle } :=
  if_pos (by rw [performAll_frame]; exact hw)

/-- R121, R124: the transaction under way stays in its phase, ends with the lines released, or goes on to the next. -/
theorem Session.advanceTxn_controlled {x : Txn} {p : Phase} {t0 : Nat} (hs : Session s)
    (hb : s.bphase = .active x p t0) : Controlled (advanceTxn x p t0 s) := by
  have hw : s.dstate.onBus = true := hs.sequencer.resolve_left (by rw [hb]; exact BPhase.noConfusion)
  obtain ⟨hlines, hphase⟩ := (busOk_active hb).1 hs.bus
  rcases advanceTxn_cases x p t0 s with ⟨_, e⟩ | ⟨_, hlast, e⟩ | ⟨ph, rest, _, hnext, e⟩ <;> rw [e]
  · exact hs.controlled
  · have hreleased := endActions_lines (last_phase hphase hlast) hlines
    rw [endTxn_awaited hw]
    rw [performAll_frame] at hreleased ⊢
    exact { hs.controlled with bus := (busOk_idle rfl).2 hreleased, sequencer := .inl rfl }
  · have hnew := (follows_of_phasesAfter hnext).linesAt hlines
    have hmem : ph ∈ seq (x.descriptor s) x := phasesAfter_subset p _ ph (hnext ▸ List.mem_cons_self)
    rw [performAll_frame] at hnew ⊢
    exact
      { hs.controlled with
        bus := (busOk_active (p := ph.phase) rfl).2 ⟨hnew, List.mem_map_of_mem hmem⟩
        sequencer := .inr hw }

/-- MAIN's turn goes to the transaction under way, else to the controller. -/
theorem Session.mainTurn_continues (hs : Session s) : Continues (mainTurn s) := by
  rcases mainTurn_cases s with ⟨x, p, t0, hb, e⟩ | ⟨hb, _, e⟩ | ⟨i, rest, _, _, hh, _⟩
  · rw [e]
    exact (hs.advanceTxn_controlled hb).continues
  · rw [e]
    exact hs.controllerStep_continues hb
  · rw [hs.wire.1] at hh
    cases hh

/-! ## The other agents -/

/-- R95: Dispatching's premise goes on to a state at the same controller state with at least the bytes and, where the
flag has risen, the envelope. -/
theorem dispatchOk_mono (h : s.dispatchOk) (hd : t.dstate = s.dstate) (hocc : 1 ≤ s.occ → 1 ≤ t.occ)
    (henv : s.envelopeAhead → t.envelopeAhead) (ha : t.opActive = true → s.opActive = true ∨ t.envelopeAhead) :
    t.dispatchOk := by
  cases hc : s.dstate with
  | idle =>
    refine (dispatchOk_idle (hd.trans hc)).2 fun ht => ?_
    exact (ha ht).elim (fun hact => henv ((dispatchOk_idle hc).1 h hact)) id
  | disp0 => exact (dispatchOk_disp0 (hd.trans hc)).2 (henv ((dispatchOk_disp0 hc).1 h))
  | disp1 => exact (dispatchOk_disp1 (hd.trans hc)).2 (hocc ((dispatchOk_disp1 hc).1 h))
  | exec e => exact dispatchOk_exec (hd.trans hc)
  | cleanup => rw [State.dispatchOk, hd, hc]; trivial

/-- R92: the recognizer sets the flag only where Dispatching will find its bytes. -/
theorem Controlled.recognize (h : Controlled s) : Controlled s.recognize := by
  rcases recognize_cases s with ⟨hmarker, hocc, e⟩ | ⟨_, e⟩ <;> rw [e]
  · exact { h with dispatch := dispatchOk_mono h.dispatch rfl id id fun _ => .inr ⟨hocc, hmarker⟩ }
  · exact h

/-- R84: an append leaves the bytes that Dispatching looks at. -/
theorem Session.appended_controlled (hs : Session s) (b : Byte) (hr : s.occ ≠ 1023) : Controlled (s.appended b) := by
  obtain ⟨hring, -⟩ := hs.memory
  have hocc := appended_occ b hr
  have hdisp : (s.appended b).dispatchOk := by
    refine dispatchOk_mono hs.dispatch rfl (by omega) (fun ⟨h2, hmarker⟩ => ⟨by omega, ?_⟩) .inl
    exact (appended_head hring b (by omega)).trans hmarker
  exact { hs.controlled with dispatch := hdisp }

theorem Session.receive_controlled (hs : Session s) (b : Byte) (ok : Bool) : Controlled (s.receive b ok) := by
  rcases receive_cases s b ok with ⟨_, e⟩ | ⟨_, _, e⟩ | ⟨_, _, _, e⟩ | ⟨_, _, hr, e⟩ <;> rw [e]
  · exact { hs.controlled with }
  · exact { hs.controlled with dispatch := dispatchOk_mono hs.dispatch rfl id id nofun }
  · exact { hs.controlled with }
  · exact (hs.appended_controlled b hr).recognize

/-- R149: power-on gives a state of a session, whatever the session was at. -/
theorem Session.powerCycle_controlled (hs : Session s) : Controlled s.powerCycle :=
  { config := hs.config, bus := rfl, dispatch := nofun, engine := nofun, sequencer := .inl rfl
    wire := ⟨rfl, hs.wire.2⟩, noFault := rfl }

theorem Session.inputStep_continues (hs : Session s) {i : Input} (hi : i.isPort = false) :
    Continues (inputStep i s) := by
  cases i with
  | recv b ok => exact (hs.receive_controlled b ok).continues
  | port p => cases hi
  | main => exact hs.mainTurn_continues
  | tick dt => exact Controlled.continues { hs.controlled with }
  | power => exact hs.powerCycle_controlled.continues

theorem Session.step_continues (hs : Session s) : Continues (step s) := by
  obtain ⟨hheld, hall⟩ := hs.wire
  rcases step_cases s with ⟨f, hf, _⟩ | ⟨_, _, e⟩ | ⟨i, rest, _, hi, e⟩
  · rw [hs.noFault] at hf
    cases hf
  · rw [e]
    exact hs.mainTurn_continues
  · rw [hi, List.all_cons, Bool.and_eq_true, Bool.not_eq_true'] at hall
    obtain ⟨hport, hrest⟩ := hall
    rw [e]
    exact Session.inputStep_continues (s := { s with inputs := rest }) { hs with wire := ⟨hheld, hrest⟩ } hport

/-- Settles O54: the step answers a controlled state, and keeps the byte stores and flow control as every step does. -/
theorem sessionNeverStops : Obligations.SessionNeverStops := by
  intro s hs
  obtain ⟨t, ht, hc⟩ := hs.step_continues
  exact ⟨t, ht, { hc with memory := step_memoryOk hs.memory ht, flow := step_flowOk hs.flow ht }⟩

end Sys2Proof.Machine
end

section
/-! # Flow control and the stores over every step (R23, R44, R82) -/

namespace Sys2Proof.Machine

variable {s t u : State}

/-- Settles O45: every step keeps it, since every effect does. -/
theorem flowControlInvariant : Obligations.FlowControlInvariant := fun _ _ => step_flowOk

/-- Settles O47: every step keeps both stores canonical, since every effect does. -/
theorem memoryInvariant : Obligations.MemoryInvariant := fun _ _ => step_memoryOk

/-! ## The edges of the signal -/

/-- R82: what flow control is about, the occupancy and the signal. -/
def State.flowSide (s : State) : Nat × Bool := (s.occ, s.stop)

/-- R81: what a step does to them: nothing, or an evaluation at an occupancy one byte away at most, or 0. -/
inductive FlowMove : Nat × Bool → Nat × Bool → Prop
  | kept (x : Nat × Bool) : FlowMove x x
  | evaluated (o o' : Nat) (stop : Bool) (h : o' = 0 ∨ o ≤ o' + 1 ∧ o' ≤ o + 1) :
      FlowMove (o, stop) (o', fcEval o' stop)

theorem shared_flowSide (h : t.shared = s.shared) : t.flowSide = s.flowSide := by
  obtain ⟨_, _, _, hstop, _⟩ := shared_eq h
  rw [State.flowSide, shared_occ h, hstop, State.flowSide]

theorem recognize_flowSide (s : State) : s.recognize.flowSide = s.flowSide := by
  rcases recognize_cases s with ⟨_, _, e⟩ | ⟨_, e⟩
  · rw [e]; rfl
  · rw [e]

theorem appended_flowMove (b : Byte) (h : s.occ ≠ 1023) : FlowMove s.flowSide (s.appended b).flowSide := by
  rw [State.flowSide, State.flowSide, appended_occ b h]
  exact .evaluated s.occ (s.occ + 1) s.stop (.inr (by omega))

theorem removed_flowMove (h : s.occ ≠ 0) : FlowMove s.flowSide s.removed.flowSide := by
  rw [State.flowSide, State.flowSide, removed_occ h]
  exact .evaluated s.occ (s.occ - 1) s.stop (.inr (by omega))

theorem cleared_flowMove (s : State) : FlowMove s.flowSide s.cleared.flowSide := by
  rw [State.flowSide, State.flowSide, cleared_occ]
  exact .evaluated s.occ 0 s.stop (.inl rfl)

/-- The move is read from the shared state. -/
theorem FlowMove.of_shared {x : Nat × Bool} (h : t.shared = u.shared) (hm : FlowMove x u.flowSide) :
    FlowMove x t.flowSide := by
  rwa [shared_flowSide h]

theorem exec_flowMove {i : Instr} (h : exec i s = .next t) : FlowMove s.flowSide t.flowSide := by
  cases exec_shared h with
  | push b _ h0 h => exact .of_shared h (appended_flowMove b h0)
  | receive b _ _ h0 h => exact .of_shared h (recognize_flowSide (s.appended b) ▸ appended_flowMove b h0)
  | take _ h0 h => exact .of_shared h (removed_flowMove h0)
  | setdev v _ _ _ h0 _ h => exact .of_shared h (removed_flowMove h0)
  | size _ h => exact .of_shared h (.evaluated s.occ s.occ s.stop (.inr (by omega)))
  | clear _ h => exact .of_shared h (cleared_flowMove s)
  | recognize _ h => exact .of_shared h (recognize_flowSide s ▸ .kept s.flowSide)
  | none h | cancel _ _ _ h | select _ _ h => exact .of_shared h (.kept s.flowSide)

theorem step_flowMove (h : step s = .next t) : FlowMove s.flowSide t.flowSide := by
  cases step_change h with
  | power rest _ h =>
    rw [h]
    exact cleared_flowMove s
  | runs i u _ hx hu => exact shared_flowSide hu ▸ exec_flowMove hx
  | quiet h => exact .of_shared h (.kept s.flowSide)
  | popped _ h0 h => exact .of_shared h (removed_flowMove h0)
  | cleanup _ h => exact .of_shared h (cleared_flowMove s)

theorem fcEval_rises {o : Nat} (h : fcEval o false = true) : 992 < o := by
  simpa [fcEval_eq] using h

theorem fcEval_falls {o : Nat} (h : fcEval o true = false) : o < 32 := by
  have ho : ¬ 992 < o := fun ho => by simp [fcEval_eq, ho] at h
  simpa [fcEval_eq, ho] using h

/-- R82: where the signal agrees with the occupancy, it rises only on the byte after 992 and falls only on the one
before 32 or on emptying. -/
theorem FlowMove.edges {o o' : Nat} {stop stop' : Bool} (h : FlowMove (o, stop) (o', stop'))
    (hhigh : 992 < o → stop = true) (hlow : o < 32 → stop = false) :
    (stop = false → stop' = true → o = 992 ∧ o' = 993) ∧
      (stop = true → stop' = false → (o = 32 ∧ o' = 31) ∨ o' = 0) := by
  cases h with
  | kept => exact ⟨fun h h' => by simp [h] at h', fun h h' => by simp [h] at h'⟩
  | evaluated _ _ _ hnear =>
    constructor
    · rintro rfl h'
      have hrise := fcEval_rises h'
      have hbefore : ¬ 992 < o := fun ho => Bool.noConfusion (hhigh ho)
      omega
    · rintro rfl h'
      have hfall := fcEval_falls h'
      have hbefore : ¬ o < 32 := fun ho => Bool.noConfusion (hlow ho)
      omega

/-- Settles O46: what the step does to the occupancy decides the edges. -/
theorem stopEdges : Obligations.StopEdges := fun _ _ ⟨hhigh, hlow⟩ h => (step_flowMove h).edges hhigh hlow

end Sys2Proof.Machine
end

section
/-! # The bus lines over every step (R121, R124, R129)

A meaning leaves the lines alone, or finds the bus idle and runs a transaction whole or begins it; a transaction under
way goes from phase to phase at MAIN's turns. -/

namespace Sys2Proof.Machine

variable {s t u : State}

/-! ## The transactions -/

theorem runTxn_busOk (x : Txn) (hb : s.bphase = .idle) (hs : s.busOk) : (runTxn x s).busOk := by
  have hidle : (runTxn x s).bphase = .idle := by rw [runTxn_frame]; exact hb
  exact (busOk_idle hidle).2 (runTxn_lines x ((busOk_idle hb).1 hs))

theorem beginTxn_busOk (x : Txn) (hb : s.bphase = .idle) (hs : s.busOk) : (beginTxn x s).busOk := by
  obtain ⟨hlatch, henable, hprogram, -⟩ := (busOk_idle hb).1 hs
  rw [beginTxn_eq]
  exact (busOk_active (p := .addrSetup) rfl).2 ⟨⟨hlatch, henable, hprogram, rfl⟩, addrSetup_mem _ x⟩

theorem endTxn_busOk {x : Txn} (h : (performAll x (endActions x) s).linesAre false false false false) :
    (endTxn x s).busOk := by
  simp only [endTxn]
  split
  · exact (busOk_idle rfl).2 h
  · exact (busOk_idle rfl).2 h

/-- R121, R124: a phase that ends gives way to the next one with its lines, or to the idle bus. -/
theorem advanceTxn_busOk {x : Txn} {p : Phase} {t0 : Nat} (hb : s.bphase = .active x p t0) (hs : s.busOk) :
    (advanceTxn x p t0 s).busOk := by
  obtain ⟨hlines, hphase⟩ := (busOk_active hb).1 hs
  rcases advanceTxn_cases x p t0 s with ⟨_, e⟩ | ⟨_, hlast, e⟩ | ⟨ph, rest, _, hnext, e⟩ <;> rw [e]
  · exact hs
  · exact endTxn_busOk (endActions_lines (last_phase hphase hlast) hlines)
  · have hnew := (follows_of_phasesAfter hnext).linesAt hlines
    have hmem : ph ∈ seq (x.descriptor s) x := phasesAfter_subset p _ ph (hnext ▸ List.mem_cons_self)
    rw [performAll_frame] at hnew ⊢
    exact (busOk_active (p := ph.phase) rfl).2 ⟨hnew, List.mem_map_of_mem hmem⟩

theorem portBus_busOk (i : Instr) (k : TxnKind) (a : Addr) (d : Byte) (hs : s.busOk) :
    Yields State.busOk (portBus i k a d s) := by
  rcases portBus_cases i k a d s with ⟨_, e⟩ | ⟨_, _, _, e⟩ | ⟨x, _, hb, _, e⟩ | ⟨x, _, hb, _, e⟩ <;> rw [e]
  · trivial
  · exact hs
  · exact runTxn_busOk x hb hs
  · exact beginTxn_busOk x hb hs

/-! ## The engine -/

theorem engineBus_busOk (k : TxnKind) (d : Byte) (w : DState) {c : Byte → State → Result}
    (hc : ∀ q v, v.busOk → Yields State.busOk (c q v)) (hs : s.busOk) :
    Yields State.busOk (engineBus k d w c s) := by
  rcases engineBus_cases k d w c s with ⟨_, e⟩ | ⟨_, _, _, e⟩ | ⟨x, _, hb, _, e⟩ | ⟨x, _, hb, _, e⟩ <;> rw [e]
  · trivial
  · exact hs
  · exact hc _ _ (runTxn_busOk x hb hs)
  · exact beginTxn_busOk x hb hs

theorem afterBus_busOk {c : Byte → State → Result} (hc : ∀ q v, v.busOk → Yields State.busOk (c q v))
    (hs : s.busOk) : Yields State.busOk (afterBus c s) := by
  unfold afterBus
  split
  · exact hs
  · exact hc _ _ hs

theorem engineEntry_busOk (c : DState) (hs : s.busOk) : (engineEntry c s).busOk := by
  rcases engineEntry_cases c s with ⟨_, e⟩ | ⟨_, _, e⟩ <;> rw [e] <;> exact hs

theorem engineNext_busOk (c : DState) (l : Str) (hs : s.busOk) : Yields State.busOk (engineNext c l s) := by
  rcases engineNext_cases c l s with ⟨_, e⟩ | ⟨_, _, _, e⟩ | ⟨_, _, _, e⟩ <;> rw [e]
  · trivial
  · exact hs
  · exact hs

theorem readBody_busOk (q : Byte) (s : State) (hs : s.busOk) : Yields State.busOk (readBody q s) := by
  unfold readBody
  split
  · trivial
  · exact engineNext_busOk (s := s.emit _) _ _ hs

theorem blankBody_busOk (q : Byte) (s : State) (hs : s.busOk) : Yields State.busOk (blankBody q s) := by
  unfold blankBody
  split
  · exact hs
  · exact engineNext_busOk _ _ hs

theorem writeCompare_busOk (q : Byte) (s : State) (hs : s.busOk) : Yields State.busOk (writeCompare q s) := by
  unfold writeCompare
  split
  · exact hs
  · exact engineNext_busOk _ _ hs

theorem writeVerify_busOk (s : State) (hs : s.busOk) : Yields State.busOk (writeVerify s) :=
  engineBus_busOk _ _ _ writeCompare_busOk hs

theorem writeProgram_busOk (c : Byte) (hs : s.busOk) : Yields State.busOk (writeProgram c s) := by
  unfold writeProgram
  split
  · exact hs
  · exact engineBus_busOk (s := { s with wdata := _ }) _ _ _ (fun _ => writeVerify_busOk) hs

theorem execRead_busOk (hs : s.busOk) : Yields State.busOk (execRead s) := by
  unfold execRead
  split
  · exact hs
  · exact engineEntry_busOk _ hs
  · split
    · exact hs
    · exact engineBus_busOk _ _ _ readBody_busOk hs
  · exact afterBus_busOk readBody_busOk hs
  · trivial

theorem execBlank_busOk (hs : s.busOk) : Yields State.busOk (execBlank s) := by
  unfold execBlank
  split
  · exact hs
  · exact engineEntry_busOk _ hs
  · split
    · exact hs
    · exact engineBus_busOk _ _ _ blankBody_busOk hs
  · exact afterBus_busOk blankBody_busOk hs
  · trivial

theorem writeW1_busOk (hs : s.busOk) : Yields State.busOk (writeW1 s) := by
  rcases popw_cases s with ⟨_, e⟩ | ⟨_, _, e⟩ | ⟨_, _, e⟩ <;> simp only [writeW1, e] <;> exact hs

theorem writeW2_busOk (hs : s.busOk) : Yields State.busOk (writeW2 s) := by
  rcases popw_cases s with ⟨_, e⟩ | ⟨_, _, e⟩ | ⟨_, _, e⟩ <;> simp only [writeW2, e]
  · exact hs
  · exact hs
  · exact writeProgram_busOk (s := s.removed) _ hs

theorem execWrite_busOk (hs : s.busOk) : Yields State.busOk (execWrite s) := by
  unfold execWrite
  split
  · exact hs
  · exact engineEntry_busOk _ hs
  · split <;> exact hs
  · exact writeW1_busOk hs
  · split
    · exact hs
    · exact writeW2_busOk hs
  · exact afterBus_busOk (fun _ => writeVerify_busOk) hs
  · exact afterBus_busOk writeCompare_busOk hs
  · trivial

/-! ## The meanings that never touch the bus -/

theorem execSetdev_busOk (hs : s.busOk) : Yields State.busOk (execSetdev s) := by
  unfold execSetdev
  split
  · exact hs
  · rcases popw_cases s with ⟨_, e⟩ | ⟨_, _, e⟩ | ⟨_, _, e⟩ <;> simp only [e]
    · exact hs
    · exact hs
    · rcases setDevice_cases (s.ringAt s.head) s.removed with ⟨_, _, _, e⟩ | ⟨_, _, e⟩ <;> rw [e] <;> exact hs
  · trivial

theorem execIdent_busOk (hs : s.busOk) : Yields State.busOk (execIdent s) := by
  unfold execIdent
  split
  · exact hs
  · exact hs
  · trivial

theorem execReset_busOk (hs : s.busOk) : Yields State.busOk (execReset s) := by
  unfold execReset
  split
  · exact hs
  · exact hs
  · trivial

theorem execBaud_busOk (hs : s.busOk) : Yields State.busOk (execBaud s) := by
  unfold execBaud
  split
  · exact hs
  · exact hs
  · trivial

theorem execUnknownOpcode_busOk (op : Byte) (hs : s.busOk) : Yields State.busOk (execUnknownOpcode op s) := by
  unfold execUnknownOpcode
  split
  · exact hs
  · trivial

theorem recognize_busOk (hs : s.busOk) : s.recognize.busOk := by
  rcases recognize_cases s with ⟨_, _, e⟩ | ⟨_, e⟩ <;> rw [e] <;> exact hs

theorem receive_busOk (b : Byte) (ok : Bool) (hs : s.busOk) : (s.receive b ok).busOk := by
  rcases receive_cases s b ok with ⟨_, e⟩ | ⟨_, _, e⟩ | ⟨_, _, _, e⟩ | ⟨_, _, _, e⟩ <;> rw [e]
  · exact hs
  · exact hs
  · exact hs
  · exact recognize_busOk (s := s.appended b) hs

/-! ## Every meaning and every step -/

theorem exec_busOk (i : Instr) (hs : s.busOk) : Yields State.busOk (exec i s) := by
  cases i with
  | read => exact execRead_busOk hs
  | write => exact execWrite_busOk hs
  | blank => exact execBlank_busOk hs
  | ident => exact execIdent_busOk hs
  | setdev => exact execSetdev_busOk hs
  | reset => exact execReset_busOk hs
  | baud => exact execBaud_busOk hs
  | unknownOpcode op => exact execUnknownOpcode_busOk op hs
  | recv b ok => exact receive_busOk b ok hs
  | recognize => exact recognize_busOk hs
  | push b => rcases push_cases s b with ⟨_, e⟩ | ⟨_, e⟩ <;> simp only [exec, execPush, e] <;> exact hs
  | pop => rcases pop_cases s with ⟨_, e⟩ | ⟨_, e⟩ <;> simp only [exec, execPop, e] <;> exact hs
  | popw =>
    rcases popw_cases s with ⟨_, e⟩ | ⟨_, _, e⟩ | ⟨_, _, e⟩ <;> simp only [exec, execPopw, e] <;> exact hs
  | clear => rw [exec_clear]; exact hs
  | busLatch a | busRead a | busProg a d => exact portBus_busOk _ _ a _ hs
  | peek | size | selectA | selectB => exact hs
  | reservedFifoPort | reservedBusPort | reservedSelect0 | reservedSelect3 => trivial

theorem dispatchMarker_busOk (hs : s.busOk) : (dispatchMarker s).busOk := by
  rcases pop_cases s with ⟨_, e⟩ | ⟨_, e⟩ <;> simp only [dispatchMarker, e]
  · exact hs
  · split <;> exact hs

theorem controllerStep_busOk (hs : s.busOk) : Yields State.busOk (controllerStep s) := by
  cases hd : s.dstate with
  | idle =>
    rw [controllerStep_idle hd]
    show State.busOk (if s.opActive then s.goto .disp0 else s)
    split <;> exact hs
  | disp0 => rw [controllerStep_disp0 hd]; exact dispatchMarker_busOk hs
  | disp1 =>
    rw [controllerStep_disp1 hd]
    rcases pop_cases s with ⟨h0, _⟩ | ⟨h0, _⟩
    · rw [dispatchOpcode_empty h0]; exact hs
    · rw [dispatchOpcode_some h0]; exact exec_busOk (s := s.removed) _ hs
  | exec e => rw [controllerStep_exec hd]; exact exec_busOk e.instr hs
  | cleanup => rw [controllerStep_cleanup hd, cleanup_eq]; exact hs

theorem mainTurn_busOk (hs : s.busOk) : Yields State.busOk (mainTurn s) := by
  rcases mainTurn_cases s with ⟨x, p, t0, hb, e⟩ | ⟨_, _, e⟩ | ⟨i, rest, _, _, _, e⟩ <;> rw [e]
  · exact advanceTxn_busOk hb hs
  · exact controllerStep_busOk hs
  · exact exec_busOk (s := { s with held := rest }) i hs

theorem portStep_busOk (p : PortWord) (hs : s.busOk) : Yields State.busOk (portStep p s) := by
  rcases portStep_cases p s with ⟨_, _, e⟩ | ⟨_, _, _, _, e⟩ | ⟨i, _, _, e⟩ <;> rw [e]
  · trivial
  · exact hs
  · exact exec_busOk i hs

theorem inputStep_busOk (i : Input) (hs : s.busOk) : Yields State.busOk (inputStep i s) := by
  cases i with
  | recv b ok => exact receive_busOk b ok hs
  | port p => exact portStep_busOk p hs
  | main => exact mainTurn_busOk hs
  | tick dt => exact hs
  | power => exact (busOk_idle (s := s.powerCycle) rfl).2 ⟨rfl, rfl, rfl, rfl⟩

theorem step_busOk (hs : s.busOk) : Yields State.busOk (step s) := by
  rcases step_cases s with ⟨_, _, e⟩ | ⟨_, _, e⟩ | ⟨i, rest, _, _, e⟩ <;> rw [e]
  · trivial
  · exact mainTurn_busOk hs
  · exact inputStep_busOk (s := { s with inputs := rest }) i hs

/-- Settles O48, agent by agent. -/
theorem busLinesInvariant : Obligations.BusLinesInvariant := fun _ _ hs h => (step_busOk hs).of_next h

end Sys2Proof.Machine
end

section
/-! # The removals of the FIFO port and the order of the contents (R43, R85, R86, R90) -/

namespace Sys2Proof.Machine

variable {s t : State}

theorem exec_pop_empty (h : s.occ = 0) : exec .pop s = .next (s.answer (.err .bufferUnderflow)) := by
  simp only [exec, execPop, pop_empty h, PortResult.ofByte]

theorem exec_pop_some (h : s.occ ≠ 0) : exec .pop s = .next (s.removed.answer (.byte (s.ringAt s.head))) := by
  simp only [exec, execPop, pop_some h, PortResult.ofByte]

theorem exec_popw_aborted (ha : s.opActive = false) : exec .popw s = .next (s.answer (.err .aborted)) := by
  simp only [exec, execPopw, popw_aborted ha, PortResult.ofByte]

theorem exec_popw_hold (ha : s.opActive = true) (h : s.occ = 0) : exec .popw s = .next (s.wait .popw) := by
  simp only [exec, execPopw, popw_hold ha h]

theorem exec_popw_some (ha : s.opActive = true) (h : s.occ ≠ 0) :
    exec .popw s = .next (s.removed.answer (.byte (s.ringAt s.head))) := by
  simp only [exec, execPopw, popw_some ha h, PortResult.ofByte]

/-- R85, R80: a removal with the evaluation of flow control written out. -/
theorem removed_eq (s : State) :
    s.removed =
      { s with head := s.head + 1#10
               stop := if 992 < s.occ - 1 then true else if s.occ - 1 < 32 then false else s.stop } := by
  rw [State.removed, fcEval_eq]

/-- Settles O14: the empty buffer and the buffer with a byte. -/
theorem popRemovesTheOldest : Obligations.PopRemovesTheOldest := by
  intro s
  by_cases h : s.occ = 0
  · rw [exec_pop_empty h, if_pos h, State.answer]
  · rw [exec_pop_some h, if_neg h, removed_eq, State.answer]

/-- Settles O15, case by case. -/
theorem popwHoldsAbortsOrRemoves : Obligations.PopwHoldsAbortsOrRemoves := by
  intro s
  refine ⟨fun ha => ?_, fun ha h => ?_, fun ha h => ?_⟩
  · rw [exec_popw_aborted ha, State.answer]
  · rw [exec_popw_hold ha h, State.wait]
  · rw [exec_popw_some ha h.ne', removed_eq, State.answer]

/-- R90: a removal answered to its caller takes the first byte of the contents. -/
theorem contents_of_removal {o : Instr} (h : s.occ ≠ 0)
    (hx : exec o s = .next (s.removed.answer (.byte (s.ringAt s.head)))) (ht : exec o s = .next t) :
    ∃ v, t.result = some (.byte v) ∧ s.contents = v :: t.contents := by
  rw [hx] at ht
  cases ht
  exact ⟨s.ringAt s.head, rfl, contents_removed h⟩

/-- Settles O18, operation by operation. -/
theorem fifoKeepsTheOrder : Obligations.FifoKeepsTheOrder := by
  intro s t hm
  refine ⟨contents_length s, fun b hr h => ?_, fun h0 h => ?_, fun h0 ha h => ?_, fun h => ?_⟩
  · rw [exec_push_room b hr] at h
    cases h
    exact contents_appended hm b hr
  · exact contents_of_removal h0.ne' (exec_pop_some h0.ne') h
  · exact contents_of_removal h0.ne' (exec_popw_some ha h0.ne') h
  · rw [exec_clear] at h
    cases h
    exact contents_cleared s

end Sys2Proof.Machine
end

section
/-! # The read rows and the hex pairs (R63, R64, R66) -/

namespace Sys2Proof.Machine

/-! ## One row -/

/-- A row is its header, its bytes and its end: the first byte brings the header, the last one the end. -/
theorem flatMap_framed {α : Type} (header last : List α) (body : Nat → List α) (n : Nat) :
    (List.range (n + 1)).flatMap
        (fun j => (if j = 0 then header else []) ++ body j ++ (if j = n then last else [])) =
      header ++ (List.range (n + 1)).flatMap body ++ last := by
  have hopen : ∀ k ≤ n, (List.range k).flatMap
      (fun j => (if j = 0 then header else []) ++ body j ++ (if j = n then last else [])) =
        (if k = 0 then [] else header) ++ (List.range k).flatMap body := by
    intro k hk
    induction k with
    | zero => rfl
    | succ k ih =>
      rw [List.range_succ, List.flatMap_append, ih (by omega), List.flatMap_append]
      by_cases h0 : k = 0 <;> simp [h0, show ¬ k = n by omega, show ¬ 0 = n by omega]
  rw [List.range_succ, List.flatMap_append, hopen n (Nat.le_refl n), List.flatMap_append]
  by_cases h0 : n = 0 <;> simp [h0]

/-- R115: byte `j` of a row of `n + 1` bytes that starts at `a`: the header with the first, the line feed with the
last. -/
theorem readChunk_in_row {size a n j : Nat} (d : Byte) (ha : a % 16 = 0) (hn : n < 16) (hfit : a + n + 1 ≤ size)
    (hsize : size ≤ 65536) (hend : n = 15 ∨ a + n + 1 = size) (hj : j ≤ n) :
    readChunk size (BitVec.ofNat 16 (a + j)) d =
      (if j = 0 then hex4U (BitVec.ofNat 16 a) ++ [0x3A#8] else []) ++ ([0x20#8] ++ hex2U d)
        ++ (if j = n then [0x0A#8] else []) := by
  have haddr : (BitVec.ofNat 16 (a + j)).toNat = a + j := by
    rw [BitVec.toNat_ofNat]
    omega
  have hfirst : (a + j) % 16 = 0 ↔ j = 0 := by omega
  have hlast : ((a + j) % 16 = 15 ∨ a + j + 1 = size) ↔ j = n := by omega
  simp only [readChunk, haddr, hfirst, hlast]
  by_cases h0 : j = 0 <;> simp [h0]

/-- Settles O33: the chunks of the row's addresses, joined. -/
theorem rowFormat : Obligations.RowFormat := by
  intro size a k m ha hk hle hfit hsize hend
  obtain ⟨n, rfl⟩ : ∃ n, k = n + 1 := ⟨k - 1, by omega⟩
  rw [← flatMap_framed]
  refine List.flatMap_congr fun j hj => ?_
  have hjn : j < n + 1 := List.mem_range.1 hj
  exact readChunk_in_row (m (a + j)) ha hle hfit hsize (by omega) (by omega)

/-! ## Hex pairs -/

theorem hexval_hexDigitU : ∀ n : BitVec 4, hexval (hexDigitU n) = some n.toNat := by decide

theorem hexval_hexDigitL : ∀ n : BitVec 4, hexval (hexDigitL n) = some n.toNat := by decide

/-- A byte is made of its two halves. -/
theorem byte_of_halves (b : Byte) :
    BitVec.ofNat 8 ((b.extractLsb' 4 4).toNat * 16 + (b.extractLsb' 0 4).toNat) = b := by
  apply BitVec.eq_of_toNat_eq
  simp only [BitVec.toNat_ofNat, BitVec.extractLsb'_toNat, Nat.shiftRight_eq_div_pow]
  have := b.isLt
  omega

/-- R63: two characters whose values are the halves of `b`, the upper one first. -/
theorem payloadByte_highFirst {b c0 c1 : Byte} (h0 : hexval c0 = some (b.extractLsb' 4 4).toNat)
    (h1 : hexval c1 = some (b.extractLsb' 0 4).toNat) : payloadByte .highFirst c0 c1 = some b :=
  (payloadByte_digits _ h0 h1).trans (congrArg some (byte_of_halves b))

/-- R63: the same, the lower one first. -/
theorem payloadByte_lowFirst {b c0 c1 : Byte} (h0 : hexval c0 = some (b.extractLsb' 0 4).toNat)
    (h1 : hexval c1 = some (b.extractLsb' 4 4).toNat) : payloadByte .lowFirst c0 c1 = some b :=
  (payloadByte_digits _ h0 h1).trans (congrArg some (byte_of_halves b))

/-- Settles O32, pair by pair: a digit of either case has the value of its half. -/
theorem hexPairsDecode : Obligations.HexPairsDecode := fun _ =>
  ⟨payloadByte_highFirst (hexval_hexDigitU _) (hexval_hexDigitU _),
    payloadByte_highFirst (hexval_hexDigitL _) (hexval_hexDigitL _),
    payloadByte_lowFirst (hexval_hexDigitU _) (hexval_hexDigitU _),
    payloadByte_lowFirst (hexval_hexDigitL _) (hexval_hexDigitL _)⟩

end Sys2Proof.Machine
end

section
/-! # The control pins during a transaction (R120, R121, R129) -/

namespace Sys2Proof.Machine

variable {s : State} {r q : Role} {p : Nat}

/-- R121: the phase that asserts a role. -/
def assertPhase : Role → Phase
  | .latch => .latchAssert
  | .enable => .enAssert
  | .program => .pgmAssert

theorem assertPhase_inj : ∀ {r q : Role}, assertPhase r = assertPhase q → r = q := by
  intro r q
  cases r <;> cases q <;> decide

/-- R121, R129: an asserted role is the one of the phase under way. -/
theorem phase_of_act (hk : s.busOk) (hr : s.act r = true) : ∃ t t0, s.bphase = .active t (assertPhase r) t0 := by
  cases hb : s.bphase with
  | idle => exact absurd hr (by rw [act_idle hb hk]; decide)
  | active t p t0 =>
    obtain ⟨⟨hlatch, henable, hprogram, -⟩, -⟩ := (busOk_active hb).1 hk
    have hp : p = assertPhase r := by
      cases r with
      | latch => exact beq_iff_eq.1 (hlatch.symm.trans hr)
      | enable => exact beq_iff_eq.1 (henable.symm.trans hr)
      | program => exact beq_iff_eq.1 (hprogram.symm.trans hr)
    exact ⟨t, t0, by rw [hp]⟩

theorem act_unique (hk : s.busOk) (hr : s.act r = true) (hq : s.act q = true) : r = q := by
  obtain ⟨_, _, hb⟩ := phase_of_act hk hr
  obtain ⟨_, _, hb'⟩ := phase_of_act hk hq
  rw [hb] at hb'
  injection hb' with _ hphase
  exact assertPhase_inj hphase

/-- R120: the role found on a pin is asserted and the pin is its own. -/
theorem roleOn_eq_some {x : Roles} (h : s.roleOn x p = some r) : s.act r = true ∧ (x.of r).pin = p := by
  simpa using List.find?_some h

/-- R120: no role is found on a pin exactly when no asserted role's pin it is. -/
theorem roleOn_eq_none {x : Roles} : s.roleOn x p = none ↔ ∀ r : Role, s.act r = true → (x.of r).pin ≠ p := by
  have hall : ∀ r : Role, r ∈ [Role.latch, .enable, .program] := by intro r; cases r <;> decide
  simp only [State.roleOn, List.find?_eq_none, hall, true_implies, Bool.and_eq_true, decide_eq_true_eq, not_and, ne_eq]

/-- R120: on the pin of the asserted role that role is found, since no other is asserted. -/
theorem roleOn_of_act (hk : s.busOk) (hr : s.act r = true) (x : Roles) : s.roleOn x (x.of r).pin = some r := by
  cases hf : s.roleOn x (x.of r).pin with
  | none => exact absurd rfl (roleOn_eq_none.1 hf r hr)
  | some q =>
    obtain ⟨hq, -⟩ := roleOn_eq_some hf
    rw [act_unique hk hq hr]

/-- Settles O43: one role alone, its pin, and the others. -/
theorem controlPins : Obligations.ControlPins := by
  intro s v hk hv
  refine ⟨fun r q => act_unique hk, fun r hr => ?_, fun p hp => pinLevel_of_roleOn_none hv (roleOn_eq_none.2 hp)⟩
  simp only [State.pinLevel, descriptor_of_desc hv, roleOn_of_act hk hr]

end Sys2Proof.Machine
end

section
/-! # A stray byte in `Idle` (R73, R156) -/

namespace Sys2Proof.Machine

variable {s t : State}

/-- R73: MAIN holds in `Idle`, and the byte at the buffer head is not the marker. -/
structure Stray (s : State) : Prop where
  memory : s.memoryOk
  phase : s.bphase = .idle
  held : s.held = []
  idle : s.dstate = .idle
  inactive : s.opActive = false
  occupied : 0 < s.occ
  byte : s.ringAt s.head ≠ Config.MARKER

/-- What the block shows of a stray byte: where it stands and which it is, what has been sent, and
what comes next. -/
def State.strayView (s : State) : Index × Byte × Str × List Input :=
  (s.head, s.ringAt s.head, s.txLog, s.inputs)

theorem Stray.mainTurn (h : Stray s) : mainTurn s = .next s := by
  rw [mainTurn_controller h.phase h.held, controllerStep_idle h.idle, h.inactive]
  rfl

/-- R92: the recognizer finds no marker, and an append leaves the head byte. -/
theorem Stray.appended (h : Stray s) (b : Byte) (hr : s.occ ≠ 1023) :
    (s.appended b).recognize = s.appended b ∧ Stray (s.appended b) ∧ (s.appended b).strayView = s.strayView := by
  obtain ⟨hring, -⟩ := h.memory
  have hhead : (s.appended b).ringAt s.head = s.ringAt s.head := appended_head hring b h.occupied.ne'
  have hbyte : (s.appended b).ringAt (s.appended b).head ≠ Config.MARKER := by
    show (s.appended b).ringAt s.head ≠ Config.MARKER
    rw [hhead]
    exact h.byte
  have hocc : 0 < (s.appended b).occ := by rw [appended_occ b hr]; omega
  refine ⟨if_neg fun hm => hbyte hm.1, ?_, ?_⟩
  · exact { h with memory := appended_memoryOk b h.memory, occupied := hocc, byte := hbyte }
  · show (s.head, (s.appended b).ringAt s.head, s.txLog, s.inputs) = s.strayView
    rw [hhead]
    rfl

theorem Stray.receive (h : Stray s) (b : Byte) (ok : Bool) :
    Stray (s.receive b ok) ∧ (s.receive b ok).strayView = s.strayView := by
  rcases receive_cases s b ok with ⟨_, e⟩ | ⟨_, _, e⟩ | ⟨_, _, _, e⟩ | ⟨_, _, hr, e⟩ <;> rw [e]
  · exact ⟨{ h with }, rfl⟩
  · exact ⟨{ h with inactive := rfl }, rfl⟩
  · exact ⟨{ h with }, rfl⟩
  · obtain ⟨hrec, hstray, hview⟩ := h.appended b hr
    rw [hrec]
    exact ⟨hstray, hview⟩

/-- R73, R156: a receive step, MAIN's turn and a tick all leave a stray byte as it is. -/
theorem Stray.inputStep (h : Stray s) {i : Input} (hport : i.isPort = false) (hpower : i ≠ .power)
    (ht : inputStep i s = .next t) : Stray t ∧ t.strayView = s.strayView := by
  cases i with
  | recv b ok => cases ht; exact h.receive b ok
  | port p => cases hport
  | main =>
    have hmain : Machine.mainTurn s = .next t := ht
    rw [h.mainTurn] at hmain
    cases hmain
    exact ⟨h, rfl⟩
  | tick dt => cases ht; exact ⟨{ h with }, rfl⟩
  | power => exact absurd rfl hpower

/-- R73: on the wire a step leaves the stray byte where it is, nothing sent and no port request among the inputs. -/
theorem Stray.step (h : Stray s) (hports : s.inputs.all (fun i => !i.isPort) = true)
    (hpower : ∀ rest, s.inputs ≠ .power :: rest) (ht : step s = .next t) :
    Stray t ∧ t.inputs.all (fun i => !i.isPort) = true ∧
      t.head = s.head ∧ t.ringAt t.head = s.ringAt s.head ∧ t.txLog = s.txLog := by
  rcases step_cases s with ⟨_, _, e⟩ | ⟨_, _, e⟩ | ⟨i, rest, _, hi, e⟩ <;> rw [e] at ht
  · cases ht
  · rw [h.mainTurn] at ht
    cases ht
    exact ⟨h, hports, rfl, rfl, rfl⟩
  · rw [hi, List.all_cons, Bool.and_eq_true, Bool.not_eq_true'] at hports
    obtain ⟨hport, hrest⟩ := hports
    have hrun : Stray { s with inputs := rest } := { h with }
    obtain ⟨hstray, hview⟩ := hrun.inputStep hport (fun hp => hpower rest (hp ▸ hi)) ht
    simp only [State.strayView, Prod.mk.injEq] at hview
    obtain ⟨hhead, hbyte, hlog, hinputs⟩ := hview
    exact ⟨hstray, hinputs ▸ hrest, hhead, hbyte, hlog⟩

/-- Settles O53: the premises are those of a stray byte on the wire, which every step keeps. -/
theorem strayByteBlocks : Obligations.StrayByteBlocks := by
  intro s t hw hm hb hd ha h0 hbyte hpower ht
  obtain ⟨hheld, hports⟩ := hw
  have hs : Stray s := ⟨hm, hb, hheld, hd, ha, h0, hbyte⟩
  obtain ⟨hstray, hports', hhead, hkept, hlog⟩ := hs.step hports hpower ht
  exact ⟨hstray.idle, hstray.inactive, hstray.occupied, hhead, hkept, hlog, hstray.phase, ⟨hstray.held, hports'⟩,
    hstray.memory⟩

end Sys2Proof.Machine
end

section
/-! # The end of a cancelled operation (R106, R118, R164) -/

namespace Sys2Proof.Machine

variable {s : State}

/-- R115: the abort of `$READ` is its line, after the line feed that closes an open row. -/
theorem readAbort_eq (s : State) :
    readAbort s =
      s.ended ((if s.addr.toNat % Config.ROW = 0 then [] else [Config.lf]) ++ Config.abortLine) := by
  rw [readAbort, report_aborted, State.ended, State.emit, State.ended, List.append_assoc]

/-- R115: the line feed that an abort at the check of `$READ` owes an open row; no other command has rows. -/
def State.rowEnd (s : State) : Str :=
  if s.dstate = .exec (.read .check) ∧ s.addr.toNat % 16 ≠ 0 then [0x0A#8] else []

theorem rowEnd_read (hd : s.dstate = .exec (.read .check)) :
    s.rowEnd = if s.addr.toNat % Config.ROW = 0 then [] else [Config.lf] := by
  by_cases h : s.addr.toNat % 16 = 0 <;> simp [State.rowEnd, hd, h]

theorem rowEnd_other (hd : s.dstate ≠ .exec (.read .check)) : s.rowEnd = [] :=
  if_neg fun h => hd h.1

/-- Where an iteration looks at the flag: the three checks and the two waits of `$WRITE` (R114, R117). -/
def checks : List Exec := [.read .check, .blank .check, .write .check, .write .w1, .write .w2]

/-- R106: with the flag false each of them ends the command with its report. -/
theorem exec_cancelled {e : Exec} (he : e ∈ checks) (hd : s.dstate = .exec e) (ha : s.opActive = false)
    (hb : s.bphase = .idle) : exec e.instr s = .next (s.ended (s.rowEnd ++ Config.abortLine)) := by
  simp only [checks, List.mem_cons, List.not_mem_nil, or_false] at he
  rcases he with rfl | rfl | rfl | rfl | rfl
  · rw [rowEnd_read hd, ← readAbort_eq]
    exact execRead_aborted hd ha
  all_goals rw [rowEnd_other (by rw [hd]; decide), List.nil_append]
  · exact execBlank_aborted hd ha
  · exact execWrite_aborted hd ha
  · exact execWrite_w1_aborted hd ha
  · exact execWrite_w2_aborted hd hb ha

theorem onBus_of_mem_checks : ∀ e ∈ checks, (DState.exec e).onBus = false := by decide

/-- Settles O57: the report in the first turn, the Cleanup in the second. -/
theorem cancellationReturnsToIdle : Obligations.CancellationReturnsToIdle := by
  intro s hs ha hd
  have hmem : s.dstate ∈ checks.map DState.exec := hd
  obtain ⟨e, he, hde⟩ := List.mem_map.1 hmem
  have hc : s.controllerNext := hs.controllerNext (hde ▸ onBus_of_mem_checks e he)
  have ⟨_, hb, _⟩ := hc
  have hx := exec_cancelled he hde.symm ha hb
  rw [mainRun_controllerStep hc ((controllerStep_exec hde.symm).trans hx),
    mainRun_cleanup (t := s.ended (s.rowEnd ++ Config.abortLine)) hc rfl, State.cleared, State.ended, ha,
    ← List.append_assoc]
  rfl

end Sys2Proof.Machine
end

section
/-! # A step with a byte or a port word next (R74 to R76, R83, log 6, log 7) -/

namespace Sys2Proof.Machine

variable {s : State} {p : PortWord} {i : Instr}

theorem mainBusy_iff (s : State) :
    s.mainBusy = true ↔ s.bphase ≠ .idle ∨ s.dstate.onBus = true ∨ s.held ≠ [] := by
  simp [State.mainBusy, or_assoc]

theorem portStep_runs (hd : decode (.port p) = .ok i) (h : issuedByMain i = true → s.mainBusy = false) :
    portStep p s = exec i s := by
  have hp : decodePort p = .ok i := hd
  cases hm : issuedByMain i with
  | false => simp [portStep, hp, issue, hm]
  | true => simp [portStep, hp, issue, h hm]

theorem portStep_waits (hd : decode (.port p) = .ok i) (hm : issuedByMain i = true) (hb : s.mainBusy = true) :
    portStep p s = .next { s with held := s.held ++ [i] } := by
  have hp : decodePort p = .ok i := hd
  simp [portStep, hp, issue, hm, hb]

theorem portStep_rejected {e : Reject} (hd : decode (.port p) = .error e) :
    portStep p s = .refused (.badRequest e) := by
  have hp : decodePort p = .error e := hd
  simp [portStep, hp]

/-- Settles O5: the input is taken, and a port word goes by whether MAIN can take its request. -/
theorem stepRunsTheRequest : Obligations.StepRunsTheRequest := by
  intro s rest hf
  refine ⟨fun b ok hi => ?_, fun p i hi hd hfree => ?_, fun p i hi hd hm hbusy => ?_, fun p e hi hd => ?_⟩ <;>
    rw [step_cons hf hi]
  · rfl
  · exact portStep_runs hd fun hm => (mainBusy_eq_false_iff _).2 (hfree hm)
  · exact portStep_waits hd hm ((mainBusy_iff _).2 hbusy)
  · exact portStep_rejected hd

/-- Settles O19: each reserved row's meaning is its refusal. -/
theorem reservedPortWordsAreRefused : Obligations.ReservedPortWordsAreRefused := fun _ =>
  ⟨fun _ _ => rfl, fun _ _ => rfl, rfl, rfl⟩

end Sys2Proof.Machine
end

section
/-! # The code byte of `$SETDEV` and the entry of the engine's commands (R110, R112, R113) -/

namespace Sys2Proof.Machine

variable {s : State}

/-- R65: the device codes of the two variants differ, so a code byte names one variant. -/
theorem variantOfCode_devCode {c : Config} (hw : c.wf = true) (v : Variant) :
    variantOfCode c (c.descriptor v).devCode = some v := by
  simp only [Config.wf, Bool.and_eq_true, bne_iff_ne] at hw
  obtain ⟨⟨⟨⟨⟨-, hcodes⟩, -⟩, -⟩, -⟩, -⟩ := hw
  cases v with
  | A => exact if_pos rfl
  | B => exact (if_neg hcodes.symm).trans (if_pos rfl)

/-- R65: a byte that is no variant's code. -/
theorem variantOfCode_none {c : Config} {b : Byte} (h : ∀ v, (c.descriptor v).devCode ≠ b) :
    variantOfCode c b = none :=
  (if_neg (h .A).symm).trans (if_neg (h .B).symm)

theorem setDevice_known {b : Byte} {v : Variant} (h : variantOfCode s.cfg b = some v) :
    setDevice b s = (s.select v).ended Config.okLine := by
  simp only [setDevice, h, finish_ended]

theorem setDevice_unknown {b : Byte} (h : variantOfCode s.cfg b = none) :
    setDevice b s = s.ended Config.setDevFailLine := by
  simp only [setDevice, h, report_unknownDevice]

/-- Settles O24: the abort, the hold, and the two kinds of code byte. -/
theorem setDeviceSelectsByCode : Obligations.SetDeviceSelectsByCode := by
  intro s hd hw
  refine ⟨fun ha => execSetdev_aborted hd ha, fun ha ho => execSetdev_hold hd ha ho, fun ha h0 => ⟨fun v hv => ?_,
    fun hv => ?_⟩⟩
  · have hcode : variantOfCode s.removed.cfg (s.ringAt s.head) = some v := hv ▸ variantOfCode_devCode hw v
    exact (execSetdev_some hd ha h0.ne').trans (congrArg _ (setDevice_known hcode))
  · have hcode : variantOfCode s.removed.cfg (s.ringAt s.head) = none := variantOfCode_none hv
    exact (execSetdev_some hd ha h0.ne').trans (congrArg _ (setDevice_unknown hcode))

theorem engineEntry_none (check : DState) (h : s.desc = none) :
    engineEntry check s = s.ended Config.noDeviceLine := by
  simp only [engineEntry, h, report_noDevice]

theorem engineEntry_some {v : Variant} (check : DState) (h : s.desc = some v) :
    engineEntry check s = { s with addr := 0#16, dstate := check } := by
  simp only [engineEntry, h, State.goto]

/-- R113: each of the three commands at its entry. -/
theorem exec_entry {c : Instr} {check : Exec}
    (h : (c, s.dstate, check) ∈
      [(Instr.read, DState.exec (.read .entry), Exec.read .check),
        (.blank, .exec (.blank .entry), .blank .check), (.write, .exec (.write .entry), .write .check)]) :
    exec c s = .next (engineEntry (.exec check) s) := by
  simp only [List.mem_cons, List.not_mem_nil, or_false, Prod.mk.injEq] at h
  rcases h with ⟨rfl, hd, rfl⟩ | ⟨rfl, hd, rfl⟩ | ⟨rfl, hd, rfl⟩
  · exact execRead_entry hd
  · exact execBlank_entry hd
  · exact execWrite_entry hd

end Sys2Proof.Machine

namespace Sys2Proof

open Machine

/-- Settles O26: the entry with and without a descriptor, the same for the three commands. -/
theorem engineEntry : Obligations.EngineEntry := by
  intro s c check hc
  refine ⟨fun hv => ?_, fun v hv => ?_⟩
  · exact (exec_entry hc).trans (congrArg _ (engineEntry_none _ hv))
  · exact (exec_entry hc).trans (congrArg _ (engineEntry_some _ hv))

end Sys2Proof
end

section
/-! # A bus request refused, and one that begins (R121, R124, R125) -/

namespace Sys2Proof.Machine

variable {s : State} {v : Variant} {a : Addr}

/-- R125: no transaction starts with no variant selected or outside the device. -/
theorem txn_none (k : TxnKind) (d : Byte)
    (h : s.desc = none ∨ ∃ v, s.desc = some v ∧ s.cfg.wf = true ∧ (s.cfg.descriptor v).size ≤ a.toNat) :
    s.txn k a d = none := by
  rw [Option.eq_none_iff_forall_ne_some]
  intro t ht
  obtain ⟨v, hv, hin, -⟩ := (txn_eq_some_iff s k a d t).1 ht
  rcases h with h | ⟨w, hw, hwf, hle⟩
  · rw [h] at hv
    cases hv
  · rw [hw] at hv
    cases hv
    have := (hasAddr_iff (size_bounds hwf v).1).1 hin
    omega

theorem portBus_refused (i : Instr) {k : TxnKind} {d : Byte} (h : s.txn k a d = none) :
    portBus i k a d s = .refused .busPrecondition := by
  simp only [portBus, h]

/-- Settles O35: each request is refused with the transaction it asks for. -/
theorem busPrecondition : Obligations.BusPrecondition := fun _ _ h =>
  ⟨portBus_refused _ (txn_none _ _ h), portBus_refused _ (txn_none _ _ h), fun _ => portBus_refused _ (txn_none _ _ h)⟩

/-- R124: a bus request on an idle bus at the signal level begins its transaction. -/
theorem portBus_begins (i : Instr) (k : TxnKind) (d : Byte) (hl : s.level = .signal) (hb : s.bphase = .idle)
    (hv : s.desc = some v) (ha : a.toNat < (s.cfg.descriptor v).size) :
    portBus i k a d s = .next
      { s with busA := addressLines (s.cfg.descriptor v).aw a
               busD := if k = .prog then d else s.busD
               busOE := k == .prog
               bphase := .active ⟨v, k, a, d⟩ .addrSetup s.now } := by
  rw [portBus_begin i (txn_of_lt k d hv ha) hb hl, beginTxn_eq]
  rfl

/-- R121: a transaction that drives no data finds its data lines released by the idle bus. -/
theorem portBus_begins_released (i : Instr) {k : TxnKind} (hp : k ≠ .prog) (d : Byte) (hl : s.level = .signal)
    (hb : s.bphase = .idle) (hk : s.busOk) (hv : s.desc = some v) (ha : a.toNat < (s.cfg.descriptor v).size) :
    portBus i k a d s = .next
      { s with busA := addressLines (s.cfg.descriptor v).aw a, bphase := .active ⟨v, k, a, d⟩ .addrSetup s.now } := by
  obtain ⟨-, -, -, hoe⟩ := (busOk_idle hb).1 hk
  have hsame : (k == .prog) = s.busOE := (beq_eq_false_iff_ne.2 hp).trans hoe.symm
  rw [portBus_begins i k d hl hb hv ha, if_neg hp, hsame]

/-- Settles O37, request by request. -/
theorem transactionBegins : Obligations.TransactionBegins := by
  intro s v a hl hb hk hv ha
  exact ⟨portBus_begins_released (.busLatch a) (by decide) 0x00#8 hl hb hk hv ha,
    portBus_begins_released (.busRead a) (by decide) 0x00#8 hl hb hk hv ha,
    fun d => portBus_begins (.busProg a d) .prog d hl hb hv ha⟩

end Sys2Proof.Machine
end

section
/-! # The output lines and the state at reset (R26, R33, R149) -/

namespace Sys2Proof.Machine

variable {s : State}

/-- R26: the two levels of the line differ. -/
theorem other_ne (l : Volt) : l.other ≠ l := by
  cases l <;> decide

theorem flowLine_eq_iff (s : State) : s.flowLine = s.cfg.fcLevel ↔ s.stop = true := by
  cases hs : s.stop with
  | false => simp [State.flowLine, hs, other_ne]
  | true => simp [State.flowLine, hs]

/-- R86: when a `POPW` has no step. -/
theorem popwEnabled_eq_false_iff (s : State) : s.popwEnabled = false ↔ s.occ = 0 ∧ s.opActive = true := by
  simp [State.popwEnabled]

/-- R33, R86: the indicator while MAIN is at a `POPW`. -/
theorem ind_atPopw (h : s.atPopw = true) :
    s.ind = if s.occ = 0 ∧ s.opActive = true then .waitInd else if s.dstate = .idle then .idleInd else .busyInd := by
  simp [State.ind, h, popwEnabled_eq_false_iff]

/-- R33: the indicator while MAIN is at none. -/
theorem ind_notAtPopw (h : s.atPopw = false) : s.ind = if s.dstate = .idle then .idleInd else .busyInd := by
  simp [State.ind, h]

/-- R33: with a `POPW` request first, MAIN is at it. -/
theorem atPopw_held {others : List Instr} (h : s.held = .popw :: others) : s.atPopw = true := by
  simp [State.atPopw, h]

/-- R33: with no `POPW` request first, MAIN is at a `POPW` in `$SETDEV`, W1 and W2. -/
theorem atPopw_iff (h : ∀ others, s.held ≠ .popw :: others) :
    s.atPopw = true ↔ s.dstate ∈ [DState.exec .setdev, .exec (.write .w1), .exec (.write .w2)] := by
  unfold State.atPopw
  split
  · exact absurd ‹_› (h _)
  · split <;> simp_all

/-- Settles O44: the line, and the indicator without and with a `POPW` request first. -/
theorem outputLines : Obligations.OutputLines := by
  intro s
  refine ⟨flowLine_eq_iff s, fun hh => ⟨fun hd => ?_, fun hd => ?_, fun hidle hd => ?_⟩, fun others hh => ?_⟩
  · have hat : s.atPopw = false := Bool.eq_false_iff.2 fun hp => by simp [atPopw_iff hh, hd] at hp
    rw [ind_notAtPopw hat, if_pos hd]
  · have hidle : s.dstate ≠ .idle := fun hi => by simp [hi] at hd
    rw [ind_atPopw ((atPopw_iff hh).2 hd), if_neg hidle]
  · have hat : s.atPopw = false := Bool.eq_false_iff.2 fun hp => hd ((atPopw_iff hh).1 hp)
    rw [ind_notAtPopw hat, if_neg hidle]
  · exact ind_atPopw (atPopw_held hh)

/-- R12, R13: the constraints hold of the platform's parameters with the two defaults. -/
theorem machine_wf : Config.machine.wf = true := Config.platform.ok

theorem reset_session : Session State.reset where
  config := machine_wf
  memory := ⟨rfl, rfl, rfl⟩
  flow := cleared_flowOk State.reset
  bus := (busOk_idle rfl).2 ⟨rfl, rfl, rfl, rfl⟩
  dispatch := nofun
  engine := nofun
  sequencer := .inl rfl
  wire := ⟨rfl, rfl⟩
  noFault := rfl

/-- Settles O55: each value is the one written at power-on. -/
theorem resetState : Obligations.ResetState := by
  have hact : ∀ r, State.reset.act r = false := fun r => act_idle rfl reset_session.bus r
  exact ⟨reset_session, rfl, fun _ => rfl, rfl, rfl, cleared_occ State.reset, rfl, rfl, rfl, rfl, rfl, rfl, rfl, rfl, rfl,
    rfl, rfl, rfl, hact, rfl, rfl, rfl, rfl⟩

end Sys2Proof.Machine
end
